-- ==== Sys2Proof/Word.lean ====
section
/-! DEFINITION. The values CORE moves: bytes, 16-bit words and the 32-bit port of the registers
(spec/00_scope.md R10: "a byte is 8 bits", "a word16 is 16 bits"; spec/10_state.md R21: registers are read and
written 32 bits at a time). Counts, lengths and indices are `Nat`: R10 computes them on unbounded non-negative
integers, and `Sys2Proof.Machine.State.Inv` (Safety.lean) keeps each inside the width R21 gives it. -/

namespace Sys2Proof

/-- A byte: 8 bits (R10). -/
abbrev Byte := BitVec 8

/-- A word16: 16 bits (R10). -/
abbrev Half := BitVec 16

/-- A value at the 32-bit register port, and a command word (R21, R90). -/
abbrev Word := BitVec 32

end Sys2Proof
end

