-- ==== Sys2Proof/Config.lean ====
section
/-! DEFINITION. What an implementation of CORE fixes: the framing constants (spec/00_scope.md R7), the capacity
parameters (R8), the nine address spaces (spec/20_memory.md R60), and the free values: what storage that nothing has
written reads as (spec/70_reset_and_hazards.md R302), what a draw source beyond its given answers returns
(spec/44_injector.md R211), and the terminator of the request and the spelling of the response header (spec/46_protocol.md
R243, R244). The free values are opaque constants: no proof can see one. -/

namespace Sys2Proof

/-- TOTAL, the size of a wire record in bytes (R7). -/
def Config.total : Nat := 256

/-- HDR, the size of the header in bytes (R7). -/
def Config.hdr : Nat := 4

/-- MAXP, the most payload bytes a segment holds (R7). -/
def Config.maxp : Nat := 252

/-- The capacity parameters NSLOT and IBUF_CAP (R8). A state carries them and no step changes them, so that a claim
about every state is a claim about every choice of the parameters (assumption log 1; DESIGN CHOICE, safe). -/
structure Params where
  /-- NSLOT, the number of slots of the reorder buffer. -/
  nslot : Nat
  /-- IBUF_CAP, the size of the input buffer in bytes. -/
  ibufCap : Nat
  deriving DecidableEq, Repr, Inhabited

/-- The defaults of R8: 256 slots, 64512 bytes. -/
def Params.standard : Params := { nslot := 256, ibufCap := 64512 }

/-- OBUF_CAP = NSLOT * 252 (R8: derived, not free). -/
def Params.obufCap (p : Params) : Nat := p.nslot * Config.maxp

/-- The constraints of R8: `1 <= NSLOT <= 65536` and `1 <= IBUF_CAP <= 65536 * 252`. -/
def Params.valid (p : Params) : Bool :=
  decide (1 ≤ p.nslot ∧ p.nslot ≤ 65536 ∧ 1 ≤ p.ibufCap ∧ p.ibufCap ≤ 65536 * Config.maxp)

/-- The nine address spaces of R60: six the host sees, then three internal ones. -/
inductive Space where
  | reg | ibuf | wbuf | obuf | flg | pres
  | segPay | rb | ord
  deriving DecidableEq, Repr, Inhabited

/-- What element `index` of `space` reads as when nothing has written it: any value, another one for every `stamp`
(the state's counter `fresh`) and every `reading` of that element inside one operation (R58, R302, U4 of
spec/93_implementation_defined.md; assumption log 4; a free value, safe). DESIGN CHOICE: two blocks, or two runs of one
block, whose counters are equal read the same free values (assumption log 22; unsafe for a claim that compares them). -/
opaque Config.freeNat (stamp reading : Nat) (space : Space) (index : Nat) : Nat

/-- The `k`-th answer of a draw source that has used up the answers it was given (R211: claims quantify over every
in-range answer; assumption log 6; a free value, safe; two sources that have made equally many draws share it:
assumption log 22). -/
opaque Config.freeDraw (k : Nat) : Nat

/-- The line terminator of the request, in 7-bit ASCII characters, for the request is an ASCII line (R243 does not give
the terminator, N17 of spec/91_not_in_source.md; assumption log 12; a free value, safe). -/
opaque Config.requestTerminator : List (BitVec 7)

/-- The line terminator of the response header (R244 does not fix it, N17 of spec/91_not_in_source.md; assumption log
13; a free value, safe). -/
opaque Config.lineEnd : List Byte

/-- The content-type field of the response to a request for `name`, without its line terminator (spelling not fixed:
R244, N17; assumption log 13; a free value, safe). -/
opaque Config.contentTypeField (name resource : List Byte) : List Byte

/-- The content-length field of the response with a resource of `length` bytes, without its line terminator (spelling
not fixed: R244, N17; assumption log 13; a free value, safe). -/
opaque Config.contentLengthField (length : Nat) : List Byte

end Sys2Proof
end

