-- ==== Sys2Proof/Syntax.lean ====
section
/-! DEFINITION. The fourteen operations of CORE (spec/30_encoding.md R94; spec/opcode_table.json), one constructor a
row. An index operand is an unsigned integer and a byte operand a byte (R95); `Instr.wellFormed` (WellFormed.lean)
says which index operands a command word can carry. -/

namespace Sys2Proof

/-- One operation with its operands (R94, R95). -/
inductive Instr where
  /-- Checksum of the input buffer (spec/40_checksum.md R120). -/
  | csumi
  /-- Checksum of the working segment's payload (R121). -/
  | csums
  /-- Working segment to wire buffer (spec/41_codec.md R131). -/
  | encode
  /-- Wire buffer to working segment (R132). -/
  | decode
  /-- Read payload byte `a` of the working segment (R135). -/
  | pget (a : Nat)
  /-- Write `b` to payload byte `a` of the working segment (R136). -/
  | pset (a : Nat) (b : Byte)
  /-- Start segmenting the input buffer (spec/42_segmenter.md R152). -/
  | seginit
  /-- Emit the next segment (R153). -/
  | segnext
  /-- Empty the reorder buffer (spec/43_reorder_reassembler.md R172). -/
  | rbclr
  /-- Append the working segment to the reorder buffer (R174). -/
  | rbpush
  /-- Reassemble the reorder buffer into the output buffer (R176). -/
  | reasm
  /-- Run the injector on the working segment (spec/44_injector.md R206). -/
  | corrupts
  /-- Run the injector on slot `a` of the reorder buffer (R207). -/
  | corruptr (a : Nat)
  /-- Run the Error Detector over the reorder buffer (spec/45_detector.md R231). -/
  | detect
  deriving DecidableEq, Repr

end Sys2Proof
end

