-- ==== Sys2Proof/WellFormed.lean ====
section
/-! DEFINITION. Which terms of `Instr` a command word can carry: an index operand is the 16-bit field `a`, 0 to 65535
(spec/30_encoding.md R90, R95). An index beyond the payload or beyond the reorder buffer is well formed: R95 makes the
field wider than any legal index on purpose, and the operation reports it. -/

namespace Sys2Proof

/-- The index operand fits the 16-bit field `a = w[23:8]` (R90, R95). -/
def Instr.wellFormed : Instr → Bool
  | .csumi => true
  | .csums => true
  | .encode => true
  | .decode => true
  | .pget a => decide (a < 65536)
  | .pset a _ => decide (a < 65536)
  | .seginit => true
  | .segnext => true
  | .rbclr => true
  | .rbpush => true
  | .reasm => true
  | .corrupts => true
  | .corruptr a => decide (a < 65536)
  | .detect => true

end Sys2Proof
end

