-- ==== Sys2Proof/Decode.lean ====
section
/-! DEFINITION. The command word and its decoder (spec/30_encoding.md R90 to R97), then the encoder. A command word is
the datum of a write to CMD and is never read from memory (spec/20_memory.md R84), so the decoder takes the 32-bit
word itself. -/

namespace Sys2Proof

/-- Why a word is illegal (R96, R97). -/
inductive DecodeError where
  /-- The top byte is none of the fourteen opcodes (R96 step 1). -/
  | unknownOpcode (op : Byte)
  /-- An unused operand field is not zero (R96 step 3). -/
  | nonzeroUnusedField (op : Byte)
  deriving DecidableEq, Repr

/-- The three formats of R90: which of the fields `a` and `b` carry an operand. -/
inductive Format where
  /-- Format N: no operand, `w[23:0]` must be zero (R91). -/
  | n (i : Instr)
  /-- Format A: index operand, `w[7:0]` must be zero (R92). -/
  | a (mk : Nat → Instr)
  /-- Format AB: index and byte operands (R93). -/
  | ab (mk : Nat → Byte → Instr)

/-- `op = w[31:24]` (R90). -/
def opField (w : Word) : Byte := w.extractLsb' 24 8

/-- `a = w[23:8]` (R90), an unsigned integer taken as it stands (R95). -/
def aField (w : Word) : Nat := (w.extractLsb' 8 16).toNat

/-- `b = w[7:0]` (R90). -/
def bField (w : Word) : Byte := w.extractLsb' 0 8

/-- The opcode map of R94. -/
def formatOf (op : Byte) : Option Format :=
  match op.toNat with
  | 0x10 => some (.n .csumi)
  | 0x11 => some (.n .csums)
  | 0x20 => some (.n .encode)
  | 0x21 => some (.n .decode)
  | 0x22 => some (.a .pget)
  | 0x23 => some (.ab .pset)
  | 0x30 => some (.n .seginit)
  | 0x31 => some (.n .segnext)
  | 0x40 => some (.n .rbclr)
  | 0x41 => some (.n .rbpush)
  | 0x42 => some (.n .reasm)
  | 0x50 => some (.n .corrupts)
  | 0x51 => some (.a .corruptr)
  | 0x60 => some (.n .detect)
  | _ => none

/-- The decoder of R96: total on all 2^32 words, reading no state. -/
def decode (w : Word) : Except DecodeError Instr :=
  match formatOf (opField w) with
  | none => .error (.unknownOpcode (opField w))
  | some (.n i) =>
    if w.extractLsb' 0 24 = 0 then .ok i else .error (.nonzeroUnusedField (opField w))
  | some (.a mk) =>
    if bField w = 0 then .ok (mk (aField w)) else .error (.nonzeroUnusedField (opField w))
  | some (.ab mk) => .ok (mk (aField w) (bField w))

/-- A word from its three fields (R90). -/
def commandWord (op : Byte) (a : Nat) (b : Byte) : Word := op ++ BitVec.ofNat 16 a ++ b

/-- The command word of an operation (R94). -/
def encode : Instr → Word
  | .csumi => commandWord 0x10 0 0
  | .csums => commandWord 0x11 0 0
  | .encode => commandWord 0x20 0 0
  | .decode => commandWord 0x21 0 0
  | .pget a => commandWord 0x22 a 0
  | .pset a b => commandWord 0x23 a b
  | .seginit => commandWord 0x30 0 0
  | .segnext => commandWord 0x31 0 0
  | .rbclr => commandWord 0x40 0 0
  | .rbpush => commandWord 0x41 0 0
  | .reasm => commandWord 0x42 0 0
  | .corrupts => commandWord 0x50 0 0
  | .corruptr a => commandWord 0x51 a 0
  | .detect => commandWord 0x60 0 0

/-- One row of spec/opcode_table.json: a word is that row's operation when `w &&& mask = pattern` (R91 to R93). -/
structure EncodingRow where
  mnemonic : String
  pattern : Word
  mask : Word
  deriving DecidableEq, Repr

/-- The fourteen rows of spec/opcode_table.json, in its order. -/
def encodingRows : List EncodingRow :=
  [ ⟨"CSUMI", 0x10000000, 0xFFFFFFFF⟩, ⟨"CSUMS", 0x11000000, 0xFFFFFFFF⟩,
    ⟨"ENCODE", 0x20000000, 0xFFFFFFFF⟩, ⟨"DECODE", 0x21000000, 0xFFFFFFFF⟩,
    ⟨"PGET", 0x22000000, 0xFF0000FF⟩, ⟨"PSET", 0x23000000, 0xFF000000⟩,
    ⟨"SEGINIT", 0x30000000, 0xFFFFFFFF⟩, ⟨"SEGNEXT", 0x31000000, 0xFFFFFFFF⟩,
    ⟨"RBCLR", 0x40000000, 0xFFFFFFFF⟩, ⟨"RBPUSH", 0x41000000, 0xFFFFFFFF⟩,
    ⟨"REASM", 0x42000000, 0xFFFFFFFF⟩, ⟨"CORRUPTS", 0x50000000, 0xFFFFFFFF⟩,
    ⟨"CORRUPTR", 0x51000000, 0xFF0000FF⟩, ⟨"DETECT", 0x60000000, 0xFFFFFFFF⟩ ]

/-- The mnemonic of an operation (R94). -/
def Instr.mnemonic : Instr → String
  | .csumi => "CSUMI"
  | .csums => "CSUMS"
  | .encode => "ENCODE"
  | .decode => "DECODE"
  | .pget _ => "PGET"
  | .pset _ _ => "PSET"
  | .seginit => "SEGINIT"
  | .segnext => "SEGNEXT"
  | .rbclr => "RBCLR"
  | .rbpush => "RBPUSH"
  | .reasm => "REASM"
  | .corrupts => "CORRUPTS"
  | .corruptr _ => "CORRUPTR"
  | .detect => "DETECT"

/-- The word `w` is an instance of the row `r` (R91 to R93). -/
def EncodingRow.matches (r : EncodingRow) (w : Word) : Bool := w &&& r.mask == r.pattern

/-- The decoder on a table row's bits: a command is one 32-bit word moved as a whole value (spec/20_memory.md R72),
so the numbered bits are the word itself. Every row has 32 bits; bits above `nbits` are zero. -/
def decodeTableWord (_nbits w : Nat) : Option Instr :=
  if w < 2 ^ 32 then (decode (BitVec.ofNat 32 w)).toOption else none

end Sys2Proof
end

