-- ==== Sys2Proof/Machine/State.lean ====
section
/-! DEFINITION. The whole state of CORE (spec/10_state.md R20 to R57), the host that drives it (spec/20_memory.md R64,
spec/46_protocol.md), the outcomes that stop a step, and the state after reset (R58, spec/70_reset_and_hazards.md
R300). INVENTORY.md lists every field with its rule, width and reset value. -/

namespace Sys2Proof.Machine

/-- What a step stops on. Only a host in a role of the Transfer Protocol can raise one: the block itself never stops
(spec/60_exceptions.md R270 to R274 report every error of an operation in ERR, and the next operation runs). -/
inductive Fault where
  /-- A send or a receive of the host failed: "transport-level failures are not specially handled by the core and
  propagate to terminate the session" (spec/46_protocol.md R252). Raised by `viaTransport`, through which `serverTurn`
  and `clientTurn` use the transport. Safe: the session stops here as R252 says it does (assumption log 21). -/
  | transportFailed
  deriving DecidableEq, Repr

/-- What the model refuses: host moves to which spec/20_memory.md R67 gives no meaning ("a model refuses them"; U3 of
spec/93_implementation_defined.md), and the two ends of a request that is not of the form of spec/46_protocol.md R243.
All are safe: nothing is claimed of a machine that meets one (assumption logs 7, 8, 12). -/
inductive Refusal where
  /-- No meaning for the instruction yet. No arm of `exec` answers with it: every operation has its meaning. Safe. -/
  | notModelled (mnemonic : String)
  /-- A read of the write-only register CMD (R22, R67). Raised by `State.regValue`. Safe. -/
  | readOfCmd
  /-- A write to a read-only register (R21, R67). Raised by `State.writeReg`. Safe. -/
  | readOnlyRegister (index : Nat)
  /-- A write to OBUF, FLG or PRES (R60, R67). Raised by `State.hostWrite`. Safe. -/
  | readOnlySpace (space : Space)
  /-- An access to SEG.pay, RB or ORD, which the host has no window on (R60, U3). Raised by `State.hostRead` and
  `State.hostWrite`. Safe. -/
  | internalSpace (space : Space)
  /-- An index at or beyond the size of its space (R67). Raised by `State.hostRead` and `State.hostWrite`. Safe. -/
  | indexOutOfSpace (space : Space) (index : Nat)
  /-- A byte write with a value above 255 (R67). Raised by `State.hostWrite`. Safe. -/
  | valueTooWide (space : Space) (index : Nat)
  /-- An access to register LFSR while the draw source is not the reference LFSR: the register "is replaced by that
  parameter's state and is not host-visible" (R42). Raised by `State.regValue` and `State.writeReg`. Safe. -/
  | lfsrNotVisible
  /-- A request datagram that is not a terminated single ASCII line of the form `GET <name> HTTP/1.0` (R243 gives no
  other). Raised by `serverTurn`. Safe. -/
  | malformedRequest
  /-- A client whose resource name makes no single ASCII line (R243), so that there is no request for it. Raised by
  `clientTurn`. Safe. -/
  | nameNotALine
  deriving DecidableEq, Repr

/-- The six flags of STATUS (R23, R30 to R36). -/
structure Flags where
  /-- STATUS bit 0: the last decoded segment starts with a zero byte (R31). -/
  z : Bool
  /-- STATUS bit 1: the Segmenter has a segment left to emit (R32). -/
  more : Bool
  /-- STATUS bit 2: the last REASM found a position absent (R33). -/
  gap : Bool
  /-- STATUS bit 3: a number below NSLOT was pushed twice (R34). -/
  dup : Bool
  /-- STATUS bit 4: the last injector call decided for damage (R35). -/
  hit : Bool
  /-- STATUS bit 5: an error has been recorded since reset (R36). -/
  ever : Bool
  deriving DecidableEq, Repr, Inhabited

/-- The eight result codes of ERR (spec/60_exceptions.md R270). -/
inductive ErrCode where
  | ok | empty | index | illegal | full | slot | seq | range
  deriving DecidableEq, Repr, Inhabited

/-- A segment: the working segment SEG (R46) and a slot of the reorder buffer (R51). The payload is the first `plen`
of the 252 stored bytes. -/
structure Segment where
  /-- `segment_number`, 16 bits (R27). -/
  num : Half
  /-- `checksum`, 16 bits (R28). -/
  csum : Half
  /-- The number of payload bytes in use, 0 to 252 (R29). -/
  plen : Fin 253
  /-- The store of exactly 252 bytes (R46). -/
  pay : Vector Byte 252
  deriving DecidableEq, Repr, Inhabited

/-- The draw source of the injector (spec/00_scope.md R9, spec/44_injector.md R210, R211): a parameter of the model,
held here with its state (assumption log 6). -/
inductive Rng where
  /-- The reference generator with its register LFSR (R42, R212). -/
  | lfsr (value : Half)
  /-- Any other source: the answers it will give, next one first, then free values; `taken` counts the draws made.
  A claim over every `answers` is a claim over every sequence of draws (R211). -/
  | given (answers : List Nat) (taken : Nat)
  deriving DecidableEq, Repr, Inhabited

/-- An element-indexed memory: the elements something has written, in the canonical form `Memory.wf` (Ops.lean):
indices strictly rising. An unlisted element reads as a free value (R302), so no written element is left out of the
list. -/
abbrev Memory (α : Type) := List (Nat × α)

/-- One move of the host, or the reset event (spec/20_memory.md R64 to R66, spec/70_reset_and_hazards.md R301). -/
inductive HostAction where
  /-- `HostRead(space, index)` (R65). -/
  | read (space : Space) (index : Nat)
  /-- `HostWrite(space, index, value)` (R66). -/
  | write (space : Space) (index : Nat) (value : Word)
  /-- The reset input, between two host accesses (R301). -/
  | reset
  deriving DecidableEq, Repr

/-- A wire record: always 256 bytes (spec/41_codec.md R130). -/
abbrev Record := Vector Byte 256

/-- The server role's states (R241). -/
inductive ServerState where
  | idle
  /-- A request for `name` was parsed. -/
  | requestReceived (name : List Byte)
  /-- A SEGNEXT, SEND and a read of STATUS have been issued. -/
  | streaming
  /-- SENTINEL and SEND have been issued. -/
  | sentinelSent
  deriving DecidableEq, Repr

/-- The server role: its state, the request datagrams that arrived (oldest first), whether its next send or receive
fails (R252), the resource store (a name and the bytes of its resource, R244), and the records it gave to the transport
(oldest first). -/
structure Server where
  state : ServerState
  requests : List (List Byte)
  failing : Bool
  store : List (List Byte × List Byte)
  sent : List Record
  deriving DecidableEq, Repr

/-- What the client reports when it is done (R242). -/
inductive Report where
  /-- "resource not found" (R242, R251). -/
  | notFound
  /-- The flagged segment numbers and the reassembled body, untrimmed (R242, R249). -/
  | delivered (flagged : List Word) (body : List Byte)
  deriving DecidableEq, Repr

/-- The client role's states (R242), with the sub-states that a row's accesses pass through (assumption log 16). -/
inductive ClientState where
  | idle
  /-- Idle, RBCLR has been issued and the request line is sent next. -/
  | starting
  | requestSent
  /-- Receiving, waiting for a datagram. -/
  | receiving
  /-- Receiving, a RECV and the reads of STATUS and COUNT have been issued. -/
  | decoding
  /-- Reassembling, the CORRUPTR calls, DETECT and the read of NFLAG have been issued. -/
  | detecting
  /-- Reassembling, the reads of FLG, REASM and the read of OLEN have been issued. -/
  | reassembling
  /-- Reassembling, the reads of OBUF have been issued. -/
  | handingOver (flagged : List Word)
  | done (report : Report)
  deriving DecidableEq, Repr

/-- The client role: its state, the resource it asks for, the damage probability it was given as a fraction (R248), the
records that arrived (oldest first), whether its next send or receive fails (R252), and the request lines it gave to the
transport (oldest first). -/
structure Client where
  state : ClientState
  name : List Byte
  probability : Option (Nat × Nat)
  arrived : List Record
  failing : Bool
  requested : List (List Byte)
  deriving DecidableEq, Repr

/-- What decides the host's next accesses. -/
inductive Role where
  /-- The accesses come from outside the model. -/
  | external
  | server (s : Server)
  | client (c : Client)
  deriving DecidableEq, Repr

/-- The host (R64): the accesses it will make, oldest first, the values its reads have returned, newest first, and its
role. None of it is state of the block (R57), and no operation reads or writes it. -/
structure HostSide where
  pending : List HostAction
  replies : List Word
  role : Role
  deriving DecidableEq, Repr

/-- The state of one block and its host. -/
structure State where
  /-- NSLOT and IBUF_CAP: parameters, never written (R57; assumption log 1). -/
  cfg : Params
  /-- STATUS (R23). -/
  flags : Flags
  /-- ERR (R24). -/
  err : ErrCode
  /-- ILEN (R25). -/
  ilen : Nat
  /-- CKSUM (R26). -/
  cksum : Half
  /-- SEGNUM, SEGCSUM, SEGPLEN and SEG.pay (R27, R28, R29, R46). -/
  seg : Segment
  /-- PDATA (R37). -/
  pdata : Byte
  /-- COUNT (R38). -/
  count : Nat
  /-- OLEN (R39). -/
  olen : Nat
  /-- NFLAG (R40). -/
  nflag : Nat
  /-- THRESH (R41). -/
  thresh : Fin 101
  /-- LFSR, or the state of another draw source (R42). -/
  rng : Rng
  /-- SCNT (R43). -/
  scnt : Nat
  /-- SOFF (R44). -/
  soff : Nat
  /-- IBUF (R47). -/
  ibuf : Memory Byte
  /-- WBUF (R48). -/
  wbuf : Memory Byte
  /-- OBUF (R49). -/
  obuf : Memory Byte
  /-- RB (R51). -/
  rb : Memory Segment
  /-- FLG (R52). -/
  flg : Memory Half
  /-- PRES (R53): the indices of the bits that are 1, strictly rising. -/
  pres : List Nat
  /-- ORD (R54). -/
  ord : Memory Nat
  /-- The model's own counter for free values (assumption log 4): not state of the block. -/
  fresh : Nat
  /-- The host (R64). -/
  host : HostSide
  deriving DecidableEq, Repr

/-- The block with parameters `p` right after power-up: every register at its value in the table of R58, every memory
that R58 calls unspecified with nothing listed. -/
def State.powerUp (p : Params) : State :=
  { cfg := p
    flags := { z := false, more := false, gap := false, dup := false, hit := false, ever := false }
    err := .ok
    ilen := 0
    cksum := 0
    seg := { num := 0, csum := 0, plen := 0, pay := Vector.replicate 252 0 }
    pdata := 0
    count := 0
    olen := 0
    nflag := 0
    thresh := 0
    rng := .lfsr 0xACE1
    scnt := 0
    soff := 0
    ibuf := []
    wbuf := []
    obuf := []
    rb := []
    flg := []
    pres := []
    ord := []
    fresh := 0
    host := { pending := [], replies := [], role := .external } }

/-- The machine right after reset (R58, R300) with the default parameters of R8. -/
def State.reset : State := State.powerUp Params.standard

end Sys2Proof.Machine
end

