-- ==== Sys2Proof/Machine/Ops.lean ====
section
/-! DEFINITION. The named operations over memory and state that every meaning is built from: the element memories
(spec/20_memory.md R60, R73), what unwritten storage reads as (spec/70_reset_and_hazards.md R302), the presence bitmap,
and the two ways an operation ends, `State.complete` and `State.raise` (spec/60_exceptions.md R272). -/

namespace Sys2Proof.Machine

/-! ### Element memories -/

/-- The element at index `a`, if something has written it. -/
def Memory.get? {α : Type} (m : Memory α) (a : Nat) : Option α :=
  match m with
  | [] => none
  | (k, v) :: rest => if k = a then some v else Memory.get? rest a

/-- The elements `vs` at the indices `base, base + 1, …`. -/
def cellsFrom {α : Type} (base : Nat) (vs : List α) : Memory α :=
  match vs with
  | [] => []
  | v :: rest => (base, v) :: cellsFrom (base + 1) rest

/-- The run `vs` stored at `base`, every other element kept. -/
def Memory.write {α : Type} (m : Memory α) (base : Nat) (vs : List α) : Memory α :=
  m.filter (fun c => decide (c.1 < base)) ++ cellsFrom base vs ++
    m.filter (fun c => decide (base + vs.length ≤ c.1))

/-- Indices strictly rising: the canonical form. -/
def Memory.rising {α : Type} (m : Memory α) : Bool :=
  decide (m.Pairwise (fun c d => c.1 < d.1))

/-- The canonical form of a memory of `size` elements: strictly rising, and no index at or beyond the size. -/
def Memory.wf {α : Type} (size : Nat) (m : Memory α) : Bool :=
  Memory.rising m && m.all (fun c => decide (c.1 < size))

/-! ### The presence bitmap (spec/10_state.md R53) -/

/-- `PRES[n]`. -/
def presBit (pres : List Nat) (n : Nat) : Bool := pres.contains n

/-- `PRES[n] <- 1`. -/
def setPresBit (pres : List Nat) (n : Nat) : List Nat :=
  pres.filter (fun k => decide (k < n)) ++ n :: pres.filter (fun k => decide (n < k))

/-- The canonical form of a bitmap of `size` bits: its set bits strictly rising, all below the size. -/
def presWf (size : Nat) (pres : List Nat) : Bool :=
  decide (pres.Pairwise (· < ·)) && pres.all (fun n => decide (n < size))

/-! ### Reading storage: the written element, or a free value (R58, R302; assumption log 4) -/

/-- The free byte that element `i` of `space` reads as in the `reading`-th reading of this step. DESIGN CHOICE: it depends
on the counter `fresh` and not on the block, so two blocks at equal counters read equal bytes (assumption log 22). -/
def State.freeByte (s : State) (reading : Nat) (space : Space) (i : Nat) : Byte :=
  BitVec.ofNat 8 (Config.freeNat s.fresh reading space i)

/-- `IBUF[i]` (R47). -/
def State.ibufByte (s : State) (reading i : Nat) : Byte :=
  (Memory.get? s.ibuf i).getD (s.freeByte reading .ibuf i)

/-- `IBUF[base .. base + n)`. -/
def State.ibufBytes (s : State) (reading base n : Nat) : List Byte :=
  (List.range n).map fun i => s.ibufByte reading (base + i)

/-- `WBUF[i]` (R48). -/
def State.wbufByte (s : State) (reading i : Nat) : Byte :=
  (Memory.get? s.wbuf i).getD (s.freeByte reading .wbuf i)

/-- `OBUF[i]` (R49). -/
def State.obufByte (s : State) (reading i : Nat) : Byte :=
  (Memory.get? s.obuf i).getD (s.freeByte reading .obuf i)

/-- `FLG[i]` (R52). -/
def State.flgEntry (s : State) (reading i : Nat) : Half :=
  (Memory.get? s.flg i).getD (BitVec.ofNat 16 (Config.freeNat s.fresh reading .flg i))

/-- A slot nothing has written: every field a free value within its range (R51). The invariant R55 keeps every occupied
slot written, so no run reads one. -/
def State.freeSlot (s : State) (reading i : Nat) : Segment :=
  { num := BitVec.ofNat 16 (Config.freeNat s.fresh reading .rb (256 * i))
    csum := BitVec.ofNat 16 (Config.freeNat s.fresh reading .rb (256 * i + 1))
    plen := Fin.ofNat 253 (Config.freeNat s.fresh reading .rb (256 * i + 2))
    pay := Vector.ofFn fun k => s.freeByte reading .rb (256 * i + 4 + k.val) }

/-- `RB[i]` (R51). -/
def State.slot (s : State) (reading i : Nat) : Segment :=
  (Memory.get? s.rb i).getD (s.freeSlot reading i)

/-- `ORD[n]`, a slot index 0 to NSLOT-1 (R54). -/
def State.ordEntry (s : State) (reading n : Nat) : Nat :=
  (Memory.get? s.ord n).getD (Config.freeNat s.fresh reading .ord n % s.cfg.nslot)

/-! ### How an operation ends -/

/-- An operation completes: `ERR <- E_OK` (R24). The free values of the next operation are new ones. -/
def State.complete (s : State) : State :=
  { s with err := .ok, fresh := s.fresh + 1 }

/-- TAKING AN ERROR (spec/60_exceptions.md R272): `ERR <- code`, `STATUS.EVER <- 1`, and no other state changes. Every
raise stands before the operation's first write and first draw. There is no trap entry and nothing is saved, so there
is nothing to return from (R274): the block is ready for the next command. -/
def State.raise (s : State) (code : ErrCode) : State :=
  { s with err := code, flags := { s.flags with ever := true } }

end Sys2Proof.Machine
end

