-- ==== Sys2Proof/Machine/Operands.lean ====
section
/-! DEFINITION. The operands of the operations: byte order (spec/20_memory.md R70, R71), the bytes of a segment's payload
(spec/10_state.md R46), and the register numbers of the host's register space (R21). -/

namespace Sys2Proof.Machine

/-! ### Byte order -/

/-- `be16(b0, b1) = b0 * 256 + b1` (spec/00_scope.md R12). -/
def be16 (b0 b1 : Byte) : Half := BitVec.ofNat 16 (b0.toNat * 256 + b1.toNat)

/-- `v[15:8]`. -/
def hiByte (v : Half) : Byte := v.extractLsb' 8 8

/-- `v[7:0]`. -/
def loByte (v : Half) : Byte := v.extractLsb' 0 8

/-! ### The payload of a segment -/

/-- `pay[0 .. plen)` (R46). -/
def Segment.payload (g : Segment) : List Byte := g.pay.toList.take g.plen.val

/-- The stored byte at index `i`, `i < 252`. Callers have checked `i < plen`, and `plen <= 252`. -/
def Segment.byteAt (g : Segment) (i : Nat) : Byte := if h : i < 252 then g.pay[i] else 0

/-- `pay[i] <- b`, for `i < 252`. -/
def Segment.setByte (g : Segment) (i : Nat) (b : Byte) : Segment :=
  if h : i < 252 then { g with pay := g.pay.set i b } else g

/-- `pay[i] <- pay[i] XOR 0xFF` (spec/44_injector.md R201). -/
def Segment.invertByte (g : Segment) (i : Nat) : Segment := g.setByte i (g.byteAt i ^^^ 0xFF)

/-! ### Registers -/

/-- The sixteen registers of R21. -/
inductive Reg where
  | cmd | status | err | ilen | cksum | segnum | segcsum | segplen
  | pdata | count | olen | nflag | thresh | lfsr | scnt | soff
  deriving DecidableEq, Repr

/-- The register with an index of space REG (R21). -/
def Reg.ofIndex (i : Nat) : Option Reg :=
  match i with
  | 0x0 => some .cmd
  | 0x1 => some .status
  | 0x2 => some .err
  | 0x3 => some .ilen
  | 0x4 => some .cksum
  | 0x5 => some .segnum
  | 0x6 => some .segcsum
  | 0x7 => some .segplen
  | 0x8 => some .pdata
  | 0x9 => some .count
  | 0xA => some .olen
  | 0xB => some .nflag
  | 0xC => some .thresh
  | 0xD => some .lfsr
  | 0xE => some .scnt
  | 0xF => some .soff
  | _ => none

/-- The index of a register (R21). -/
def Reg.index : Reg → Nat
  | .cmd => 0x0
  | .status => 0x1
  | .err => 0x2
  | .ilen => 0x3
  | .cksum => 0x4
  | .segnum => 0x5
  | .segcsum => 0x6
  | .segplen => 0x7
  | .pdata => 0x8
  | .count => 0x9
  | .olen => 0xA
  | .nflag => 0xB
  | .thresh => 0xC
  | .lfsr => 0xD
  | .scnt => 0xE
  | .soff => 0xF

end Sys2Proof.Machine
end

