-- ==== Sys2Proof/Machine/Flags.lean ====
section
/-! DEFINITION. STATUS and ERR as the host reads them (spec/10_state.md R23, R24; spec/60_exceptions.md R270) and the
condition each flag reports (R31 to R36). -/

namespace Sys2Proof.Machine

/-- The value of STATUS: bit 0 Z, 1 MORE, 2 GAP, 3 DUP, 4 HIT, 5 EVER; bits 31:6 read 0 (R23). -/
def Flags.value (f : Flags) : Word :=
  (0 : BitVec 26) ++ BitVec.ofBool f.ever ++ BitVec.ofBool f.hit ++ BitVec.ofBool f.dup ++
    BitVec.ofBool f.gap ++ BitVec.ofBool f.more ++ BitVec.ofBool f.z

/-- The code of ERR (R270). -/
def ErrCode.value : ErrCode → BitVec 4
  | .ok => 0
  | .empty => 1
  | .index => 2
  | .illegal => 3
  | .full => 4
  | .slot => 5
  | .seq => 6
  | .range => 7

/-- Z: the first payload byte of the decoded segment is 0x00 (R31, spec/41_codec.md R133). -/
def firstByteZero (g : Segment) : Bool := g.byteAt 0 == 0

/-- MORE: a byte of `IBUF[0 .. ILEN)` is not yet emitted (R32, spec/42_segmenter.md R153). -/
def moreToEmit (soff ilen : Nat) : Bool := decide (soff < ilen)

/-- GAP: some position below COUNT has no segment (R33, spec/43_reorder_reassembler.md R176). -/
def somePositionAbsent (pres : List Nat) (count : Nat) : Bool :=
  (List.range count).any fun p => !presBit pres p

/-- DUP: the number is below NSLOT and PRES already has it (R34, R174). -/
def repeatedNumber (pres : List Nat) (nslot n : Nat) : Bool := decide (n < nslot) && presBit pres n

end Sys2Proof.Machine
end

