-- ==== Sys2Proof/Machine/Checksum.lean ====
section
/-! DEFINITION. The Checksum Engine (spec/40_checksum.md): the function of R110, CSUMI and CSUMS. -/

namespace Sys2Proof.Machine

/-- One addition with its fold: "if the accumulator exceeds 16 bits, fold … by adding exactly 1" (R110). -/
def foldAdd (acc w : Nat) : Nat :=
  if acc + w > 0xFFFF then (acc + w) % 0x10000 + 1 else acc + w

/-- The accumulator after the words of `p`, in order; an odd last byte is a high byte (R110). -/
def accumulate (acc : Nat) (p : List Byte) : Nat :=
  match p with
  | [] => acc
  | [b] => foldAdd acc (b.toNat * 256)
  | b0 :: b1 :: rest => accumulate (foldAdd acc (b0.toNat * 256 + b1.toNat)) rest

/-- `checksum(p)` (R110): the complement of the final accumulator, masked to 16 bits. -/
def checksum (p : List Byte) : Half := BitVec.ofNat 16 ((0xFFFF - accumulate 0 p) % 0x10000)

/-- `W(p)`, the words of `p`: every complete byte pair, and an odd last byte with an implicit zero low byte (R112). -/
def wordsOf (p : List Byte) : List Nat :=
  match p with
  | [] => []
  | [b] => [b.toNat * 256]
  | b0 :: b1 :: rest => (b0.toNat * 256 + b1.toNat) :: wordsOf rest

/-- CSUMI: `CKSUM <- checksum(IBUF[0 .. ILEN))` (R120). -/
def execCsumi (s : State) : Host.Outcome State Fault Refusal :=
  .next { s with cksum := checksum (s.ibufBytes 0 0 s.ilen) }.complete

/-- CSUMS: `CKSUM <- checksum(SEG.pay[0 .. SEG.plen))` (R121). -/
def execCsums (s : State) : Host.Outcome State Fault Refusal :=
  .next { s with cksum := checksum s.seg.payload }.complete

end Sys2Proof.Machine
end

