-- ==== Sys2Proof/Machine/Codec.lean ====
section
/-! DEFINITION. The Packet Codec (spec/41_codec.md): the wire record of R130, ENCODE, DECODE, PGET and PSET. -/

namespace Sys2Proof.Machine

/-- The 256 bytes of the wire record of a segment (R130, R131): number and checksum big-endian, the payload, zero fill
whatever the store holds beyond it. -/
def recordBytes (g : Segment) : List Byte :=
  [hiByte g.num, loByte g.num, hiByte g.csum, loByte g.csum] ++ g.payload ++
    List.replicate (252 - g.plen.val) 0

/-- The segment that a wire record decodes to, its bytes given by index (R132): always 252 payload bytes (R134). -/
def segmentOfRecord (byte : Nat → Byte) : Segment :=
  { num := be16 (byte 0) (byte 1)
    csum := be16 (byte 2) (byte 3)
    plen := 252
    pay := Vector.ofFn fun i => byte (4 + i.val) }

/-- ENCODE: working segment to wire buffer (R131). The checksum field is copied, not computed. -/
def execEncode (s : State) : Host.Outcome State Fault Refusal :=
  .next { s with wbuf := Memory.write s.wbuf 0 (recordBytes s.seg) }.complete

/-- DECODE: wire buffer to working segment, and the sentinel-candidate flag (R132, R133). -/
def execDecode (s : State) : Host.Outcome State Fault Refusal :=
  let g := segmentOfRecord (s.wbufByte 0)
  .next { s with seg := g, flags := { s.flags with z := firstByteZero g } }.complete

/-- PGET: read one payload byte, or E_INDEX (R135). -/
def execPget (a : Nat) (s : State) : Host.Outcome State Fault Refusal :=
  if a ≥ s.seg.plen.val then .next (s.raise .index)
  else .next { s with pdata := s.seg.byteAt a }.complete

/-- PSET: write one payload byte, or E_INDEX (R136). SEGCSUM and Z are not recomputed. -/
def execPset (a : Nat) (b : Byte) (s : State) : Host.Outcome State Fault Refusal :=
  if a ≥ s.seg.plen.val then .next (s.raise .index)
  else .next { s with seg := s.seg.setByte a b }.complete

end Sys2Proof.Machine
end

