-- ==== Sys2Proof/Machine/Detector.lean ====
section
/-! DEFINITION. The Error Detector (spec/45_detector.md): the function of R230 and DETECT. -/

namespace Sys2Proof.Machine

/-- A segment is flagged exactly when the checksum of its payload differs from its checksum field (R230). -/
def flagged (g : Segment) : Bool := checksum g.payload != g.csum

/-- The numbers of the flagged segments, in slot order (R230, D22). -/
def State.flaggedNumbers (s : State) : List Half :=
  (((List.range s.count).map (s.slot 0)).filter flagged).map Segment.num

/-- DETECT: list the flagged numbers (R231). A mismatch is data, not an error (spec/60_exceptions.md R276). -/
def execDetect (s : State) : Host.Outcome State Fault Refusal :=
  let found := s.flaggedNumbers
  .next { s with flg := Memory.write s.flg 0 found, nflag := found.length }.complete

end Sys2Proof.Machine
end

