-- ==== Sys2Proof/Machine/Injector.lean ====
section
/-! DEFINITION. The Corruption Injector (spec/44_injector.md): the draw source (R210 to R214), the function of R201,
CORRUPTS and CORRUPTR. -/

namespace Sys2Proof.Machine

/-- One step of the reference generator (R212): `{ s[0] ^ s[2] ^ s[3] ^ s[5], s[15:1] }`. -/
def lfsrStep (s : Half) : Half :=
  let bit := s.getLsbD 0 ^^ s.getLsbD 2 ^^ s.getLsbD 3 ^^ s.getLsbD 5
  BitVec.ofBool bit ++ s.extractLsb' 1 15

/-- `n` steps of the reference generator. -/
def lfsrSteps (n : Nat) (s : Half) : Half :=
  match n with
  | 0 => s
  | n + 1 => lfsrSteps n (lfsrStep s)

/-- An answer in `[lo, hi]`: the given one where it lies in the range, else its residue (assumption log 6). -/
def intoRange (lo hi v : Nat) : Nat :=
  if lo ≤ v ∧ v ≤ hi then v else lo + v % (hi - lo + 1)

/-- `draw(lo, hi)` (R210): an integer in `[lo, hi]` and the next state of the source. The reference source takes 16
steps and answers `lo + (LFSR mod (hi - lo + 1))` (R213); another source answers what it was given (R211). -/
def Rng.draw (r : Rng) (lo hi : Nat) : Nat × Rng :=
  match r with
  | .lfsr v =>
    let v' := lfsrSteps 16 v
    (lo + v'.toNat % (hi - lo + 1), .lfsr v')
  | .given [] k => (intoRange lo hi (Config.freeDraw k), .given [] (k + 1))
  | .given (x :: rest) k => (intoRange lo hi x, .given rest (k + 1))

/-- The magnitude class of the second draw (R204, D17). -/
def magnitude (d2 : Nat) : Nat := if d2 ≤ 50 then 1 else if d2 ≤ 80 then 2 else 3

/-- `n` selections: each draws a byte index below `plen` and inverts that byte (R201). -/
def invertDrawn (n : Nat) (g : Segment) (r : Rng) : Segment × Rng :=
  match n with
  | 0 => (g, r)
  | n + 1 =>
    let d := r.draw 0 (g.plen.val - 1)
    invertDrawn n (g.invertByte d.1) d.2

/-- What an injector call leaves: the segment, the draw source and the damage decision. -/
structure Injected where
  seg : Segment
  rng : Rng
  hit : Bool
  deriving DecidableEq, Repr

/-- `corrupt(T, g)` for a segment with a non-empty payload (R201, R202): two draws always, then `m + 1` index draws on a
hit. -/
def corrupt (t : Nat) (g : Segment) (r : Rng) : Injected :=
  let d1 := r.draw 1 100
  let d2 := d1.2.draw 1 100
  if d1.1 ≤ t then
    let out := invertDrawn (magnitude d2.1 + 1) g d2.2
    { seg := out.1, rng := out.2, hit := true }
  else { seg := g, rng := d2.2, hit := false }

/-- CORRUPTS: the injector on the working segment, or E_INDEX (R206). -/
def execCorrupts (s : State) : Host.Outcome State Fault Refusal :=
  if s.seg.plen.val = 0 then .next (s.raise .index)
  else
    let out := corrupt s.thresh.val s.seg s.rng
    .next { s with seg := out.seg, rng := out.rng, flags := { s.flags with hit := out.hit } }.complete

/-- CORRUPTR: the injector on slot `a`, or E_SLOT, or E_INDEX, in this order (R207, R275). -/
def execCorruptr (a : Nat) (s : State) : Host.Outcome State Fault Refusal :=
  if a ≥ s.count then .next (s.raise .slot)
  else if (s.slot 0 a).plen.val = 0 then .next (s.raise .index)
  else
    let out := corrupt s.thresh.val (s.slot 0 a) s.rng
    .next { s with
      rb := Memory.write s.rb a [out.seg]
      rng := out.rng
      flags := { s.flags with hit := out.hit } }.complete

end Sys2Proof.Machine
end

