-- ==== Sys2Proof/Machine/Reorder.lean ====
section
/-! DEFINITION. The reorder buffer, its sorter and the Reassembler (spec/43_reorder_reassembler.md): RBCLR, RBPUSH and
REASM, and the document's own function `reassemble` by linear search (R170). -/

namespace Sys2Proof.Machine

/-- RBCLR: empty the reorder buffer (R172). The slots, OBUF, OLEN, FLG and NFLAG stay. -/
def execRbclr (s : State) : Host.Outcome State Fault Refusal :=
  .next { s with
    count := 0
    pres := []
    flags := { s.flags with gap := false, dup := false } }.complete

/-- The working segment stored in slot COUNT and indexed by its number; a later arrival with a number below NSLOT sets
DUP and is never found (R174). -/
def State.pushSegment (s : State) : State :=
  let n := s.seg.num.toNat
  let first := decide (n < s.cfg.nslot) && !presBit s.pres n
  { s with
    rb := Memory.write s.rb s.count [s.seg]
    pres := if first then setPresBit s.pres n else s.pres
    ord := if first then Memory.write s.ord n [s.count] else s.ord
    count := s.count + 1
    flags := { s.flags with dup := s.flags.dup || repeatedNumber s.pres s.cfg.nslot n } }

/-- RBPUSH: append the working segment, or E_FULL (R174). -/
def execRbpush (s : State) : Host.Outcome State Fault Refusal :=
  if s.count = s.cfg.nslot then .next (s.raise .full)
  else .next s.pushSegment.complete

/-- The sum of the stored payload lengths, computed up front (R176). -/
def State.storedLength (s : State) : Nat :=
  ((List.range s.count).map fun i => (s.slot 0 i).plen.val).sum

/-- The payloads of the positions `0 .. COUNT-1` that PRES has, packed in position order (R176). -/
def State.packedPayloads (s : State) : List Byte :=
  (List.range s.count).flatMap fun p =>
    if presBit s.pres p then (s.slot 0 (s.ordEntry 0 p)).payload else []

/-- REASM: the packed payloads over an output cleared to zero (R176, D14); an absent position is skipped, which shifts
later data left and leaves a zero tail (R177). -/
def execReasm (s : State) : Host.Outcome State Fault Refusal :=
  let total := s.storedLength
  let packed := s.packedPayloads
  .next { s with
    obuf := Memory.write s.obuf 0 (packed ++ List.replicate (total - packed.length) 0)
    olen := total
    flags := { s.flags with gap := somePositionAbsent s.pres s.count } }.complete

/-- The segments of the occupied slots in arrival order (R51). -/
def State.collection (s : State) : List Segment := (List.range s.count).map (s.slot 0)

/-- The first segment with number `p`, found by linear search (R170, D15). -/
def searchNumber (c : List Segment) (p : Nat) : Option Segment :=
  c.find? fun g => g.num.toNat == p

/-- What position `p` contributes: the payload of the first segment with that number, nothing where there is none (R170). -/
def foundPayload (c : List Segment) (p : Nat) : List Byte :=
  match searchNumber c p with
  | some g => g.payload
  | none => []

/-- The found payloads of the positions `0 .. |C|-1`, packed in position order (R170). -/
def packedBySearch (c : List Segment) : List Byte := (List.range c.length).flatMap (foundPayload c)

/-- `reassemble(C)` by linear search (R170): the found payloads packed, then zero bytes up to the total length. -/
def reassemble (c : List Segment) : List Byte :=
  packedBySearch c ++ List.replicate ((c.map fun g => g.plen.val).sum - (packedBySearch c).length) 0

end Sys2Proof.Machine
end

