-- ==== Sys2Proof/Machine/Segmenter.lean ====
section
/-! DEFINITION. The Segmenter (spec/42_segmenter.md): the function of R150, SEGINIT and SEGNEXT. -/

namespace Sys2Proof.Machine

/-- `n = min(252, ILEN - SOFF)` (R153). -/
def chunkLength (s : State) : Nat := min 252 (s.ilen - s.soff)

/-- A segment with number `k` whose payload is the chunk `chunk`, cut at 252 bytes; the store beyond it is cleared
(R150, R153). -/
def segmentOfChunk (k : Nat) (csum : Half) (chunk : List Byte) : Segment :=
  { num := BitVec.ofNat 16 k
    csum := csum
    plen := ⟨min 252 chunk.length, by omega⟩
    pay := Vector.ofFn fun i => chunk.getD i.val 0 }

/-- SEGINIT: start segmenting, or E_EMPTY (R152). -/
def execSeginit (s : State) : Host.Outcome State Fault Refusal :=
  if s.ilen = 0 then .next (s.raise .empty)
  else .next { s with scnt := 0, soff := 0, flags := { s.flags with more := true } }.complete

/-- SEGNEXT: emit the next segment, or E_SEQ (R153). The checksum is taken in one reading of the chunk and the payload
in another, as R153 writes them: of a chunk the host has written the two are the same bytes (assumption log 4). -/
def execSegnext (s : State) : Host.Outcome State Fault Refusal :=
  if s.flags.more = false then .next (s.raise .seq)
  else
    let n := chunkLength s
    let csum := checksum (s.ibufBytes 0 s.soff n)
    .next { s with
      seg := segmentOfChunk s.scnt csum (s.ibufBytes 1 s.soff n)
      soff := s.soff + n
      scnt := s.scnt + 1
      flags := { s.flags with more := moreToEmit (s.soff + n) s.ilen } }.complete

/-- The chunks of a byte sequence: consecutive runs of 252 bytes, the last one the remainder (R150). `fuel` bounds the
number of chunks; a byte sequence has at most as many chunks as bytes. -/
def chunksOf (fuel : Nat) (b : List Byte) : List (List Byte) :=
  match fuel with
  | 0 => []
  | fuel + 1 => if b = [] then [] else b.take 252 :: chunksOf fuel (b.drop 252)

/-- Segments numbered from `k` on, each stamped with the checksum of its chunk (R150). -/
def stampFrom (k : Nat) (chunks : List (List Byte)) : List Segment :=
  match chunks with
  | [] => []
  | c :: rest => segmentOfChunk k (checksum c) c :: stampFrom (k + 1) rest

/-- `segment(B)` for a non-empty `B` (R150). For the empty sequence, where R150 has EmptyInputError, it is empty. -/
def segmentsOf (b : List Byte) : List Segment := stampFrom 0 (chunksOf b.length b)

end Sys2Proof.Machine
end

