-- ==== Sys2Proof/Machine/Dispatch.lean ====
section
/-! DEFINITION. One arm per operation of spec/30_encoding.md R94, each one call of its meaning. -/

namespace Sys2Proof.Machine

def exec (i : Instr) (s : State) : Host.Outcome State Fault Refusal :=
  match i with
  -- Checksum Engine
  | .csumi => Sys2Proof.Machine.execCsumi s
  | .csums => Sys2Proof.Machine.execCsums s
  -- Packet Codec
  | .encode => Sys2Proof.Machine.execEncode s
  | .decode => Sys2Proof.Machine.execDecode s
  | .pget a => Sys2Proof.Machine.execPget a s
  | .pset a b => Sys2Proof.Machine.execPset a b s
  -- Segmenter
  | .seginit => Sys2Proof.Machine.execSeginit s
  | .segnext => Sys2Proof.Machine.execSegnext s
  -- reorder buffer and Reassembler
  | .rbclr => Sys2Proof.Machine.execRbclr s
  | .rbpush => Sys2Proof.Machine.execRbpush s
  | .reasm => Sys2Proof.Machine.execReasm s
  -- Corruption Injector
  | .corrupts => Sys2Proof.Machine.execCorrupts s
  | .corruptr a => Sys2Proof.Machine.execCorruptr a s
  -- Error Detector
  | .detect => Sys2Proof.Machine.execDetect s

end Sys2Proof.Machine
end

