-- ==== Sys2Proof/Machine/Access.lean ====
section
/-! DEFINITION. The host's accesses (spec/20_memory.md R65 to R67; spec/10_state.md R21, R22, R25, R42, R45): HostRead,
HostWrite with the command register, and the reset event (spec/70_reset_and_hazards.md R300, R301). A refusal is a move
R67 gives no meaning (assumption log 8). -/

namespace Sys2Proof.Machine

/-- A register as the host reads it, zero-extended to 32 bits (R21, R65). -/
def State.regValue (s : State) (r : Reg) : Except Refusal Word :=
  match r with
  | .cmd => .error .readOfCmd
  | .status => .ok s.flags.value
  | .err => .ok (s.err.value.setWidth 32)
  | .ilen => .ok (BitVec.ofNat 32 s.ilen)
  | .cksum => .ok (s.cksum.setWidth 32)
  | .segnum => .ok (s.seg.num.setWidth 32)
  | .segcsum => .ok (s.seg.csum.setWidth 32)
  | .segplen => .ok (BitVec.ofNat 32 s.seg.plen.val)
  | .pdata => .ok (s.pdata.setWidth 32)
  | .count => .ok (BitVec.ofNat 32 s.count)
  | .olen => .ok (BitVec.ofNat 32 s.olen)
  | .nflag => .ok (BitVec.ofNat 32 s.nflag)
  | .thresh => .ok (BitVec.ofNat 32 s.thresh.val)
  | .lfsr =>
    match s.rng with
    | .lfsr v => .ok (v.setWidth 32)
    | .given _ _ => .error .lfsrNotVisible
  | .scnt => .ok (BitVec.ofNat 32 s.scnt)
  | .soff => .ok (BitVec.ofNat 32 s.soff)

/-- The number of elements of a space (R60). -/
def Params.sizeOf (p : Params) (space : Space) : Nat :=
  match space with
  | .reg => 16
  | .ibuf => p.ibufCap
  | .wbuf => Config.total
  | .obuf => p.obufCap
  | .flg => p.nslot
  | .pres => p.nslot
  | .segPay => Config.maxp
  | .rb => p.nslot
  | .ord => p.nslot

/-- The element a host read returns, once its index is known to lie in the space (R65). -/
def State.element (s : State) (space : Space) (index : Nat) : Except Refusal Word :=
  match space with
  | .reg =>
    match Reg.ofIndex index with
    | some r => s.regValue r
    | none => .error (.indexOutOfSpace .reg index)
  | .ibuf => .ok ((s.ibufByte 0 index).setWidth 32)
  | .wbuf => .ok ((s.wbufByte 0 index).setWidth 32)
  | .obuf => .ok ((s.obufByte 0 index).setWidth 32)
  | .flg => .ok ((s.flgEntry 0 index).setWidth 32)
  | .pres => .ok (BitVec.ofNat 32 (presBit s.pres index).toNat)
  | .segPay => .error (.internalSpace .segPay)
  | .rb => .error (.internalSpace .rb)
  | .ord => .error (.internalSpace .ord)

/-- `HostRead(space, index)` (R65): the value returned, or why the move has no meaning (R67). -/
def State.hostRead (s : State) (space : Space) (index : Nat) : Except Refusal Word :=
  if index < Params.sizeOf s.cfg space then s.element space index
  else
    match space with
    | .segPay => .error (.internalSpace .segPay)
    | .rb => .error (.internalSpace .rb)
    | .ord => .error (.internalSpace .ord)
    | sp => .error (.indexOutOfSpace sp index)

/-- A value handed to the host (assumption log 9). -/
def State.reply (s : State) (v : Word) : State :=
  { s with fresh := s.fresh + 1, host := { s.host with replies := v :: s.host.replies } }

/-- A write of the 32-bit value `v` to a register other than CMD: RW registers store a legal value and raise E_RANGE on
any other (R45); RO registers have no write (R67). -/
def State.writeReg (s : State) (r : Reg) (v : Word) : Host.Outcome State Fault Refusal :=
  match r with
  | .ilen =>
    if v.toNat ≤ s.cfg.ibufCap then
      .next { s with ilen := v.toNat, scnt := 0, soff := 0, flags := { s.flags with more := false } }
    else .next (s.raise .range)
  | .segnum =>
    if v.toNat ≤ 0xFFFF then .next { s with seg := { s.seg with num := v.setWidth 16 } }
    else .next (s.raise .range)
  | .segcsum =>
    if v.toNat ≤ 0xFFFF then .next { s with seg := { s.seg with csum := v.setWidth 16 } }
    else .next (s.raise .range)
  | .segplen =>
    if h : v.toNat < 253 then .next { s with seg := { s.seg with plen := ⟨v.toNat, h⟩ } }
    else .next (s.raise .range)
  | .thresh =>
    if h : v.toNat < 101 then .next { s with thresh := ⟨v.toNat, h⟩ }
    else .next (s.raise .range)
  | .lfsr =>
    match s.rng with
    | .lfsr _ =>
      if v.toNat ≤ 0xFFFF then
        .next { s with rng := .lfsr (if v = 0 then 0xACE1 else v.setWidth 16) }
      else .next (s.raise .range)
    | .given _ _ => .refused .lfsrNotVisible
  | ro => .refused (.readOnlyRegister ro.index)

/-- A write of `w` to CMD: the operation `w` encodes, or E_ILLEGAL (R22, R97; spec/60_exceptions.md R273). -/
def State.command (s : State) (w : Word) : Host.Outcome State Fault Refusal :=
  match decode w with
  | .ok i => exec i s
  | .error _ => .next (s.raise .illegal)

/-- `HostWrite(space, index, v)` (R66, R67). -/
def State.hostWrite (s : State) (space : Space) (index : Nat) (v : Word) :
    Host.Outcome State Fault Refusal :=
  match space with
  | .reg =>
    match Reg.ofIndex index with
    | some .cmd => s.command v
    | some r => s.writeReg r v
    | none => .refused (.indexOutOfSpace .reg index)
  | .ibuf =>
    if index < s.cfg.ibufCap then
      if v.toNat ≤ 0xFF then .next { s with ibuf := Memory.write s.ibuf index [v.setWidth 8] }
      else .refused (.valueTooWide .ibuf index)
    else .refused (.indexOutOfSpace .ibuf index)
  | .wbuf =>
    if index < Config.total then
      if v.toNat ≤ 0xFF then .next { s with wbuf := Memory.write s.wbuf index [v.setWidth 8] }
      else .refused (.valueTooWide .wbuf index)
    else .refused (.indexOutOfSpace .wbuf index)
  | .obuf => .refused (.readOnlySpace .obuf)
  | .flg => .refused (.readOnlySpace .flg)
  | .pres => .refused (.readOnlySpace .pres)
  | .segPay => .refused (.internalSpace .segPay)
  | .rb => .refused (.internalSpace .rb)
  | .ord => .refused (.internalSpace .ord)

/-- The draw source after the reset event: LFSR = 0xACE1 (R58). Another source is a parameter, which the event does not
replace (assumption log 10). -/
def Rng.afterReset (r : Rng) : Rng :=
  match r with
  | .lfsr _ => .lfsr 0xACE1
  | .given answers taken => .given answers taken

/-- The reset event (R300): every piece of the block's state at the value of R58. The parameters and the host stay, and
unwritten storage reads as new free values. -/
def State.resetEvent (s : State) : State :=
  { State.powerUp s.cfg with rng := s.rng.afterReset, fresh := s.fresh + 1, host := s.host }

/-- One move of the host, or the reset event. -/
def State.perform (s : State) (act : HostAction) : Host.Outcome State Fault Refusal :=
  match act with
  | .read space index =>
    match s.hostRead space index with
    | .ok v => .next (s.reply v)
    | .error r => .refused r
  | .write space index v => s.hostWrite space index v
  | .reset => .next s.resetEvent

end Sys2Proof.Machine
end

