-- ==== Sys2Proof/Machine/HostOps.lean ====
section
/-! DEFINITION. The host's fixed sequences (spec/30_encoding.md R100, R101): the register and buffer accesses that a
program's lines stand for, and the six pseudo-operations. -/

namespace Sys2Proof.Machine

/-- `WR <register>, <value>`. -/
def wr (r : Reg) (v : Word) : HostAction := .write .reg r.index v

/-- `RD <register>`. -/
def rd (r : Reg) : HostAction := .read .reg r.index

/-- The command line of an operation: its word written to CMD (R22, R90). -/
def cmd (i : Instr) : HostAction := wr .cmd (encode i)

/-- `WRB <space>[base + i], bytes[i]` for i from 0. -/
def wrbFrom (space : Space) (base : Nat) (bytes : List Byte) : List HostAction :=
  match bytes with
  | [] => []
  | b :: rest => .write space base (b.setWidth 32) :: wrbFrom space (base + 1) rest

/-- `RDB <space>[i]` for i = 0 .. n-1. -/
def rdbUpTo (space : Space) (n : Nat) : List HostAction :=
  (List.range n).map fun i => .read space i

/-- `LOADI s`: present a buffer (R101). -/
def loadi (bytes : List Byte) : List HostAction :=
  wrbFrom .ibuf 0 bytes ++ [wr .ilen (BitVec.ofNat 32 bytes.length)]

/-- `LOADW r`: present a received datagram (R101). -/
def loadw (r : Record) : List HostAction := wrbFrom .wbuf 0 r.toList

/-- `SENTINEL`: build the Sentinel Segment in SEG (R101, spec/46_protocol.md R245). -/
def sentinel : List HostAction := loadi [0x00] ++ [cmd .seginit, cmd .segnext]

/-- `SETPROB p`: `WR THRESH, floor(p * 100)` for `p = num / den` (R101, spec/10_state.md R41; assumption log 14). -/
def setprob (p : Nat × Nat) : List HostAction :=
  [wr .thresh (BitVec.ofNat 32 (p.1 * 100 / p.2))]

/-- `SEND`: encode, then read the record out (R101). -/
def send : List HostAction := cmd .encode :: rdbUpTo .wbuf 256

/-- `RECV`: a datagram into WBUF and through DECODE (R101). -/
def recv (r : Record) : List HostAction := loadw r ++ [cmd .decode]

end Sys2Proof.Machine
end

