-- ==== Sys2Proof/Machine/Roles.lean ====
section
/-! DEFINITION. The Transfer Protocol on the host (spec/46_protocol.md R240 to R252): the server's and the client's state
machines. A role moves when the host has no access left to make: it looks at what its last accesses returned and
issues the next ones. Assumption logs 3, 9, 12 to 16 and 19 to 21 say what the model fixes. -/

namespace Sys2Proof.Machine

/-- Issue a batch of accesses; the values its reads return start a new list. -/
def State.issue (s : State) (role : Role) (acts : List HostAction) : State :=
  { s with host := { pending := acts, replies := [], role := role } }

/-- `GET ` in ASCII (R243). -/
def getText : List Byte := [0x47, 0x45, 0x54, 0x20]

/-- ` HTTP/1.0` in ASCII (R243). -/
def versionText : List Byte := [0x20, 0x48, 0x54, 0x54, 0x50, 0x2F, 0x31, 0x2E, 0x30]

/-- `HTTP/1.0 200 Document Follows` in ASCII (R244). -/
def statusText : List Byte :=
  [0x48, 0x54, 0x54, 0x50, 0x2F, 0x31, 0x2E, 0x30, 0x20, 0x32, 0x30, 0x30, 0x20, 0x44, 0x6F, 0x63, 0x75, 0x6D,
   0x65, 0x6E, 0x74, 0x20, 0x46, 0x6F, 0x6C, 0x6C, 0x6F, 0x77, 0x73]

/-- The bytes are the text of a single ASCII line (R243): ASCII only, and no carriage return or line feed among them. -/
def isLine (bytes : List Byte) : Bool := bytes.all fun b => b < 0x80 && b != 0x0D && b != 0x0A

/-- The text of a request, `GET <name> HTTP/1.0` (R243). -/
def requestText (name : List Byte) : List Byte := getText ++ name ++ versionText

/-- The line terminator of a request, as bytes: a free value, for R243 does not give it (N17; assumption log 12). -/
def requestEnd : List Byte := Config.requestTerminator.map fun ch => ch.setWidth 8

/-- The request line (R243): its text and its terminator. DESIGN CHOICE: one datagram that holds this line and nothing
else, of any length (assumption log 19). -/
def requestLine (name : List Byte) : List Byte := requestText name ++ requestEnd

/-- The name in a request datagram (R243): a single ASCII line of the form `GET <name> HTTP/1.0`, whatever its terminator
is. DESIGN CHOICE: the datagram may have any length and holds the line alone (the spec gives neither: N17; assumption
log 19); the name is all that stands between the first 4 bytes and the last 9 before the terminator, be it empty or with
spaces in it (the spec does not say what `<name>` may hold; assumption log 20). -/
def parseRequest (line : List Byte) : Option (List Byte) :=
  let name := (line.drop 4).take (line.length - (13 + requestEnd.length))
  if isLine (requestText name) = true ∧ line = requestLine name then some name else none

/-- The status header block (R244): the status line, the content-type and the content-length field, and a blank line,
each ended by the line terminator. The spelling the spec does not fix is a free value (N17; assumption log 13). -/
def headerBlock (name resource : List Byte) : List Byte :=
  statusText ++ Config.lineEnd ++ (Config.contentTypeField name resource ++ Config.lineEnd) ++
    (Config.contentLengthField resource.length ++ Config.lineEnd) ++ Config.lineEnd

/-- The response body (R244): the header block, then the resource bytes. -/
def responseBody (name resource : List Byte) : List Byte := headerBlock name resource ++ resource

/-- The bytes a batch of reads returned, in the order it made them. -/
def repliedBytes (replies : List Word) : List Byte := replies.reverse.map fun w => w.setWidth 8

/-- The record a SEND read out of WBUF: the first 256 bytes of the batch. -/
def repliedRecord (replies : List Word) : Record :=
  Vector.ofFn fun i => (repliedBytes replies).getD i.val 0

/-- The `k`-th value of the batch. -/
def replied (replies : List Word) (k : Nat) : Word := replies.reverse.getD k 0

/-- A move that sends or receives: where the transport fails, the failure ends the session (R252; assumption log 21). -/
def viaTransport (failing : Bool) (move : Host.Outcome State Fault Refusal) : Host.Outcome State Fault Refusal :=
  if failing then .fault .transportFailed else move

/-- The server's next move (R241). -/
def serverTurn (s : State) (sv : Server) : Host.Outcome State Fault Refusal :=
  match sv.state with
  | .idle =>
    viaTransport sv.failing <|
      match sv.requests with
      | [] => .next s
      | line :: rest =>
        match parseRequest line with
        | some name =>
          .next (s.issue (.server { sv with state := .requestReceived name, requests := rest }) [])
        | none => .refused .malformedRequest
  | .requestReceived name =>
    match sv.store.lookup name with
    | some resource =>
      .next (s.issue (.server { sv with state := .streaming })
        (loadi (responseBody name resource) ++ [cmd .seginit, cmd .segnext] ++ send ++ [rd .status]))
    | none =>
      .next (s.issue (.server { sv with state := .sentinelSent }) (sentinel ++ send))
  | .streaming =>
    let sent := sv.sent ++ [repliedRecord s.host.replies]
    viaTransport sv.failing <|
      if (replied s.host.replies 256).getLsbD 1 then
        .next (s.issue (.server { sv with sent := sent }) (cmd .segnext :: send ++ [rd .status]))
      else
        .next (s.issue (.server { sv with state := .sentinelSent, sent := sent }) (sentinel ++ send))
  | .sentinelSent =>
    viaTransport sv.failing <|
      .next (s.issue
        (.server { sv with state := .idle, sent := sv.sent ++ [repliedRecord s.host.replies] }) [])

/-- The injector calls of Reassembling (R242): one CORRUPTR per occupied slot, only when a probability was given. -/
def injectorCalls (c : Client) (count : Nat) : List HostAction :=
  match c.probability with
  | none => []
  | some _ => (List.range count).map fun k => cmd (.corruptr k)

/-- The client's next move (R242). -/
def clientTurn (s : State) (c : Client) : Host.Outcome State Fault Refusal :=
  match c.state with
  | .idle =>
    let prob := match c.probability with
      | none => []
      | some p => setprob p
    .next (s.issue (.client { c with state := .starting }) (cmd .rbclr :: prob))
  | .starting =>
    if isLine (requestText c.name) then
      viaTransport c.failing <|
        .next (s.issue
          (.client { c with state := .requestSent, requested := c.requested ++ [requestLine c.name] }) [])
    else .refused .nameNotALine
  | .requestSent =>
    viaTransport c.failing <|
      match c.arrived with
      | [] => .next s
      | _ :: _ => .next (s.issue (.client { c with state := .receiving }) [])
  | .receiving =>
    viaTransport c.failing <|
      match c.arrived with
      | [] => .next s
      | r :: rest =>
        .next (s.issue (.client { c with state := .decoding, arrived := rest })
          (recv r ++ [rd .status, rd .count]))
  | .decoding =>
    let z := (replied s.host.replies 0).getLsbD 0
    let count := (replied s.host.replies 1).toNat
    if z = false then
      .next (s.issue (.client { c with state := .receiving }) [cmd .rbpush])
    else if count = 0 then
      .next (s.issue (.client { c with state := .done .notFound }) [])
    else
      .next (s.issue (.client { c with state := .detecting })
        (injectorCalls c count ++ [cmd .detect, rd .nflag]))
  | .detecting =>
    .next (s.issue (.client { c with state := .reassembling })
      (rdbUpTo .flg (replied s.host.replies 0).toNat ++ [cmd .reasm, rd .olen]))
  | .reassembling =>
    let values := s.host.replies.reverse
    .next (s.issue (.client { c with state := .handingOver values.dropLast })
      (rdbUpTo .obuf (values.getLastD 0).toNat))
  | .handingOver flaggedNumbers =>
    .next (s.issue
      (.client { c with state := .done (.delivered flaggedNumbers (repliedBytes s.host.replies)) }) [])
  | .done _ => .next s

/-- The host's move when it has no access left to make. A host driven from outside has none: the block is idle and its
state stays (spec/60_exceptions.md R279; assumption log 3). -/
def State.hostTurn (s : State) : Host.Outcome State Fault Refusal :=
  match s.host.role with
  | .external => .next s
  | .server sv => serverTurn s sv
  | .client c => clientTurn s c

/-- What `step` does: the host's oldest pending access (R81: one total order), or the host's own move. -/
def State.advance (s : State) : Host.Outcome State Fault Refusal :=
  match s.host.pending with
  | [] => s.hostTurn
  | act :: rest => State.perform { s with host := { s.host with pending := rest } } act

end Sys2Proof.Machine
end

