-- ==== Sys2Proof/Machine/Step.lean ====
section
/-! DEFINITION. One step of the machine: one host access, or the host's own move (spec/20_memory.md R80, R81). Nothing is
fetched (R84): a command word is the datum of a write to CMD. -/

namespace Sys2Proof.Machine

/-- One step (R80: the model has one step per operation). -/
def step (s : State) : Host.Outcome State Fault Refusal := s.advance

/-- The state in which the next access of the host writes the command word `w` to CMD, so that the next step runs that
operation (assumption log 2). Every command is 32 bits (spec/30_encoding.md R90), so `nbits` adds nothing. -/
def State.withFetchWord (s : State) (_nbits w : Nat) : State :=
  { s with host := { s.host with
      pending := .write .reg 0 (BitVec.ofNat 32 w) :: s.host.pending } }

end Sys2Proof.Machine
end

