-- ==== Sys2Proof/Machine/Transfer.lean ====
section
/-! DEFINITION. A whole transfer (spec/46_protocol.md R240): a server and a client, each with a block and a host of its
own, sharing nothing but what the transport carries between them (spec/20_memory.md R82, R85). The transport is a
relation: it may lose, reorder and duplicate datagrams (assumption log 15). -/

namespace Sys2Proof.Machine

/-- The two blocks of a transfer. Where their counters `fresh` are equal they read unwritten storage as equal free values:
the model's choice, on which no statement rests (DESIGN CHOICE; assumption log 22). -/
structure Transfer where
  server : State
  client : State
  deriving DecidableEq, Repr

/-- The records the server's host has given to the transport. -/
def State.sentRecords (s : State) : List Record :=
  match s.host.role with
  | .server sv => sv.sent
  | .external => []
  | .client _ => []

/-- The request lines the client's host has given to the transport. -/
def State.requestLines (s : State) : List (List Byte) :=
  match s.host.role with
  | .client c => c.requested
  | .external => []
  | .server _ => []

/-- A record reaches the client's host. -/
def State.arriveRecord (s : State) (r : Record) : State :=
  match s.host.role with
  | .client c => { s with host := { s.host with role := .client { c with arrived := c.arrived ++ [r] } } }
  | .external => s
  | .server _ => s

/-- A request reaches the server's host. -/
def State.arriveRequest (s : State) (line : List Byte) : State :=
  match s.host.role with
  | .server sv => { s with host := { s.host with role := .server { sv with requests := sv.requests ++ [line] } } }
  | .external => s
  | .client _ => s

/-- The transport fails at this host: its next send or receive does not succeed (R252). -/
def State.failTransport (s : State) : State :=
  match s.host.role with
  | .server sv => { s with host := { s.host with role := .server { sv with failing := true } } }
  | .client c => { s with host := { s.host with role := .client { c with failing := true } } }
  | .external => s

/-- One move of a whole transfer: a step of either side, or a delivery by the transport of any datagram that was given
to it, in any order, any number of times or never (R85), or a transport-level failure (R252). -/
inductive Transfer.Moves : Transfer → Transfer → Prop where
  | serverStep (t : Transfer) (s' : State) (h : step t.server = .next s') :
      Transfer.Moves t { t with server := s' }
  | clientStep (t : Transfer) (s' : State) (h : step t.client = .next s') :
      Transfer.Moves t { t with client := s' }
  | deliverRecord (t : Transfer) (r : Record) (h : r ∈ t.server.sentRecords) :
      Transfer.Moves t { t with client := t.client.arriveRecord r }
  | deliverRequest (t : Transfer) (line : List Byte) (h : line ∈ t.client.requestLines) :
      Transfer.Moves t { t with server := t.server.arriveRequest line }
  | failAtClient (t : Transfer) :
      Transfer.Moves t { t with client := t.client.failTransport }
  | failAtServer (t : Transfer) :
      Transfer.Moves t { t with server := t.server.failTransport }

end Sys2Proof.Machine
end

