-- ==== Sys2Proof/Safety.lean ====
section
/-! DEFINITION. What counts as a legal state and a legal host, in the terms claims use: the invariant every step keeps
(spec/10_state.md R21, R42, R44, R55; spec/00_scope.md R8), the host's duty to write what it has read
(spec/70_reset_and_hazards.md R304), and the free part of a state that no claim rests on. -/

namespace Sys2Proof.Machine

/-- Every memory is in its canonical form within the size of its space (spec/20_memory.md R60). -/
def State.memoriesWf (s : State) : Bool :=
  Memory.wf s.cfg.ibufCap s.ibuf && Memory.wf Config.total s.wbuf && Memory.wf s.cfg.obufCap s.obuf &&
    Memory.wf s.cfg.nslot s.rb && Memory.wf s.cfg.nslot s.flg && presWf s.cfg.nslot s.pres &&
    Memory.wf s.cfg.nslot s.ord

/-- The draw source is not the locked-up register: the reference generator is never in the zero state (R214). -/
def Rng.live (r : Rng) : Bool :=
  match r with
  | .lfsr v => v != 0
  | .given _ _ => true

/-- The number held by slot `i`, if the slot has been written (R51). -/
def State.slotNumber? (s : State) (i : Nat) : Option Nat :=
  (Memory.get? s.rb i).map fun g => g.num.toNat

/-- Slot `i` is the first arrival with number `n`: occupied, and no earlier slot has the number (R54). -/
def State.firstArrival (s : State) (n i : Nat) : Prop :=
  i < s.count ∧ s.slotNumber? i = some n ∧ ∀ j, j < i → s.slotNumber? j ≠ some n

/-- The invariant of the machine. The legal ranges are R21's; (a) to (c) are R55's, (d) of R55 holds by the type of
`Segment.plen`; `softOffset` is R44's. -/
structure State.Inv (s : State) : Prop where
  /-- The parameters meet R8. -/
  params : s.cfg.valid = true
  /-- Every memory is canonical and inside its space. -/
  memories : s.memoriesWf = true
  /-- `ILEN <= IBUF_CAP` (R25). -/
  inputLength : s.ilen ≤ s.cfg.ibufCap
  /-- `OLEN <= OBUF_CAP` (R39). -/
  outputLength : s.olen ≤ s.cfg.obufCap
  /-- `NFLAG <= NSLOT` (R40). -/
  flaggedCount : s.nflag ≤ s.cfg.nslot
  /-- `SCNT <= 65536` (R43). -/
  segmentCount : s.scnt ≤ 65536
  /-- `SOFF = min(SCNT * 252, ILEN)` (R44). -/
  softOffset : s.soff = min (s.scnt * 252) s.ilen
  /-- MORE = 1 means a byte is left to emit (R32, R153). -/
  moreLeft : s.flags.more = true → s.soff < s.ilen
  /-- An error code in ERR means that EVER is set (R36). -/
  errorRecorded : s.err ≠ .ok → s.flags.ever = true
  /-- The draw source is live (R214). -/
  source : s.rng.live = true
  /-- (a) `COUNT <= NSLOT`. -/
  slotCount : s.count ≤ s.cfg.nslot
  /-- Every occupied slot has been written (R51). -/
  slotsWritten : ∀ i, i < s.count → (Memory.get? s.rb i).isSome = true
  /-- (b) `PRES[n] = 1` iff an occupied slot has number `n`. -/
  presence : ∀ n, n < s.cfg.nslot →
    (presBit s.pres n = true ↔ ∃ i, i < s.count ∧ s.slotNumber? i = some n)
  /-- (c) `PRES[n] = 1` implies that `ORD[n]` is the first arrival with number `n`. -/
  order : ∀ n, n < s.cfg.nslot → presBit s.pres n = true →
    ∃ i, Memory.get? s.ord n = some i ∧ s.firstArrival n i

/-- The host has written `IBUF[base .. base + bytes.length)` and it holds `bytes` (R304 (a)). -/
def State.ibufHolds (s : State) (base : Nat) (bytes : List Byte) : Prop :=
  ∀ i, i < bytes.length → Memory.get? s.ibuf (base + i) = bytes[i]?

/-- The host has written all of WBUF and it holds the record `r` (R304 (b)). -/
def State.wbufHolds (s : State) (r : Record) : Prop :=
  ∀ i : Fin 256, Memory.get? s.wbuf i.val = some r[i]

/-- Register LFSR is host-visible: the draw source is the reference generator (R42). -/
def State.lfsrVisible (s : State) : Bool :=
  match s.rng with
  | .lfsr _ => true
  | .given _ _ => false

/-- Two states that differ at most in the counter of free values, which is no state of the block. -/
def State.sameBlock (s t : State) : Prop := { s with fresh := t.fresh } = t

/-- The value of each readable register at its index (spec/10_state.md R21, R23, R24): STATUS as the sum of its six bits,
and ERR as its code; LFSR (index 0xD) where it is visible. -/
def State.registerTable (s : State) : List (Nat × Nat) :=
  [ (0x1, s.flags.z.toNat + 2 * s.flags.more.toNat + 4 * s.flags.gap.toNat + 8 * s.flags.dup.toNat +
      16 * s.flags.hit.toNat + 32 * s.flags.ever.toNat),
    (0x2, match s.err with
      | .ok => 0 | .empty => 1 | .index => 2 | .illegal => 3
      | .full => 4 | .slot => 5 | .seq => 6 | .range => 7),
    (0x3, s.ilen), (0x4, s.cksum.toNat), (0x5, s.seg.num.toNat), (0x6, s.seg.csum.toNat),
    (0x7, s.seg.plen.val), (0x8, s.pdata.toNat), (0x9, s.count), (0xA, s.olen), (0xB, s.nflag),
    (0xC, s.thresh.val), (0xE, s.scnt), (0xF, s.soff) ] ++
  match s.rng with
  | .lfsr v => [(0xD, v.toNat)]
  | .given _ _ => []

/-- The illegal words as spec/30_encoding.md R97 lists them: an unknown top byte, a format-N word with a non-zero bit in
`w[23:0]`, a format-A word with a non-zero bit in `w[7:0]`. -/
def illegalWord (w : Word) : Bool :=
  let op := w.toNat / 2 ^ 24
  decide (op ∉ [0x10, 0x11, 0x20, 0x21, 0x22, 0x23, 0x30, 0x31, 0x40, 0x41, 0x42, 0x50, 0x51, 0x60]) ||
    (decide (op ∈ [0x10, 0x11, 0x20, 0x21, 0x30, 0x31, 0x40, 0x41, 0x42, 0x50, 0x60]) &&
      decide (w.toNat % 2 ^ 24 ≠ 0)) ||
    (decide (op ∈ [0x22, 0x51]) && decide (w.toNat % 2 ^ 8 ≠ 0))

/-- The operations a second issue of which leaves the same state (spec/20_memory.md R76). -/
def idempotent : Instr → Bool
  | .csumi => true
  | .csums => true
  | .encode => true
  | .decode => true
  | .pget _ => true
  | .pset _ _ => true
  | .seginit => true
  | .segnext => false
  | .rbclr => true
  | .rbpush => false
  | .reasm => true
  | .corrupts => false
  | .corruptr _ => false
  | .detect => true

/-- The bytes that selections at the indices `picks` leave: a byte picked an odd number of times is inverted, every other
byte is as it was, and nothing else of the segment changes (spec/44_injector.md R208). -/
def Segment.invertedAt (g : Segment) (picks : List Nat) (h : Segment) : Prop :=
  h.num = g.num ∧ h.csum = g.csum ∧ h.plen = g.plen ∧
    ∀ i : Fin 252, h.pay[i] = if picks.count i.val % 2 = 1 then ~~~ g.pay[i] else g.pay[i]

/-- The number of selections the second draw asks for: magnitude plus one (spec/44_injector.md R204). -/
def selections (d2 : Nat) : Nat := if d2 ≤ 50 then 2 else if d2 ≤ 80 then 3 else 4

/-- The indices that `n` selections of the reference generator pick in a payload of `plen` bytes, where the two draws of
the call start from the register value `v`: each takes 16 more steps (spec/44_injector.md R202, R213). -/
def referencePicks (v : Half) (plen n : Nat) : List Nat :=
  (List.range n).map fun i => (Nat.iterate lfsrStep (48 + 16 * i) v).toNat % plen

/-- The segment that comes out of the codec: encoded, then decoded (spec/41_codec.md R137). -/
def throughCodec (g : Segment) : Segment := segmentOfRecord fun i => (recordBytes g).getD i 0

/-- The host moves R67 does not exclude: the readable registers and spaces at an index inside them, and the writable ones
with a value that fits (a write to an RW register is inside the contract whatever its value: R45 checks it). -/
def State.inContract (s : State) (act : HostAction) : Bool :=
  match act with
  | .reset => true
  | .read .reg index => decide (1 ≤ index ∧ index ≤ 15) && (index != 0xD || s.lfsrVisible)
  | .read .ibuf index => decide (index < s.cfg.ibufCap)
  | .read .wbuf index => decide (index < 256)
  | .read .obuf index => decide (index < s.cfg.nslot * 252)
  | .read .flg index => decide (index < s.cfg.nslot)
  | .read .pres index => decide (index < s.cfg.nslot)
  | .read .segPay _ => false
  | .read .rb _ => false
  | .read .ord _ => false
  | .write .reg index _ =>
    decide (index ∈ [0x0, 0x3, 0x5, 0x6, 0x7, 0xC]) || (index == 0xD && s.lfsrVisible)
  | .write .ibuf index v => decide (index < s.cfg.ibufCap ∧ v.toNat ≤ 255)
  | .write .wbuf index v => decide (index < 256 ∧ v.toNat ≤ 255)
  | .write .obuf _ _ => false
  | .write .flg _ _ => false
  | .write .pres _ _ => false
  | .write .segPay _ _ => false
  | .write .rb _ _ => false
  | .write .ord _ _ => false

/-- A list of host moves performed in order, stopping where one is refused (spec/20_memory.md R81). -/
def performAll (acts : List HostAction) (s : State) : Host.Outcome State Fault Refusal :=
  match acts with
  | [] => .next s
  | act :: rest =>
    match s.perform act with
    | .next t => performAll rest t
    | .fault r => .fault r
    | .refused r => .refused r

/-- The working segments that `n` SEGNEXT operations leave in SEG, in order, stopping at the first that raises an error
(spec/42_segmenter.md R154). -/
def emitted (n : Nat) (s : State) : List Segment :=
  match n with
  | 0 => []
  | n + 1 =>
    match exec .segnext s with
    | .next t => if t.err = .ok then t.seg :: emitted n t else []
    | .fault _ => []
    | .refused _ => []

end Sys2Proof.Machine
end

