-- ==== Sys2Proof/Certificates/Slice0/Obligations.lean ====
section
/-! DEFINITION. The statements for the provers. A next state is compared by `State.sameBlock`, equality but for the model's
own counter of free values, so that no statement rests on that counter (assumption log 5); an equation with a record update
says at once what an operation writes and that it writes nothing else. -/

open Sys2Proof Sys2Proof.Machine

/-! ### Encoding (spec/30_encoding.md) -/

/-- Decoding the word of a well-formed operation gives the operation, at every operand (R90 to R96). -/
def Obligations.DecodeOfEncodeIsTheOperation : Prop :=
  ∀ i : Instr, i.wellFormed = true → decode (encode i) = .ok i

/-- A legal word is the word of exactly one operation: what it decodes to is well formed and encodes to it (R90 to
R98). -/
def Obligations.LegalWordEncodesBack : Prop :=
  ∀ (w : Word) (i : Instr), decode w = .ok i → i.wellFormed = true ∧ encode i = w

/-- A word decodes exactly when it matches a row of the opcode table, and then to the operation of that row; no two rows
share a word (R91 to R96, R98). -/
def Obligations.DecodeFollowsTheOpcodeTable : Prop :=
  ∀ w : Word,
    ((∃ i, decode w = .ok i) ↔ ∃ r ∈ encodingRows, r.matches w = true) ∧
    (∀ i, decode w = .ok i → ∀ r ∈ encodingRows, r.matches w = true → r.mnemonic = i.mnemonic) ∧
    (∀ r ∈ encodingRows, ∀ q ∈ encodingRows, r.matches w = true → q.matches w = true → r = q)

/-- The encoding examples of R102, which the spec marks as derived, written out. -/
def Obligations.ListedWordsDecodeAsListed : Prop :=
  decode 0x22000300 = .ok (.pget 3) ∧ encode (.pget 3) = 0x22000300 ∧
  opField 0x22000300 = 0x22 ∧ aField 0x22000300 = 3 ∧ bField 0x22000300 = 0 ∧
  decode 0x23000048 = .ok (.pset 0 0x48) ∧ encode (.pset 0 0x48) = 0x23000048 ∧
  decode 0x2300FBFF = .ok (.pset 251 0xFF) ∧ encode (.pset 251 0xFF) = 0x2300FBFF ∧
  decode 0x51000200 = .ok (.corruptr 2) ∧ encode (.corruptr 2) = 0x51000200 ∧
  decode 0x60000000 = .ok .detect ∧ encode .detect = 0x60000000 ∧
  decode 0x60000001 = .error (.nonzeroUnusedField 0x60) ∧
  decode 0x22000301 = .error (.nonzeroUnusedField 0x22) ∧
  decode 0x00000000 = .error (.unknownOpcode 0x00) ∧
  decode 0x12000000 = .error (.unknownOpcode 0x12)

/-- A write of an illegal word to CMD performs no operation: ERR and EVER change and nothing else (R97,
spec/60_exceptions.md R273); every other word is an operation, and the write performs it. -/
def Obligations.IllegalWordsAbortAndLegalWordsRun : Prop :=
  ∀ (s : State) (w : Word),
    (illegalWord w = true →
      s.perform (.write .reg 0 w) = .next { s with err := .illegal, flags := { s.flags with ever := true } }) ∧
    (illegalWord w = false → ∃ i, decode w = .ok i ∧ s.perform (.write .reg 0 w) = exec i s)

/-! ### A step -/

/-- A step runs the decoded operation: when the host's oldest pending access writes a legal word to CMD, the step is
that operation at the state with the access taken off; and so is the step after `withFetchWord` (R22,
spec/20_memory.md R80, R84; assumption log 2). -/
def Obligations.StepRunsTheDecodedOperation : Prop :=
  (∀ (s : State) (w : Word) (i : Instr) (rest : List HostAction),
    s.host.pending = .write .reg 0 w :: rest → decode w = .ok i →
      step s = exec i { s with host := { s.host with pending := rest } }) ∧
  (∀ (s : State) (w : Nat) (i : Instr), decodeTableWord 32 w = some i → step (s.withFetchWord 32 w) = exec i s)

/-- Nothing changes without a host access (spec/60_exceptions.md R279, spec/46_protocol.md R250): a host driven from
outside with nothing pending, a client in RequestSent or Receiving whose datagram does not come, a client that is done,
and a server in Idle without a request all leave the state. U11 of spec/93_implementation_defined.md treats the client
that waits for ever as stuck; that a waiting step is a next state, the one it left, is the model's deduction (assumption
log 3). -/
def Obligations.WaitingChangesNothing : Prop :=
  ∀ s : State, s.host.pending = [] →
    (s.host.role = .external → step s = .next s) ∧
    (∀ c, s.host.role = .client c → c.state = .requestSent ∨ c.state = .receiving → c.arrived = [] →
      c.failing = false → step s = .next s) ∧
    (∀ c r, s.host.role = .client c → c.state = .done r → step s = .next s) ∧
    (∀ sv, s.host.role = .server sv → sv.state = .idle → sv.requests = [] → sv.failing = false → step s = .next s)

/-! ### The Checksum Engine (spec/40_checksum.md) -/

/-- The accumulator before and after a fold (R111, which the spec marks as derived): at most 0x1FFFE before, at most
0xFFFF after, the fold is `acc + w - 65535`, and the result is the plain complement. -/
def Obligations.AccumulatorFitsSeventeenBits : Prop :=
  (∀ acc w : Nat, acc ≤ 0xFFFF → w ≤ 0xFFFF →
    acc + w ≤ 0x1FFFE ∧ foldAdd acc w ≤ 0xFFFF ∧ (acc + w > 0xFFFF → foldAdd acc w = acc + w - 65535)) ∧
  (∀ p : List Byte, accumulate 0 p ≤ 0xFFFF ∧ (checksum p).toNat = 0xFFFF - accumulate 0 p)

/-- The closed form (R112, which the spec marks as derived). -/
def Obligations.ChecksumClosedForm : Prop :=
  (∀ p : List Byte,
    (accumulate 0 p = if (∀ w ∈ wordsOf p, w = 0) then 0 else ((wordsOf p).sum - 1) % 65535 + 1) ∧
    (checksum p = 0xFFFF ↔ ∀ w ∈ wordsOf p, w = 0) ∧
    ((¬ ∀ w ∈ wordsOf p, w = 0) → (checksum p).toNat = 65534 - ((wordsOf p).sum - 1) % 65535)) ∧
  (∀ p q : List Byte, (wordsOf p).Perm (wordsOf q) → checksum p = checksum q)

/-- Zero padding does not change the checksum (R115, which the spec marks as derived; its bound on the length
is not needed). -/
def Obligations.ZeroPaddingKeepsTheChecksum : Prop :=
  ∀ (p : List Byte) (k : Nat), checksum (p ++ List.replicate k 0) = checksum p

/-- A change of exactly one byte changes the checksum, always (R116 (a)). -/
def Obligations.OneChangedByteChangesTheChecksum : Prop :=
  ∀ (p : List Byte) (k : Nat) (b : Byte), k < p.length → p[k]? ≠ some b → checksum (p.set k b) ≠ checksum p

/-- CSUMI (R120): for an input buffer the host has written, CKSUM is its checksum; it completes in every state and
writes CKSUM and ERR alone. The word, the empty buffer and the example are R120's. -/
def Obligations.CsumiWritesTheInputChecksum : Prop :=
  decode 0x10000000 = .ok .csumi ∧ checksum [] = 0xFFFF ∧
  checksum [0x48, 0x45, 0x4C, 0x4C, 0x4F, 0x20, 0x57, 0x4F, 0x52, 0x4C, 0x44] = 0x2EB2 ∧
  (∀ (s : State) (p : List Byte), s.ilen = p.length → s.ibufHolds 0 p →
    ∃ t, exec .csumi s = .next t ∧ State.sameBlock { s with cksum := checksum p, err := .ok } t) ∧
  (∀ s : State, ∃ t, exec .csumi s = .next t ∧ State.sameBlock { s with cksum := t.cksum, err := .ok } t)

/-- CSUMS (R121): CKSUM is the checksum of the payload bytes below SEGPLEN; SEGCSUM is not written. The last clause is
R121's example, the wire record of "HELLO WORLD". -/
def Obligations.CsumsWritesThePayloadChecksum : Prop :=
  decode 0x11000000 = .ok .csums ∧ checksum [] = 0xFFFF ∧
  (∀ s : State, ∃ t, exec .csums s = .next t ∧
    State.sameBlock { s with cksum := checksum (s.seg.pay.toList.take s.seg.plen.val), err := .ok } t) ∧
  (∀ (s : State) (r : Record), s.wbufHolds r →
    (∀ i : Fin 256, r[i] = ([0x00, 0x00, 0x2E, 0xB2, 0x48, 0x45, 0x4C, 0x4C, 0x4F, 0x20, 0x57, 0x4F, 0x52, 0x4C,
      0x44] : List Byte).getD i.val 0) →
    ∃ t u, exec .decode s = .next t ∧ exec .csums t = .next u ∧ u.cksum = 0x2EB2 ∧ u.seg.csum = 0x2EB2)

/-! ### The Packet Codec (spec/41_codec.md) -/

/-- ENCODE (R130, R131): the 256 bytes of WBUF, byte by byte, and nothing else but ERR. -/
def Obligations.EncodeWritesTheRecord : Prop :=
  decode 0x20000000 = .ok .encode ∧
  ∀ s : State, ∃ t, exec .encode s = .next t ∧ State.sameBlock { s with wbuf := t.wbuf, err := .ok } t ∧
    Memory.get? t.wbuf 0 = some (BitVec.ofNat 8 (s.seg.num.toNat / 256)) ∧
    Memory.get? t.wbuf 1 = some (BitVec.ofNat 8 (s.seg.num.toNat % 256)) ∧
    Memory.get? t.wbuf 2 = some (BitVec.ofNat 8 (s.seg.csum.toNat / 256)) ∧
    Memory.get? t.wbuf 3 = some (BitVec.ofNat 8 (s.seg.csum.toNat % 256)) ∧
    (∀ i : Fin 252, Memory.get? t.wbuf (4 + i.val) = some (if i.val < s.seg.plen.val then s.seg.pay[i] else 0)) ∧
    (∀ a, 256 ≤ a → Memory.get? t.wbuf a = Memory.get? s.wbuf a)

/-- DECODE (R132, R133): the fields, all 252 payload bytes and Z, for a wire buffer the host has written; in every state
it completes with SEGPLEN 252 and Z telling the first payload byte, and writes nothing else but ERR. -/
def Obligations.DecodeReadsTheRecord : Prop :=
  decode 0x21000000 = .ok .decode ∧
  (∀ (s : State) (r : Record), s.wbufHolds r →
    ∃ t, exec .decode s = .next t ∧
      State.sameBlock { s with seg := t.seg, flags := { s.flags with z := decide (r[4] = 0) }, err := .ok } t ∧
      t.seg.num.toNat = r[0].toNat * 256 + r[1].toNat ∧ t.seg.csum.toNat = r[2].toNat * 256 + r[3].toNat ∧
      t.seg.plen.val = 252 ∧ ∀ i : Fin 252, t.seg.pay[i] = r[4 + i.val]) ∧
  (∀ s : State, ∃ t, exec .decode s = .next t ∧
    State.sameBlock { s with seg := t.seg, flags := { s.flags with z := decide (t.seg.pay[0] = 0) }, err := .ok } t ∧
    t.seg.plen.val = 252)

/-- The round trips of the codec (R137 (a), (b), (c), which the spec marks as derived). -/
def Obligations.CodecRoundTrips : Prop :=
  (∀ s : State, ∃ t u, exec .encode s = .next t ∧ exec .decode t = .next u ∧
    u.seg.num = s.seg.num ∧ u.seg.csum = s.seg.csum ∧ u.seg.plen.val = 252 ∧
    u.seg.payload = s.seg.payload ++ List.replicate (252 - s.seg.plen.val) 0) ∧
  (∀ (s : State) (r : Record), s.wbufHolds r →
    ∃ t u, exec .decode s = .next t ∧ exec .encode t = .next u ∧ u.wbufHolds r) ∧
  (∀ g h : Segment, g.num = h.num → g.csum = h.csum →
    g.payload ++ List.replicate (252 - g.plen.val) 0 = h.payload ++ List.replicate (252 - h.plen.val) 0 →
    recordBytes g = recordBytes h) ∧
  (∃ g h : Segment, g ≠ h ∧ recordBytes g = recordBytes h) ∧
  (∀ (s u : State) (r q : Record), s.wbufHolds r → u.wbufHolds q →
    ∃ t v, exec .decode s = .next t ∧ exec .decode u = .next v ∧ (t.seg = v.seg → r = q))

/-- The checksum survives the codec (R138, which the spec marks as derived). -/
def Obligations.ChecksumSurvivesTheCodec : Prop :=
  ∀ s : State, s.seg.csum = checksum s.seg.payload →
    ∃ t u, exec .encode s = .next t ∧ exec .decode t = .next u ∧ u.seg.csum = checksum u.seg.pay.toList

/-- PGET (R135): below SEGPLEN the byte goes to PDATA; at or above it, whatever is stored there, E_INDEX and PDATA is
kept. The word is R135's at index 4. -/
def Obligations.PgetReadsInsideThePayload : Prop :=
  decode 0x22000400 = .ok (.pget 4) ∧
  ∀ (s : State) (a : Nat),
    (a < s.seg.plen.val → ∃ t, exec (.pget a) s = .next t ∧ s.seg.pay.toList[a]? = some t.pdata ∧
      State.sameBlock { s with pdata := t.pdata, err := .ok } t) ∧
    (s.seg.plen.val ≤ a →
      exec (.pget a) s = .next { s with err := .index, flags := { s.flags with ever := true } })

/-- PSET (R136): below SEGPLEN the one byte is written, SEGCSUM and Z are kept; at or above it, E_INDEX and no byte is
written. The word is R136's example. -/
def Obligations.PsetWritesInsideThePayload : Prop :=
  decode 0x230000B7 = .ok (.pset 0 0xB7) ∧
  ∀ (s : State) (a : Nat) (b : Byte),
    (a < s.seg.plen.val → ∃ t, exec (.pset a b) s = .next t ∧ t.seg.pay.toList = s.seg.pay.toList.set a b ∧
      State.sameBlock { s with seg := { s.seg with pay := t.seg.pay }, err := .ok } t) ∧
    (s.seg.plen.val ≤ a →
      exec (.pset a b) s = .next { s with err := .index, flags := { s.flags with ever := true } })

/-! ### The Segmenter (spec/42_segmenter.md) -/

/-- SEGINIT (R152). -/
def Obligations.SeginitRewindsOrReportsEmpty : Prop :=
  decode 0x30000000 = .ok .seginit ∧
  ∀ s : State,
    (s.ilen ≠ 0 → ∃ t, exec .seginit s = .next t ∧
      State.sameBlock { s with scnt := 0, soff := 0, flags := { s.flags with more := true }, err := .ok } t) ∧
    (s.ilen = 0 →
      exec .seginit s = .next { s with err := .empty, flags := { s.flags with ever := true } })

/-- SEGNEXT (R153): the next chunk of an input buffer the host has written, stamped, its store cleared beyond the
chunk, the cursor and MORE moved on; in every state with MORE = 1 it completes with the chunk's length; with MORE = 0
it reports E_SEQ. -/
def Obligations.SegnextEmitsTheNextChunk : Prop :=
  decode 0x31000000 = .ok .segnext ∧
  (∀ (s : State) (c : List Byte), s.flags.more = true → c.length = min 252 (s.ilen - s.soff) →
    s.ibufHolds s.soff c →
    ∃ t, exec .segnext s = .next t ∧
      State.sameBlock { s with
        seg := t.seg, soff := s.soff + c.length, scnt := s.scnt + 1,
        flags := { s.flags with more := decide (s.soff + c.length < s.ilen) }, err := .ok } t ∧
      t.seg.num = BitVec.ofNat 16 s.scnt ∧ t.seg.csum = checksum c ∧ t.seg.plen.val = c.length ∧
      t.seg.pay.toList = c ++ List.replicate (252 - c.length) 0) ∧
  (∀ s : State, s.flags.more = true →
    ∃ t, exec .segnext s = .next t ∧
      State.sameBlock { s with
        seg := t.seg, soff := s.soff + min 252 (s.ilen - s.soff), scnt := s.scnt + 1,
        flags := { s.flags with more := decide (s.soff + min 252 (s.ilen - s.soff) < s.ilen) }, err := .ok } t ∧
      t.seg.num = BitVec.ofNat 16 s.scnt ∧ t.seg.plen.val = min 252 (s.ilen - s.soff)) ∧
  (∀ s : State, s.flags.more = false →
    exec .segnext s = .next { s with err := .seq, flags := { s.flags with ever := true } })

/-- The segments of a non-empty buffer (R150, R151): how many there are, and number, checksum and payload of each. -/
def Obligations.SegmentsOfABuffer : Prop :=
  ∀ b : List Byte, b ≠ [] → b.length ≤ 65536 * 252 →
    (segmentsOf b).length = (b.length + 251) / 252 ∧ (segmentsOf b).length ≤ 65536 ∧
    (∀ k, 252 * k < b.length → ∃ g, (segmentsOf b)[k]? = some g ∧ g.num.toNat = k ∧
      g.payload = (b.drop (252 * k)).take 252 ∧ g.csum = checksum g.payload) ∧
    (∀ (k : Nat) (g : Segment), (segmentsOf b)[k]? = some g →
      g.plen.val = if k + 1 < (segmentsOf b).length then 252
        else if b.length % 252 = 0 then 252 else b.length % 252) ∧
    ((segmentsOf b).map fun g => g.plen.val).sum = b.length ∧
    ((segmentsOf b).map Segment.num).Nodup

/-- SEGINIT and then SEGNEXT until no segment is left leave in SEG exactly the segments of the buffer, in order (R154,
which the spec marks as derived). -/
def Obligations.SegmenterEmitsTheSegmentsOfTheBuffer : Prop :=
  ∀ (s : State) (b : List Byte) (k : Nat), b ≠ [] → s.ilen = b.length → s.ibufHolds 0 b →
    (b.length + 251) / 252 < k →
    ∃ t, exec .seginit s = .next t ∧ emitted k t = segmentsOf b

/-! ### The reorder buffer and the Reassembler (spec/43_reorder_reassembler.md) -/

/-- RBCLR (R172): COUNT 0, every bit of PRES 0, GAP and DUP 0; the slots, ORD, OBUF, OLEN, FLG and NFLAG stay. -/
def Obligations.RbclrEmptiesTheBuffer : Prop :=
  decode 0x40000000 = .ok .rbclr ∧
  ∀ s : State, ∃ t, exec .rbclr s = .next t ∧ (∀ n, presBit t.pres n = false) ∧
    State.sameBlock { s with
      count := 0, pres := t.pres, flags := { s.flags with gap := false, dup := false }, err := .ok } t

/-- RBPUSH (R174): the slot, the bitmap, the order map and DUP; E_FULL when the buffer holds NSLOT segments. -/
def Obligations.RbpushStoresAndIndexes : Prop :=
  decode 0x41000000 = .ok .rbpush ∧
  ∀ s : State,
    (s.count ≠ s.cfg.nslot → ∃ t, exec .rbpush s = .next t ∧
      State.sameBlock { s with
        rb := t.rb, pres := t.pres, ord := t.ord, count := s.count + 1,
        flags := { s.flags with
          dup := s.flags.dup || (decide (s.seg.num.toNat < s.cfg.nslot) && presBit s.pres s.seg.num.toNat) },
        err := .ok } t ∧
      Memory.get? t.rb s.count = some s.seg ∧
      (∀ i, i ≠ s.count → Memory.get? t.rb i = Memory.get? s.rb i) ∧
      (∀ n, presBit t.pres n = true ↔
        presBit s.pres n = true ∨ (n = s.seg.num.toNat ∧ n < s.cfg.nslot)) ∧
      (∀ n, Memory.get? t.ord n =
        if n = s.seg.num.toNat ∧ n < s.cfg.nslot ∧ presBit s.pres n = false then some s.count
        else Memory.get? s.ord n)) ∧
    (s.count = s.cfg.nslot →
      exec .rbpush s = .next { s with err := .full, flags := { s.flags with ever := true } })

/-- REASM (R176) in every state: OLEN is the sum of the stored lengths, OBUF holds the packed payloads and then zero
bytes up to OLEN, GAP says whether a position was absent, and no other byte of OBUF changes. The zero bytes rely on D14
of spec/92_eei_decisions.md, as U1 asks a claim to say (assumption log 11). -/
def Obligations.ReasmPacksThePayloads : Prop :=
  decode 0x42000000 = .ok .reasm ∧
  ∀ s : State, ∃ t, exec .reasm s = .next t ∧
    State.sameBlock { s with
      obuf := t.obuf, olen := s.storedLength, flags := { s.flags with gap := t.flags.gap }, err := .ok } t ∧
    (t.flags.gap = true ↔ ∃ p, p < s.count ∧ presBit s.pres p = false) ∧
    (∀ a, Memory.get? t.obuf a =
      if a < s.packedPayloads.length then s.packedPayloads[a]?
      else if a < s.storedLength then some 0 else Memory.get? s.obuf a)

/-- The bitmap and the order map change nothing observable (R178): under the invariants, REASM leaves in OBUF and OLEN
what `reassemble` gives by linear search with first match (R170), and GAP says whether a position has no segment. The
zero tail relies on D14 and the first match on D15 of spec/92_eei_decisions.md (U1, U2; assumption log 11). -/
def Obligations.ReasmIsLinearSearchReassembly : Prop :=
  ∀ s : State, s.Inv → ∃ t, exec .reasm s = .next t ∧
    t.olen = (reassemble s.collection).length ∧
    t.olen = (s.collection.map fun g => g.plen.val).sum ∧
    (∀ a, a < t.olen → Memory.get? t.obuf a = (reassemble s.collection)[a]?) ∧
    (∀ a, t.olen ≤ a → Memory.get? t.obuf a = Memory.get? s.obuf a) ∧
    (t.flags.gap = true ↔ ∃ p, p < s.count ∧ searchNumber s.collection p = none)

/-- All present, none repeated (R179): whatever the arrival order, the output is the payloads in number order. -/
def Obligations.ReasmOfAllNumbersIsInNumberOrder : Prop :=
  ∀ (s : State) (gs : List Segment), s.Inv → gs.Perm s.collection →
    (∀ (p : Nat) (g : Segment), gs[p]? = some g → g.num.toNat = p) →
    ∃ t, exec .reasm s = .next t ∧ t.flags.gap = false ∧ t.olen = (gs.flatMap Segment.payload).length ∧
      ∀ a, a < t.olen → Memory.get? t.obuf a = (gs.flatMap Segment.payload)[a]?

/-- A duplicate always produces GAP = 1 and an unfilled zero tail at least as long as its payload (R180). That the tail is
zero relies on D14, and that the later arrival is the one not copied on D15 of spec/92_eei_decisions.md (U1, U2;
assumption log 11). -/
def Obligations.DuplicateAlwaysLeavesAGap : Prop :=
  ∀ (s : State) (i j : Nat), s.Inv → i < j → j < s.count →
    (s.slot 0 i).num = (s.slot 0 j).num →
    ∃ t, exec .reasm s = .next t ∧ t.flags.gap = true ∧
      ∀ a, a < t.olen → t.olen ≤ a + (s.slot 0 j).plen.val → Memory.get? t.obuf a = some 0

/-- Reassembly of the segments of a buffer, in any arrival order (R181): without the codec the buffer itself, through
the codec the buffer and its padding, which trims to the buffer. -/
def Obligations.ReassemblyRoundTrip : Prop :=
  ∀ (b : List Byte) (c : List Segment), b ≠ [] → b.length ≤ 65536 * 252 →
    (c.Perm (segmentsOf b) → reassemble c = b) ∧
    (c.Perm ((segmentsOf b).map throughCodec) →
      reassemble c = b ++ List.replicate (252 * ((b.length + 251) / 252) - b.length) 0 ∧
      (reassemble c).take b.length = b)

/-! ### The Corruption Injector (spec/44_injector.md) -/

/-- CORRUPTS (R201, R206) with any draw source: an empty payload reports E_INDEX and takes no draw; otherwise it
completes, each payload byte is as it was or inverted, the stored bytes beyond the payload are kept, and nothing else
but the draw source, HIT and ERR is written. -/
def Obligations.CorruptsTouchesOnlyThePayload : Prop :=
  decode 0x50000000 = .ok .corrupts ∧
  ∀ s : State,
    (s.seg.plen.val ≠ 0 → ∃ t, exec .corrupts s = .next t ∧
      State.sameBlock { s with
        seg := { s.seg with pay := t.seg.pay }, rng := t.rng,
        flags := { s.flags with hit := t.flags.hit }, err := .ok } t ∧
      (∀ i : Fin 252, t.seg.pay[i] = s.seg.pay[i] ∨
        (i.val < s.seg.plen.val ∧ t.seg.pay[i] = ~~~ s.seg.pay[i])) ∧
      (t.flags.hit = false → t.seg = s.seg)) ∧
    (s.seg.plen.val = 0 →
      exec .corrupts s = .next { s with err := .index, flags := { s.flags with ever := true } })

/-- CORRUPTR (R201, R207) with any draw source: E_SLOT for a free slot, then E_INDEX for an empty payload; otherwise the
slot's payload bytes are as they were or inverted, its other fields and every other slot are kept, and nothing else but
the draw source, HIT and ERR is written. -/
def Obligations.CorruptrTouchesOnlyTheSlotPayload : Prop :=
  decode 0x51000200 = .ok (.corruptr 2) ∧
  ∀ (s : State) (a : Nat),
    (a < s.count → (s.slot 0 a).plen.val ≠ 0 → ∃ t g, exec (.corruptr a) s = .next t ∧
      State.sameBlock { s with
        rb := t.rb, rng := t.rng, flags := { s.flags with hit := t.flags.hit }, err := .ok } t ∧
      Memory.get? t.rb a = some g ∧ (∀ k, k ≠ a → Memory.get? t.rb k = Memory.get? s.rb k) ∧
      g.num = (s.slot 0 a).num ∧ g.csum = (s.slot 0 a).csum ∧ g.plen = (s.slot 0 a).plen ∧
      (∀ i : Fin 252, g.pay[i] = (s.slot 0 a).pay[i] ∨
        (i.val < (s.slot 0 a).plen.val ∧ g.pay[i] = ~~~ (s.slot 0 a).pay[i])) ∧
      (t.flags.hit = false → g = s.slot 0 a)) ∧
    (s.count ≤ a →
      exec (.corruptr a) s = .next { s with err := .slot, flags := { s.flags with ever := true } }) ∧
    (a < s.count → (s.slot 0 a).plen.val = 0 →
      exec (.corruptr a) s = .next { s with err := .index, flags := { s.flags with ever := true } })

/-- What the draws decide (R201 to R204, R208), for every sequence of in-range answers: `d1` the damage, `d2` the
number of selections, and on a hit every byte picked an odd number of times is inverted; without a hit two draws are
taken and the payload is as it was. Both operations. The second part says the same of the reference generator (R213): 16
steps for each draw, so LFSR advances by 32 steps without a hit, and by 16 more for each selection with one. -/
def Obligations.InjectorFollowsTheDraws : Prop :=
  (∀ (s : State) (d1 d2 : Nat) (picks rest : List Nat) (k : Nat),
    s.rng = .given (d1 :: d2 :: (picks ++ rest)) k → 1 ≤ d1 → d1 ≤ 100 → 1 ≤ d2 → d2 ≤ 100 →
    picks.length = selections d2 →
    (s.seg.plen.val ≠ 0 → (∀ i ∈ picks, i < s.seg.plen.val) →
      ∃ t, exec .corrupts s = .next t ∧
        (d1 ≤ s.thresh.val → t.flags.hit = true ∧ s.seg.invertedAt picks t.seg ∧
          t.rng = .given rest (k + 2 + selections d2)) ∧
        (s.thresh.val < d1 → t.flags.hit = false ∧ t.seg = s.seg ∧ t.rng = .given (picks ++ rest) (k + 2))) ∧
    (∀ a, a < s.count → (s.slot 0 a).plen.val ≠ 0 → (∀ i ∈ picks, i < (s.slot 0 a).plen.val) →
      ∃ t g, exec (.corruptr a) s = .next t ∧ Memory.get? t.rb a = some g ∧
        (d1 ≤ s.thresh.val → t.flags.hit = true ∧ (s.slot 0 a).invertedAt picks g ∧
          t.rng = .given rest (k + 2 + selections d2)) ∧
        (s.thresh.val < d1 → t.flags.hit = false ∧ g = s.slot 0 a ∧ t.rng = .given (picks ++ rest) (k + 2)))) ∧
  (∀ (s : State) (v : Half) (d1 d2 : Nat), s.rng = .lfsr v →
    d1 = 1 + (Nat.iterate lfsrStep 16 v).toNat % 100 → d2 = 1 + (Nat.iterate lfsrStep 32 v).toNat % 100 →
    (s.seg.plen.val ≠ 0 → ∃ t, exec .corrupts s = .next t ∧
      (d1 ≤ s.thresh.val → t.flags.hit = true ∧ t.rng = .lfsr (Nat.iterate lfsrStep (32 + 16 * selections d2) v) ∧
        s.seg.invertedAt (referencePicks v s.seg.plen.val (selections d2)) t.seg) ∧
      (s.thresh.val < d1 → t.flags.hit = false ∧ t.rng = .lfsr (Nat.iterate lfsrStep 32 v) ∧ t.seg = s.seg)) ∧
    (∀ a, a < s.count → (s.slot 0 a).plen.val ≠ 0 → ∃ t g, exec (.corruptr a) s = .next t ∧
      Memory.get? t.rb a = some g ∧
      (d1 ≤ s.thresh.val → t.flags.hit = true ∧ t.rng = .lfsr (Nat.iterate lfsrStep (32 + 16 * selections d2) v) ∧
        (s.slot 0 a).invertedAt (referencePicks v (s.slot 0 a).plen.val (selections d2)) g) ∧
      (s.thresh.val < d1 → t.flags.hit = false ∧ t.rng = .lfsr (Nat.iterate lfsrStep 32 v) ∧ g = s.slot 0 a)))

/-- The two ends of the threshold (R203), with any draw source and for both operations: 0 never hits and changes no byte
of the segment, 100 always hits. -/
def Obligations.ThresholdZeroNeverHitsHundredAlwaysHits : Prop :=
  ∀ s : State,
    (s.seg.plen.val ≠ 0 →
      (s.thresh.val = 0 → ∃ t, exec .corrupts s = .next t ∧ t.flags.hit = false ∧ t.seg = s.seg) ∧
      (s.thresh.val = 100 → ∃ t, exec .corrupts s = .next t ∧ t.flags.hit = true)) ∧
    (∀ a, a < s.count → (s.slot 0 a).plen.val ≠ 0 →
      (s.thresh.val = 0 → ∃ t, exec (.corruptr a) s = .next t ∧ t.flags.hit = false ∧
        Memory.get? t.rb a = some (s.slot 0 a) ∧ ∀ k, k ≠ a → Memory.get? t.rb k = Memory.get? s.rb k) ∧
      (s.thresh.val = 100 → ∃ t, exec (.corruptr a) s = .next t ∧ t.flags.hit = true))

/-- The reference generator (R212, R213): one step as arithmetic, and a draw as sixteen steps and a residue. -/
def Obligations.ReferenceDrawIsSixteenSteps : Prop :=
  (∀ v : Half, (lfsrStep v).toNat =
    v.toNat / 2 + 2 ^ 15 *
      ((v.toNat % 2 + v.toNat / 2 ^ 2 % 2 + v.toNat / 2 ^ 3 % 2 + v.toNat / 2 ^ 5 % 2) % 2)) ∧
  (∀ (v : Half) (lo hi : Nat), lo ≤ hi →
    (Rng.lfsr v).draw lo hi =
      (lo + ((Nat.iterate lfsrStep 16) v).toNat % (hi - lo + 1), .lfsr ((Nat.iterate lfsrStep 16) v)))

/-- The reference sequence of R216, which the spec marks as derived, and the CORRUPTS it gives on a 252-byte payload. -/
def Obligations.ReferenceSequence : Prop :=
  lfsrSteps 1 0xACE1 = 0x5670 ∧ lfsrSteps 2 0xACE1 = 0xAB38 ∧ lfsrSteps 3 0xACE1 = 0x559C ∧
  lfsrSteps 4 0xACE1 = 0x2ACE ∧ lfsrSteps 5 0xACE1 = 0x1567 ∧
  (Rng.lfsr 0xACE1).draw 1 100 = (11, .lfsr 0x4722) ∧ (Rng.lfsr 0x4722).draw 1 100 = (32, .lfsr 0xC437) ∧
  (Rng.lfsr 0xC437).draw 1 100 = (70, .lfsr 0xE39D) ∧ (Rng.lfsr 0xE39D).draw 1 100 = (38, .lfsr 0x8815) ∧
  (Rng.lfsr 0x8815).draw 1 100 = (67, .lfsr 0xEF52) ∧ (Rng.lfsr 0xEF52).draw 1 100 = (95, .lfsr 0x3E16) ∧
  ∀ s : State, s.rng = .lfsr 0xACE1 → s.thresh.val = 100 → s.seg.plen.val = 252 →
    ∃ t, exec .corrupts s = .next t ∧ t.rng = .lfsr 0x8815 ∧ t.flags.hit = true ∧
      s.seg.invertedAt [57, 61] t.seg

/-- The reference generator is never in the zero state (R214, which the spec marks as derived): zero is its fixed
point, reset and a host write of 0 store 0xACE1, and no step leads from a non-zero state to it. -/
def Obligations.ReferenceGeneratorNeverLocksUp : Prop :=
  lfsrStep 0 = 0 ∧ State.reset.rng = .lfsr 0xACE1 ∧
  (∀ (s : State) (v : Half), s.rng = .lfsr v →
    s.perform (.write .reg 0xD 0) = .next { s with rng := .lfsr 0xACE1 }) ∧
  (∀ (s t : State) (v : Half), s.rng = .lfsr v → v ≠ 0 → step s = .next t →
    ∃ v', v' ≠ 0 ∧ t.rng = .lfsr v')

/-! ### The Error Detector (spec/45_detector.md) -/

/-- DETECT (R230, R231): the numbers of the slots whose recomputed checksum differs, in slot order; entries beyond NFLAG
and everything else but ERR are kept, and a mismatch is no error (spec/60_exceptions.md R276). -/
def Obligations.DetectListsTheMismatches : Prop :=
  decode 0x60000000 = .ok .detect ∧
  ∀ s : State, ∃ t, exec .detect s = .next t ∧
    t.nflag = ((s.collection.filter fun g => checksum g.payload != g.csum).map Segment.num).length ∧
    State.sameBlock { s with flg := t.flg, nflag := t.nflag, err := .ok } t ∧
    (∀ a, a < t.nflag → Memory.get? t.flg a =
      ((s.collection.filter fun g => checksum g.payload != g.csum).map Segment.num)[a]?) ∧
    (∀ a, t.nflag ≤ a → Memory.get? t.flg a = Memory.get? s.flg a) ∧
    t.nflag ≤ s.count

/-- What detection guarantees (R232): a slot whose payload differs in exactly one byte from the one its checksum was
taken over is flagged, always; and when every slot's checksum field is the checksum of its payload none is. -/
def Obligations.DetectFlagsOneDamagedByte : Prop :=
  (∀ (s : State) (i k : Nat) (p : List Byte) (b : Byte), i < s.count → k < p.length → p[k]? ≠ some b →
    (s.slot 0 i).csum = checksum p → (s.slot 0 i).payload = p.set k b →
    ∃ t, exec .detect s = .next t ∧
      ∃ a, a < t.nflag ∧ Memory.get? t.flg a = some (s.slot 0 i).num) ∧
  (∀ s : State, (∀ i, i < s.count → (s.slot 0 i).csum = checksum (s.slot 0 i).payload) →
    ∃ t, exec .detect s = .next t ∧ t.nflag = 0)

/-! ### Errors (spec/60_exceptions.md) -/

/-- Every operation answers a next state; an error changes ERR and EVER and nothing else, not even the draw source,
and a completion leaves EVER as it was (R272; spec/70_reset_and_hazards.md R320). -/
def Obligations.ErrorChangesOnlyTheReport : Prop :=
  ∀ (i : Instr) (s : State), ∃ t, exec i s = .next t ∧
    (t.err ≠ .ok → t = { s with err := t.err, flags := { s.flags with ever := true } }) ∧
    (t.err = .ok → t.flags.ever = s.flags.ever)

/-- The error codes (R270, R275): each code of an operation, exactly when its condition holds; CORRUPTR's slot check
comes first. -/
def Obligations.ErrorCodesHaveTheirConditions : Prop :=
  ∀ (i : Instr) (s : State), ∃ t, exec i s = .next t ∧
    (t.err = .empty ↔ i = .seginit ∧ s.ilen = 0) ∧
    (t.err = .index ↔
      (∃ a, i = .pget a ∧ s.seg.plen.val ≤ a) ∨ (∃ a b, i = .pset a b ∧ s.seg.plen.val ≤ a) ∨
      (i = .corrupts ∧ s.seg.plen.val = 0) ∨
      (∃ a, i = .corruptr a ∧ a < s.count ∧ (s.slot 0 a).plen.val = 0)) ∧
    (t.err = .full ↔ i = .rbpush ∧ s.count = s.cfg.nslot) ∧
    (t.err = .slot ↔ ∃ a, i = .corruptr a ∧ s.count ≤ a) ∧
    (t.err = .seq ↔ i = .segnext ∧ s.flags.more = false) ∧
    t.err ≠ .illegal ∧ t.err ≠ .range

/-! ### Whole-machine rules (spec/10_state.md) -/

/-- Which operations write which register and flag (R21's column "written by operations", R30 to R35), and that no
operation writes ILEN, THRESH, IBUF, the parameters or the host. -/
def Obligations.OnlyTheNamedOperationsWriteEachRegister : Prop :=
  ∀ (i : Instr) (s : State), ∃ t, exec i s = .next t ∧
    t.cfg = s.cfg ∧ t.host = s.host ∧ t.ilen = s.ilen ∧ t.thresh = s.thresh ∧ t.ibuf = s.ibuf ∧
    (t.flags.z ≠ s.flags.z → i = .decode) ∧
    (t.flags.more ≠ s.flags.more → i = .seginit ∨ i = .segnext) ∧
    (t.flags.gap ≠ s.flags.gap → i = .reasm ∨ i = .rbclr) ∧
    (t.flags.dup ≠ s.flags.dup → i = .rbpush ∨ i = .rbclr) ∧
    (t.flags.hit ≠ s.flags.hit → i = .corrupts ∨ ∃ a, i = .corruptr a) ∧
    (t.cksum ≠ s.cksum → i = .csumi ∨ i = .csums) ∧
    (t.seg.num ≠ s.seg.num ∨ t.seg.csum ≠ s.seg.csum ∨ t.seg.plen ≠ s.seg.plen → i = .decode ∨ i = .segnext) ∧
    (t.seg.pay ≠ s.seg.pay → i = .decode ∨ i = .segnext ∨ i = .corrupts ∨ ∃ a b, i = .pset a b) ∧
    (t.pdata ≠ s.pdata → ∃ a, i = .pget a) ∧
    (t.count ≠ s.count → i = .rbclr ∨ i = .rbpush) ∧ (t.olen ≠ s.olen → i = .reasm) ∧
    (t.nflag ≠ s.nflag → i = .detect) ∧ (t.rng ≠ s.rng → i = .corrupts ∨ ∃ a, i = .corruptr a) ∧
    (t.scnt ≠ s.scnt ∨ t.soff ≠ s.soff → i = .seginit ∨ i = .segnext) ∧
    (t.wbuf ≠ s.wbuf → i = .encode) ∧ (t.obuf ≠ s.obuf → i = .reasm) ∧ (t.flg ≠ s.flg → i = .detect) ∧
    (t.rb ≠ s.rb → i = .rbpush ∨ ∃ a, i = .corruptr a) ∧ (t.pres ≠ s.pres → i = .rbclr ∨ i = .rbpush) ∧
    (t.ord ≠ s.ord → i = .rbpush)

/-- No operation reads a flag but MORE, and none reads ERR (R30; spec/60_exceptions.md R271, R274): from two states that
differ in those alone an operation answers two states that differ in flags alone, with the same code in ERR. So an
earlier error never changes what a later operation does. Both read unwritten storage as the same free values, because
the two states have the same counter (assumption log 22). -/
def Obligations.NoOperationReadsAFlagButMore : Prop :=
  ∀ (i : Instr) (s : State) (f : Flags) (e : ErrCode), f.more = s.flags.more →
    ∃ t u, exec i s = .next t ∧ exec i { s with flags := f, err := e } = .next u ∧
      u = { t with flags := u.flags } ∧ u.flags.more = t.flags.more

/-- Host writes to RW registers (R25, R42, R45): a value in the legal range is stored and ERR is left alone, any other
value keeps the register and reports E_RANGE. -/
def Obligations.RegisterWritesAreRangeChecked : Prop :=
  ∀ (s : State) (v : Word),
    s.perform (.write .reg 0x3 v) =
      (if v.toNat ≤ s.cfg.ibufCap then
        .next { s with ilen := v.toNat, scnt := 0, soff := 0, flags := { s.flags with more := false } }
      else .next { s with err := .range, flags := { s.flags with ever := true } }) ∧
    (v.toNat ≤ 65535 → ∃ t, s.perform (.write .reg 0x5 v) = .next t ∧ t.seg.num.toNat = v.toNat ∧
      t = { s with seg := { s.seg with num := t.seg.num } }) ∧
    (v.toNat ≤ 65535 → ∃ t, s.perform (.write .reg 0x6 v) = .next t ∧ t.seg.csum.toNat = v.toNat ∧
      t = { s with seg := { s.seg with csum := t.seg.csum } }) ∧
    (v.toNat ≤ 252 → ∃ t, s.perform (.write .reg 0x7 v) = .next t ∧ t.seg.plen.val = v.toNat ∧
      t = { s with seg := { s.seg with plen := t.seg.plen } }) ∧
    (v.toNat ≤ 100 → ∃ t, s.perform (.write .reg 0xC v) = .next t ∧ t.thresh.val = v.toNat ∧
      t = { s with thresh := t.thresh }) ∧
    (∀ old, s.rng = .lfsr old → v.toNat ≤ 65535 → ∃ t x, s.perform (.write .reg 0xD v) = .next t ∧
      t = { s with rng := .lfsr x } ∧ x.toNat = if v.toNat = 0 then 0xACE1 else v.toNat) ∧
    (∀ (index limit : Nat), (index, limit) ∈ [(0x5, 65535), (0x6, 65535), (0x7, 252), (0xC, 100), (0xD, 65535)] →
      limit < v.toNat → (index = 0xD → s.lfsrVisible = true) →
      s.perform (.write .reg index v) = .next { s with err := .range, flags := { s.flags with ever := true } })

/-- Host reads (spec/20_memory.md R65): the register's value zero-extended, the written byte or entry, the bit of
PRES, some value where nothing was written; and no side effect on the block. That the value read stands in the host's
`replies` is the model's choice (assumption log 9). -/
def Obligations.HostReadsReturnTheElement : Prop :=
  ∀ s : State,
    (∀ index v, (index, v) ∈ s.registerTable → ∃ t, s.perform (.read .reg index) = .next t ∧
      State.sameBlock { s with host := { s.host with replies := BitVec.ofNat 32 v :: s.host.replies } } t) ∧
    (∀ index, (index < s.cfg.ibufCap → ∃ t v, s.perform (.read .ibuf index) = .next t ∧
      State.sameBlock { s with host := { s.host with replies := v :: s.host.replies } } t ∧
      ∀ b, Memory.get? s.ibuf index = some b → v.toNat = b.toNat) ∧
     (index < 256 → ∃ t v, s.perform (.read .wbuf index) = .next t ∧
      State.sameBlock { s with host := { s.host with replies := v :: s.host.replies } } t ∧
      ∀ b, Memory.get? s.wbuf index = some b → v.toNat = b.toNat) ∧
     (index < s.cfg.nslot * 252 → ∃ t v, s.perform (.read .obuf index) = .next t ∧
      State.sameBlock { s with host := { s.host with replies := v :: s.host.replies } } t ∧
      ∀ b, Memory.get? s.obuf index = some b → v.toNat = b.toNat) ∧
     (index < s.cfg.nslot → ∃ t v, s.perform (.read .flg index) = .next t ∧
      State.sameBlock { s with host := { s.host with replies := v :: s.host.replies } } t ∧
      ∀ n, Memory.get? s.flg index = some n → v.toNat = n.toNat) ∧
     (index < s.cfg.nslot → ∃ t v, s.perform (.read .pres index) = .next t ∧
      State.sameBlock { s with host := { s.host with replies := v :: s.host.replies } } t ∧
      v.toNat = (presBit s.pres index).toNat))

/-- Host writes to the byte buffers (spec/20_memory.md R66): the byte at its index and nothing else. -/
def Obligations.BufferWritesStoreOneByte : Prop :=
  ∀ (s : State) (index : Nat) (b : Byte),
    (index < s.cfg.ibufCap → ∃ t, s.perform (.write .ibuf index (b.setWidth 32)) = .next t ∧
      t = { s with ibuf := t.ibuf } ∧ Memory.get? t.ibuf index = some b ∧
      ∀ a, a ≠ index → Memory.get? t.ibuf a = Memory.get? s.ibuf a) ∧
    (index < 256 → ∃ t, s.perform (.write .wbuf index (b.setWidth 32)) = .next t ∧
      t = { s with wbuf := t.wbuf } ∧ Memory.get? t.wbuf index = some b ∧
      ∀ a, a ≠ index → Memory.get? t.wbuf a = Memory.get? s.wbuf a)

/-- The accesses outside the contract are refused, and only they (spec/20_memory.md R67, R60; R42 for LFSR; assumption
logs 7 and 8). -/
def Obligations.ExactlyTheAccessesOutsideTheContractAreRefused : Prop :=
  ∀ (s : State) (act : HostAction),
    (s.inContract act = true → ∃ t, s.perform act = .next t) ∧
    (s.inContract act = false → ∃ r, s.perform act = .refused r)

/-- EVER (R36): under the invariant an error code in ERR means EVER is set, and only the reset event clears it. -/
def Obligations.EverIsStickyUntilReset : Prop :=
  ∀ s t : State, s.Inv → step s = .next t →
    (t.err ≠ .ok → t.flags.ever = true) ∧
    (s.flags.ever = true → (∀ rest, s.host.pending ≠ .reset :: rest) → t.flags.ever = true)

/-- The operations R76 of spec/20_memory.md calls idempotent, issued twice on storage the host has written, leave the
same state. -/
def Obligations.IdempotentOperationsRepeat : Prop :=
  ∀ (i : Instr) (s : State), idempotent i = true → s.Inv →
    (∀ a, a < s.ilen → (Memory.get? s.ibuf a).isSome = true) →
    (∀ a, a < 256 → (Memory.get? s.wbuf a).isSome = true) →
    ∃ t u, exec i s = .next t ∧ exec i t = .next u ∧ State.sameBlock t u

/-! ### Reset and the invariant (spec/10_state.md R55, R58; spec/70_reset_and_hazards.md R300) -/

/-- The values the table of R58 states, in `State.reset`; the memories it calls unspecified list nothing, the model's form
of a free value (assumption log 4), and the parameters have the defaults of R8 (assumption log 1). -/
def Obligations.ResetHasTheStatedValues : Prop :=
  State.reset.flags.value = 0 ∧ State.reset.err = .ok ∧ State.reset.ilen = 0 ∧ State.reset.cksum = 0 ∧
  State.reset.seg.num = 0 ∧ State.reset.seg.csum = 0 ∧ State.reset.seg.plen.val = 0 ∧
  (∀ i : Fin 252, State.reset.seg.pay[i] = 0) ∧ State.reset.pdata = 0 ∧ State.reset.count = 0 ∧
  State.reset.olen = 0 ∧ State.reset.nflag = 0 ∧ State.reset.thresh.val = 0 ∧ State.reset.rng = .lfsr 0xACE1 ∧
  State.reset.scnt = 0 ∧ State.reset.soff = 0 ∧ (∀ n, presBit State.reset.pres n = false) ∧
  State.reset.cfg = { nslot := 256, ibufCap := 64512 } ∧
  (∀ a, Memory.get? State.reset.ibuf a = none ∧ Memory.get? State.reset.wbuf a = none ∧
    Memory.get? State.reset.obuf a = none ∧ Memory.get? State.reset.flg a = none ∧
    Memory.get? State.reset.rb a = none ∧ Memory.get? State.reset.ord a = none)

/-- The reset event (R300), from every state; register LFSR exists where the draw source is the reference generator
(R42). -/
def Obligations.ResetEventRestoresTheTable : Prop :=
  ∀ s : State, ∃ t, s.perform .reset = .next t ∧
    t.flags.value = 0 ∧ t.err = .ok ∧ t.ilen = 0 ∧ t.cksum = 0 ∧ t.seg.num = 0 ∧ t.seg.csum = 0 ∧
    t.seg.plen.val = 0 ∧ (∀ i : Fin 252, t.seg.pay[i] = 0) ∧ t.pdata = 0 ∧ t.count = 0 ∧ t.olen = 0 ∧
    t.nflag = 0 ∧ t.thresh.val = 0 ∧ (∀ v, s.rng = .lfsr v → t.rng = .lfsr 0xACE1) ∧ t.scnt = 0 ∧ t.soff = 0 ∧
    (∀ n, presBit t.pres n = false)

/-- The invariant holds after reset (R55, R58). -/
def Obligations.InvariantHoldsAtReset : Prop := State.reset.Inv

/-- Every step keeps the invariant, from every state that meets it: the memories stay canonical and inside their spaces,
every register stays in its legal range, and the receiver's invariants of R55 hold. -/
def Obligations.InvariantKeptByEveryStep : Prop :=
  ∀ s t : State, s.Inv → step s = .next t → t.Inv

/-! ### The Transfer Protocol (spec/46_protocol.md) -/

/-- The Sentinel Segment (R245, which the spec marks as derived): what SENTINEL builds in SEG, and its wire record. -/
def Obligations.SentinelSequenceBuildsTheSentinel : Prop :=
  ∀ s : State, s.Inv → ∃ t u, performAll sentinel s = .next t ∧
    t.seg.num = 0 ∧ t.seg.plen.val = 1 ∧ t.seg.payload = [0x00] ∧ t.seg.csum = 0xFFFF ∧ t.err = .ok ∧
    t.perform (cmd .encode) = .next u ∧
    ∀ i : Fin 256, Memory.get? u.wbuf i.val = some (if i.val = 2 ∨ i.val = 3 then 0xFF else 0)

/-- How the client treats a received record (R242, R246): the first payload byte alone decides. A non-zero one is
pushed; a zero one ends receiving without a push, with "resource not found" when no data segment came before it. Which
registers the host reads, and in which order, is the model's choice (assumption log 16). -/
def Obligations.ClientDecidesByTheFirstPayloadByte : Prop :=
  ∀ (s : State) (c : Client) (r : Record), s.Inv → s.host.pending = [] → s.host.replies = [] →
    s.host.role = .client c → c.state = .decoding →
    ∃ t u, performAll (recv r ++ [rd .status, rd .count]) s = .next t ∧ step t = .next u ∧
      t.count = s.count ∧ u.count = s.count ∧
      (r[4] ≠ 0 → u.host.pending = [cmd .rbpush] ∧ u.host.role = .client { c with state := .receiving }) ∧
      (r[4] = 0 → s.count = 0 →
        u.host.pending = [] ∧ u.host.role = .client { c with state := .done .notFound }) ∧
      (r[4] = 0 → s.count ≠ 0 → u.host.role = .client { c with state := .detecting } ∧
        u.host.pending = injectorCalls c s.count ++ [cmd .detect, rd .nflag])

/-- How the server takes and answers a request (R241, R243, R244, R251): an ASCII line of the form of R243 is parsed into
its name, any other datagram is refused; a found resource is framed, presented, segmented and sent; a resource that is
not found is answered by the sentinel alone. The model's choices: the datagram, its terminator (a free value) and the name
(assumption logs 12, 19, 20), the spelling of the header as free values (log 13), and the batch with the first SEGNEXT and
SEND and the read of STATUS at its end (log 16). -/
def Obligations.ServerAnswersARequest : Prop :=
  ∀ (s : State) (sv : Server), s.host.pending = [] → s.host.role = .server sv →
    (∀ line rest, sv.state = .idle → sv.failing = false → sv.requests = line :: rest →
      (∀ name, line = requestLine name → isLine (requestText name) = true → ∃ t, step s = .next t ∧
        t = { s with host := t.host } ∧
        t.host.role = .server { sv with state := .requestReceived name, requests := rest } ∧ t.host.pending = []) ∧
      ((∀ name, line = requestLine name → isLine (requestText name) = false) → step s = .refused .malformedRequest)) ∧
    (∀ name, sv.state = .requestReceived name → ∃ t, step s = .next t ∧ t = { s with host := t.host } ∧
      (sv.store.lookup name = none →
        t.host.role = .server { sv with state := .sentinelSent } ∧ t.host.pending = sentinel ++ send) ∧
      (∀ resource, sv.store.lookup name = some resource →
        t.host.role = .server { sv with state := .streaming } ∧
        t.host.pending =
          loadi (headerBlock name resource ++ resource) ++ [cmd .seginit, cmd .segnext] ++ send ++ [rd .status]))

/-- How the server streams (R241) while the transport does not fail: the record read out after a SEGNEXT is sent, and
the bit MORE of STATUS decides between the next segment and the sentinel. That SEGNEXT, SEND and the read of STATUS are
one batch is the model's choice (assumption log 16). -/
def Obligations.ServerStreamsUntilNothingIsLeft : Prop :=
  ∀ (s : State) (sv : Server) (r : Record) (status : Word), s.host.pending = [] → s.host.role = .server sv →
    sv.state = .streaming → sv.failing = false → s.host.replies = status :: (r.toList.map fun b => b.setWidth 32).reverse →
    ∃ t, step s = .next t ∧ t = { s with host := t.host } ∧ t.host.replies = [] ∧
      (status.getLsbD 1 = true → t.host.role = .server { sv with sent := sv.sent ++ [r] } ∧
        t.host.pending = cmd .segnext :: send ++ [rd .status]) ∧
      (status.getLsbD 1 = false →
        t.host.role = .server { sv with state := .sentinelSent, sent := sv.sent ++ [r] } ∧
        t.host.pending = sentinel ++ send)

/-- How the client starts and ends (R242): RBCLR, and when it has run the request line; then, after DETECT, the flagged
numbers are read, REASM is issued, and the OLEN bytes of OBUF are read and delivered. The sub-states and the accesses it
makes to see the results are the model's choice (assumption log 16), and so is the moment of SETPROB (log 14). That the
request is the one datagram `requestLine c.name`, the line and its terminator (a free value) and nothing else, of any
length and for a name of any ASCII bytes that keep it one line, is the model's choice too (logs 12, 19, 20). -/
def Obligations.ClientStartsAndDelivers : Prop :=
  ∀ (s : State) (c : Client), s.host.pending = [] → s.host.role = .client c →
    (c.state = .idle → ∃ t, step s = .next t ∧ t = { s with host := t.host } ∧
      t.host.role = .client { c with state := .starting } ∧
      (c.probability = none → t.host.pending = [cmd .rbclr]) ∧
      (∀ p, c.probability = some p → t.host.pending = cmd .rbclr :: setprob p)) ∧
    (c.state = .starting → c.failing = false → isLine (requestText c.name) = true →
      ∃ t, step s = .next t ∧ t = { s with host := t.host } ∧ t.host.pending = [] ∧
        t.host.role = .client { c with state := .requestSent, requested := c.requested ++ [requestLine c.name] }) ∧
    (∀ n, c.state = .detecting → s.host.replies = [n] → ∃ t, step s = .next t ∧ t = { s with host := t.host } ∧
      t.host.role = .client { c with state := .reassembling } ∧
      t.host.pending = rdbUpTo .flg n.toNat ++ [cmd .reasm, rd .olen]) ∧
    (∀ n numbers, c.state = .reassembling → s.host.replies = n :: numbers.reverse →
      ∃ t, step s = .next t ∧ t = { s with host := t.host } ∧
        t.host.role = .client { c with state := .handingOver numbers } ∧ t.host.pending = rdbUpTo .obuf n.toNat) ∧
    (∀ numbers (body : List Byte), c.state = .handingOver numbers →
      s.host.replies = (body.map fun b => b.setWidth 32).reverse →
      ∃ t, step s = .next t ∧ t = { s with host := t.host } ∧ t.host.pending = [] ∧
        t.host.role = .client { c with state := .done (.delivered numbers body) })

/-- The transport creates nothing (spec/20_memory.md R82, R85): however records are lost, reordered or repeated, every
record that waits at the client was given to the transport by the server. Which moves a transport has is the model's
choice (assumption log 15). -/
def Obligations.RecordsAtTheClientCameFromTheServer : Prop :=
  ∀ t t' : Transfer, Transfer.Moves t t' →
    (∀ (c : Client) (r : Record), t.client.host.role = .client c → r ∈ c.arrived → r ∈ t.server.sentRecords) →
    ∀ (c : Client) (r : Record), t'.client.host.role = .client c → r ∈ c.arrived → r ∈ t'.server.sentRecords

/-- A transport failure ends the session (R252): a server that waits for a request or gives a record to the transport,
and a client that gives its request line to the transport or waits for a record, stop when the transport fails. That a
flag of the host says so, and the name of the stop, are the model's choice (assumption log 21), and so is which names make a
request line (logs 12, 19, 20). -/
def Obligations.TransportFailureEndsTheSession : Prop :=
  ∀ s : State, s.host.pending = [] →
    (∀ sv, s.host.role = .server sv → sv.failing = true →
      sv.state = .idle ∨ sv.state = .streaming ∨ sv.state = .sentinelSent → step s = .fault .transportFailed) ∧
    (∀ c, s.host.role = .client c → c.failing = true →
      (c.state = .starting ∧ isLine (requestText c.name) = true) ∨ c.state = .requestSent ∨ c.state = .receiving →
      step s = .fault .transportFailed)
end

