-- ==== Sys2Proof/Laws/Bytes.lean ====
section
/-! SUPPORT. The laws of byte order, of a segment's payload and of the wire record (spec/20_memory.md R70,
spec/10_state.md R46, spec/41_codec.md R130 to R132). -/

namespace Sys2Proof.Machine

/-! ### Byte order -/

theorem be16_toNat (b0 b1 : Byte) : (be16 b0 b1).toNat = b0.toNat * 256 + b1.toNat := by
  have h0 := b0.isLt
  have h1 := b1.isLt
  simp only [be16, BitVec.toNat_ofNat]
  omega

theorem hiByte_toNat (v : Half) : (hiByte v).toNat = v.toNat / 256 := by
  have := v.isLt
  simp only [hiByte, BitVec.extractLsb'_toNat, Nat.shiftRight_eq_div_pow]
  omega

theorem loByte_toNat (v : Half) : (loByte v).toNat = v.toNat % 256 := by
  simp [loByte, BitVec.extractLsb'_toNat]

@[simp] theorem be16_hiByte_loByte (v : Half) : be16 (hiByte v) (loByte v) = v := by
  apply BitVec.eq_of_toNat_eq
  rw [be16_toNat, hiByte_toNat, loByte_toNat]
  omega

@[simp] theorem hiByte_be16 (b0 b1 : Byte) : hiByte (be16 b0 b1) = b0 := by
  have h1 := b1.isLt
  apply BitVec.eq_of_toNat_eq
  rw [hiByte_toNat, be16_toNat]
  omega

@[simp] theorem loByte_be16 (b0 b1 : Byte) : loByte (be16 b0 b1) = b1 := by
  have h1 := b1.isLt
  apply BitVec.eq_of_toNat_eq
  rw [loByte_toNat, be16_toNat]
  omega

/-! ### The payload -/

@[simp] theorem payload_length (g : Segment) : g.payload.length = g.plen.val := by
  have := g.plen.isLt
  simp [Segment.payload]
  omega

/-- The payload's byte `i` is the stored byte `i`, below the logical length. -/
theorem payload_getElem? (g : Segment) (i : Nat) :
    g.payload[i]? = if i < g.plen.val then some (g.byteAt i) else none := by
  have := g.plen.isLt
  by_cases h : i < g.plen.val
  · have hi : i < 252 := by omega
    simp [Segment.payload, h, Segment.byteAt, hi]
  · simp [Segment.payload, h]

@[simp] theorem setByte_num (g : Segment) (i : Nat) (b : Byte) : (g.setByte i b).num = g.num := by
  unfold Segment.setByte; split <;> rfl

@[simp] theorem setByte_csum (g : Segment) (i : Nat) (b : Byte) : (g.setByte i b).csum = g.csum := by
  unfold Segment.setByte; split <;> rfl

@[simp] theorem setByte_plen (g : Segment) (i : Nat) (b : Byte) : (g.setByte i b).plen = g.plen := by
  unfold Segment.setByte; split <;> rfl

/-- A stored byte after one byte is set. -/
theorem byteAt_setByte (g : Segment) (i : Nat) (b : Byte) (k : Nat) (hi : i < 252) :
    (g.setByte i b).byteAt k = if k = i then b else g.byteAt k := by
  unfold Segment.setByte Segment.byteAt
  simp only [hi, dite_true]
  by_cases hk : k < 252
  · simp only [hk, dite_true, Vector.getElem_set]
    by_cases h : i = k
    · simp [h]
    · simp [h, Ne.symm h]
  · simp [hk, show k ≠ i by omega]

/-- Two segments with the same fields and the same stored bytes are the same. -/
theorem Segment.ext_bytes (g k : Segment) (hn : g.num = k.num) (hc : g.csum = k.csum) (hl : g.plen = k.plen)
    (hb : ∀ i, i < 252 → g.byteAt i = k.byteAt i) : g = k := by
  obtain ⟨n1, c1, l1, p1⟩ := g
  obtain ⟨n2, c2, l2, p2⟩ := k
  have : p1 = p2 := by
    apply Vector.ext
    intro i hi
    simpa [Segment.byteAt, hi] using hb i hi
  simp_all

/-! ### The wire record -/

@[simp] theorem recordBytes_length (g : Segment) : (recordBytes g).length = 256 := by
  have := g.plen.isLt
  simp [recordBytes]
  omega

/-- Byte `4 + i` of the record: a payload byte, or zero fill (spec/41_codec.md R130). -/
theorem recordBytes_payload (g : Segment) (i : Nat) (hi : i < 252) :
    (recordBytes g)[4 + i]? = some (if i < g.plen.val then g.byteAt i else 0) := by
  have := g.plen.isLt
  have e : 4 + i = i + 1 + 1 + 1 + 1 := by omega
  simp only [recordBytes, List.cons_append, List.nil_append, e, List.getElem?_cons_succ]
  rw [List.getElem?_append]
  by_cases h : i < g.plen.val
  · rw [if_pos (by simpa using h), payload_getElem?, if_pos h, if_pos h]
  · rw [if_neg (by simpa using h), if_neg h, payload_length, List.getElem?_replicate, if_pos (by omega)]

@[simp] theorem segmentOfRecord_byteAt (byte : Nat → Byte) (i : Nat) (hi : i < 252) :
    (segmentOfRecord byte).byteAt i = byte (4 + i) := by
  simp [segmentOfRecord, Segment.byteAt, hi]

/-! ### Chunks -/

@[simp] theorem segmentOfChunk_num (k : Nat) (c : Half) (b : List Byte) :
    (segmentOfChunk k c b).num = BitVec.ofNat 16 k := rfl

@[simp] theorem segmentOfChunk_csum (k : Nat) (c : Half) (b : List Byte) :
    (segmentOfChunk k c b).csum = c := rfl

@[simp] theorem segmentOfChunk_plen (k : Nat) (c : Half) (b : List Byte) :
    (segmentOfChunk k c b).plen.val = min 252 b.length := rfl

/-- The payload of a segment made of a chunk is the chunk. -/
theorem segmentOfChunk_payload (k : Nat) (c : Half) (b : List Byte) (hb : b.length ≤ 252) :
    (segmentOfChunk k c b).payload = b := by
  apply List.ext_getElem?
  intro i
  rw [payload_getElem?]
  by_cases hi : i < b.length
  · have h2 : i < 252 := by omega
    simp [segmentOfChunk, Segment.byteAt, hi, h2]
  · simp [hi]

end Sys2Proof.Machine
end

