-- ==== Sys2Proof/Laws/Checksum.lean ====
section
/-! SUPPORT. The laws of the checksum's accumulation (spec/40_checksum.md R110 to R112) that proofs about `checksum` cite
instead of unfolding it. -/

namespace Sys2Proof.Machine

/-- A fold leaves 16 bits (R111). -/
theorem foldAdd_le (acc w : Nat) (ha : acc ≤ 0xFFFF) (hw : w ≤ 0xFFFF) : foldAdd acc w ≤ 0xFFFF := by
  unfold foldAdd
  split <;> omega

/-- Adding zero changes nothing. -/
@[simp] theorem foldAdd_zero (acc : Nat) (ha : acc ≤ 0xFFFF) : foldAdd acc 0 = acc := by
  unfold foldAdd
  split <;> omega

/-- The pairing of bytes: one addition, then the rest. -/
theorem accumulate_eq_foldl (acc : Nat) (p : List Byte) :
    accumulate acc p = (wordsOf p).foldl foldAdd acc := by
  induction acc, p using accumulate.induct with
  | case1 acc => rfl
  | case2 acc b => rfl
  | case3 acc b0 b1 rest ih => simpa [accumulate, wordsOf] using ih

theorem wordsOf_le (p : List Byte) : ∀ w ∈ wordsOf p, w ≤ 0xFFFF := by
  induction p using wordsOf.induct with
  | case1 => simp [wordsOf]
  | case2 b =>
    have := b.isLt
    simp [wordsOf]
    omega
  | case3 b0 b1 rest ih =>
    have := b0.isLt
    have := b1.isLt
    simp only [wordsOf, List.mem_cons, forall_eq_or_imp]
    exact ⟨by omega, ih⟩

end Sys2Proof.Machine
end

