-- ==== Sys2Proof/Laws/Encoding.lean ====
section
/-! SUPPORT. The laws of a command word's fields (spec/30_encoding.md R90): what the three fields of a word built from an
opcode and two operands are, and what a mask keeps of it. -/

namespace Sys2Proof

/-- A command word built from the fields `op`, `a` and `b`, as a number. -/
theorem commandWord_toNat (op : Byte) (a : Nat) (b : Byte) (ha : a < 65536) :
    (commandWord op a b).toNat = op.toNat * 2 ^ 24 + a * 2 ^ 8 + b.toNat := by
  have h1 := op.isLt
  have h2 := b.isLt
  simp only [commandWord]
  rw [BitVec.toNat_append, ← Nat.shiftLeft_add_eq_or_of_lt b.isLt, Nat.shiftLeft_eq,
    BitVec.toNat_append, ← Nat.shiftLeft_add_eq_or_of_lt (BitVec.isLt _), Nat.shiftLeft_eq,
    BitVec.toNat_ofNat, Nat.mod_eq_of_lt (by omega)]
  omega

theorem opField_commandWord (op : Byte) (a : Nat) (b : Byte) (ha : a < 65536) :
    opField (commandWord op a b) = op := by
  have h1 := op.isLt
  have h2 := b.isLt
  apply BitVec.eq_of_toNat_eq
  simp only [opField, BitVec.extractLsb'_toNat, Nat.shiftRight_eq_div_pow, commandWord_toNat _ _ _ ha]
  omega

theorem aField_commandWord (op : Byte) (a : Nat) (b : Byte) (ha : a < 65536) :
    aField (commandWord op a b) = a := by
  have h1 := op.isLt
  have h2 := b.isLt
  simp only [aField, BitVec.extractLsb'_toNat, Nat.shiftRight_eq_div_pow, commandWord_toNat _ _ _ ha]
  omega

theorem bField_commandWord (op : Byte) (a : Nat) (b : Byte) (ha : a < 65536) :
    bField (commandWord op a b) = b := by
  have h2 := b.isLt
  apply BitVec.eq_of_toNat_eq
  simp only [bField, BitVec.extractLsb'_toNat, Nat.shiftRight_eq_div_pow, commandWord_toNat _ _ _ ha]
  omega

/-- A word is its three fields. -/
theorem commandWord_fields (w : Word) : commandWord (opField w) (aField w) (bField w) = w := by
  have h := w.isLt
  have ha : aField w < 65536 := (w.extractLsb' 8 16).isLt
  apply BitVec.eq_of_toNat_eq
  rw [commandWord_toNat _ _ _ ha]
  simp only [opField, aField, bField, BitVec.extractLsb'_toNat, Nat.shiftRight_eq_div_pow]
  omega

/-- A mask of whole fields keeps or clears whole fields. -/
theorem commandWord_and (op : Byte) (a : Nat) (b mo : Byte) (ma : Half) (mb : Byte) :
    commandWord op a b &&& (mo ++ ma ++ mb : BitVec (8 + 16 + 8)) =
      ((op &&& mo) ++ (BitVec.ofNat 16 a &&& ma) ++ (b &&& mb) : BitVec (8 + 16 + 8)) := by
  show (op ++ BitVec.ofNat 16 a ++ b : BitVec (8 + 16 + 8)) &&& (mo ++ ma ++ mb) = _
  rw [BitVec.and_append, BitVec.and_append]

end Sys2Proof
end

