-- ==== Sys2Proof/Laws/Injector.lean ====
section
/-! SUPPORT. What the draw source and the injector can do (spec/44_injector.md R201, R210 to R214): every draw lies in its
range, the reference generator stays live, and an injector call changes nothing of a segment but payload bytes. -/

namespace Sys2Proof.Machine

/-- An answer is brought into its range. -/
theorem intoRange_mem (lo hi v : Nat) (h : lo ≤ hi) : lo ≤ intoRange lo hi v ∧ intoRange lo hi v ≤ hi := by
  unfold intoRange
  split
  · assumption
  · have := Nat.mod_lt v (show 0 < hi - lo + 1 by omega)
    omega

/-- An answer that lies in the range is taken as it stands. -/
@[simp] theorem intoRange_of_mem (lo hi v : Nat) (h1 : lo ≤ v) (h2 : v ≤ hi) : intoRange lo hi v = v := by
  simp [intoRange, h1, h2]

/-- Every draw lies in its range, whatever the source (spec/44_injector.md R210). -/
theorem draw_mem (r : Rng) (lo hi : Nat) (h : lo ≤ hi) : lo ≤ (r.draw lo hi).1 ∧ (r.draw lo hi).1 ≤ hi := by
  match r with
  | .lfsr v =>
    have := Nat.mod_lt (lfsrSteps 16 v).toNat (show 0 < hi - lo + 1 by omega)
    simp only [Rng.draw]
    omega
  | .given [] k => exact intoRange_mem _ _ _ h
  | .given (x :: rest) k => exact intoRange_mem _ _ _ h

/-- One step of the reference generator as arithmetic: `(s >> 1) | (bit << 15)` (R212). -/
theorem lfsrStep_toNat (s : Half) :
    (lfsrStep s).toNat =
      (s.getLsbD 0 ^^ s.getLsbD 2 ^^ s.getLsbD 3 ^^ s.getLsbD 5).toNat * 2 ^ 15 + s.toNat / 2 := by
  have h := s.isLt
  have e : (s.extractLsb' 1 15).toNat = s.toNat / 2 := by
    simp only [BitVec.extractLsb'_toNat, Nat.shiftRight_eq_div_pow]
    omega
  simp only [lfsrStep]
  rw [BitVec.toNat_append, ← Nat.shiftLeft_add_eq_or_of_lt (BitVec.isLt _), Nat.shiftLeft_eq, e,
    BitVec.toNat_ofBool]

/-- The reference generator never leaves the non-zero states (R214). -/
theorem lfsrStep_ne_zero (s : Half) (h : s ≠ 0) : lfsrStep s ≠ 0 := by
  intro h0
  have ht := congrArg BitVec.toNat h0
  rw [lfsrStep_toNat] at ht
  have hs : s.toNat = 1 := by
    have : s.toNat ≠ 0 := fun e => h (BitVec.eq_of_toNat_eq e)
    simp at ht
    omega
  have : s = 1 := BitVec.eq_of_toNat_eq hs
  subst this
  exact absurd h0 (by decide)

theorem lfsrSteps_ne_zero (n : Nat) (s : Half) (h : s ≠ 0) : lfsrSteps n s ≠ 0 := by
  induction n generalizing s with
  | zero => exact h
  | succ n ih => exact ih _ (lfsrStep_ne_zero s h)

/-- A draw keeps the source live. -/
theorem draw_live (r : Rng) (lo hi : Nat) (h : r.live = true) : (r.draw lo hi).2.live = true := by
  match r with
  | .lfsr v =>
    have hv : v ≠ 0 := by simpa [Rng.live] using h
    simpa [Rng.draw, Rng.live] using lfsrSteps_ne_zero 16 v hv
  | .given [] k => rfl
  | .given (x :: rest) k => rfl

/-- What selections can do: payload bytes change, nothing else of the segment, and the source stays live. -/
theorem invertDrawn_keeps (n : Nat) (g : Segment) (r : Rng) (hp : 0 < g.plen.val) :
    (invertDrawn n g r).1.num = g.num ∧ (invertDrawn n g r).1.csum = g.csum ∧
      (invertDrawn n g r).1.plen = g.plen ∧
      (∀ k, g.plen.val ≤ k → (invertDrawn n g r).1.byteAt k = g.byteAt k) ∧
      (r.live = true → (invertDrawn n g r).2.live = true) := by
  induction n generalizing g r with
  | zero => simp [invertDrawn]
  | succ n ih =>
    have hd := (draw_mem r 0 (g.plen.val - 1) (Nat.zero_le _)).2
    have hg := g.plen.isLt
    have hi : (r.draw 0 (g.plen.val - 1)).1 < 252 := by omega
    obtain ⟨h1, h2, h3, h4, h5⟩ :=
      ih (g.invertByte (r.draw 0 (g.plen.val - 1)).1) (r.draw 0 (g.plen.val - 1)).2 (by simpa [Segment.invertByte])
    simp only [Segment.invertByte, setByte_num, setByte_csum, setByte_plen] at h1 h2 h3 h4
    refine ⟨h1, h2, h3, fun k hk => ?_, fun hl => h5 (draw_live _ _ _ hl)⟩
    rw [show invertDrawn (n + 1) g r = invertDrawn n (g.invertByte (r.draw 0 (g.plen.val - 1)).1)
      (r.draw 0 (g.plen.val - 1)).2 from rfl]
    rw [Segment.invertByte, h4 k hk, byteAt_setByte _ _ _ _ hi, if_neg (by omega)]

/-- What an injector call can do (R201): payload bytes change, nothing else of the segment, and the source stays
live. -/
theorem corrupt_keeps (t : Nat) (g : Segment) (r : Rng) (hp : 0 < g.plen.val) :
    (corrupt t g r).seg.num = g.num ∧ (corrupt t g r).seg.csum = g.csum ∧
      (corrupt t g r).seg.plen = g.plen ∧
      (∀ k, g.plen.val ≤ k → (corrupt t g r).seg.byteAt k = g.byteAt k) ∧
      (r.live = true → (corrupt t g r).rng.live = true) ∧
      ((corrupt t g r).hit = false → (corrupt t g r).seg = g) := by
  unfold corrupt
  simp only
  split
  · obtain ⟨h1, h2, h3, h4, h5⟩ :=
      invertDrawn_keeps (magnitude ((r.draw 1 100).2.draw 1 100).1 + 1) g ((r.draw 1 100).2.draw 1 100).2 hp
    exact ⟨h1, h2, h3, h4, fun hl => h5 (draw_live _ _ _ (draw_live _ _ _ hl)), by simp⟩
  · exact ⟨rfl, rfl, rfl, fun _ _ => rfl, fun hl => draw_live _ _ _ (draw_live _ _ _ hl), fun _ => rfl⟩

end Sys2Proof.Machine
end

