-- ==== Sys2Proof/Laws/Memory.lean ====
section
/-! SUPPORT. The laws of the element memories and of the presence bitmap: a read after a write, and that every write
keeps the canonical form. Later proofs cite these and never unfold `Memory.write` or `setPresBit`. -/

namespace Sys2Proof.Machine

variable {α : Type}

@[simp] theorem get?_nil (a : Nat) : Memory.get? ([] : Memory α) a = none := rfl

@[simp] theorem get?_cons (k : Nat) (v : α) (m : Memory α) (a : Nat) :
    Memory.get? ((k, v) :: m) a = if k = a then some v else Memory.get? m a := rfl

theorem get?_append (m n : Memory α) (a : Nat) :
    Memory.get? (m ++ n) a = (Memory.get? m a).or (Memory.get? n a) := by
  induction m with
  | nil => rfl
  | cons c m ih =>
    obtain ⟨k, v⟩ := c
    by_cases h : k = a <;> simp [h, ih]

theorem get?_filter (p : Nat → Bool) (m : Memory α) (a : Nat) :
    Memory.get? (m.filter fun c => p c.1) a = if p a then Memory.get? m a else none := by
  induction m with
  | nil => simp
  | cons c m ih =>
    obtain ⟨k, v⟩ := c
    by_cases hk : k = a
    · subst hk
      by_cases hp : p k <;> simp [hp, ih]
    · by_cases hp : p k <;> simp [hp, ih, hk]

theorem get?_cellsFrom (base : Nat) (vs : List α) (a : Nat) :
    Memory.get? (cellsFrom base vs) a = if base ≤ a then vs[a - base]? else none := by
  induction vs generalizing base with
  | nil => simp [cellsFrom]
  | cons v vs ih =>
    simp only [cellsFrom, get?_cons, ih]
    by_cases h : base = a
    · simp [h]
    · by_cases hb : base ≤ a
      · have : a - base = (a - (base + 1)) + 1 := by omega
        simp [h, hb, this, show base + 1 ≤ a by omega]
      · simp [h, hb, show ¬ base + 1 ≤ a by omega]

/-- A read after a write of a run: the run's element inside the run, the old element elsewhere. -/
theorem get?_write (m : Memory α) (base : Nat) (vs : List α) (a : Nat) :
    Memory.get? (Memory.write m base vs) a =
      if base ≤ a ∧ a < base + vs.length then vs[a - base]? else Memory.get? m a := by
  unfold Memory.write
  rw [get?_append, get?_append, get?_filter (fun k => decide (k < base)),
    get?_filter (fun k => decide (base + vs.length ≤ k)), get?_cellsFrom]
  by_cases h1 : a < base
  · simp [h1, show ¬ base ≤ a by omega, show ¬ base + vs.length ≤ a by omega]
  · by_cases h2 : a < base + vs.length
    · have : a - base < vs.length := by omega
      simp [h1, h2, show base ≤ a by omega, show ¬ base + vs.length ≤ a by omega]
    · have : vs.length ≤ a - base := by omega
      simp [h1, h2, show base + vs.length ≤ a by omega, this]

/-- A read inside the run. -/
theorem get?_write_inside (m : Memory α) (base : Nat) (vs : List α) (i : Nat) (h : i < vs.length) :
    Memory.get? (Memory.write m base vs) (base + i) = some vs[i] := by
  rw [get?_write, if_pos (by omega)]
  simp [h]

/-- A read outside the run. -/
theorem get?_write_outside (m : Memory α) (base : Nat) (vs : List α) (a : Nat)
    (h : a < base ∨ base + vs.length ≤ a) :
    Memory.get? (Memory.write m base vs) a = Memory.get? m a := by
  rw [get?_write, if_neg (by omega)]

/-- A read after a write of one element. -/
theorem get?_write_one (m : Memory α) (base : Nat) (v : α) (a : Nat) :
    Memory.get? (Memory.write m base [v]) a = if a = base then some v else Memory.get? m a := by
  rw [get?_write]
  by_cases h : a = base
  · simp [h]
  · rw [if_neg (by simp; omega), if_neg h]

theorem mem_cellsFrom (base : Nat) (vs : List α) (c : Nat × α) (h : c ∈ cellsFrom base vs) :
    base ≤ c.1 ∧ c.1 < base + vs.length := by
  induction vs generalizing base with
  | nil => simp [cellsFrom] at h
  | cons v vs ih =>
    simp only [cellsFrom, List.mem_cons] at h
    rcases h with rfl | h
    · simp
    · have := ih _ h
      simp only [List.length_cons]
      omega

theorem cellsFrom_rising (base : Nat) (vs : List α) :
    (cellsFrom base vs).Pairwise fun c d => c.1 < d.1 := by
  induction vs generalizing base with
  | nil => simp [cellsFrom]
  | cons v vs ih =>
    simp only [cellsFrom, List.pairwise_cons]
    exact ⟨fun c hc => by have := mem_cellsFrom _ _ _ hc; omega, ih _⟩

theorem wf_iff (size : Nat) (m : Memory α) :
    Memory.wf size m = true ↔
      m.Pairwise (fun c d => c.1 < d.1) ∧ ∀ c ∈ m, c.1 < size := by
  simp [Memory.wf, Memory.rising]

@[simp] theorem wf_nil (size : Nat) : Memory.wf size ([] : Memory α) = true := by
  simp [wf_iff]

/-- A write of a run that lies inside the space keeps the canonical form. -/
theorem wf_write (size : Nat) (m : Memory α) (base : Nat) (vs : List α)
    (hm : Memory.wf size m = true) (hb : base + vs.length ≤ size) :
    Memory.wf size (Memory.write m base vs) = true := by
  rw [wf_iff] at hm ⊢
  obtain ⟨hp, hs⟩ := hm
  constructor
  · unfold Memory.write
    rw [List.pairwise_append, List.pairwise_append]
    refine ⟨⟨hp.filter _, cellsFrom_rising _ _, ?_⟩, hp.filter _, ?_⟩
    · intro c hc d hd
      have := mem_cellsFrom _ _ _ hd
      simp only [List.mem_filter, decide_eq_true_eq] at hc
      omega
    · intro c hc d hd
      simp only [List.mem_filter, decide_eq_true_eq] at hd
      rw [List.mem_append] at hc
      rcases hc with hc | hc
      · simp only [List.mem_filter, decide_eq_true_eq] at hc
        omega
      · have := mem_cellsFrom _ _ _ hc
        omega
  · intro c hc
    simp only [Memory.write, List.mem_append, List.mem_filter] at hc
    rcases hc with (hc | hc) | hc
    · exact hs c hc.1
    · have := mem_cellsFrom _ _ _ hc
      omega
    · exact hs c hc.1

/-- An element of a canonical memory is what a read of its index gives. -/
theorem get?_isSome_lt (size : Nat) (m : Memory α) (hm : Memory.wf size m = true) (a : Nat)
    (h : (Memory.get? m a).isSome = true) : a < size := by
  rw [wf_iff] at hm
  have key : ∀ n : Memory α, (∀ c ∈ n, c.1 < size) → (Memory.get? n a).isSome = true → a < size := by
    intro n
    induction n with
    | nil => simp
    | cons c n ih =>
      obtain ⟨k, v⟩ := c
      intro hn hsome
      by_cases hk : k = a
      · have := hn (k, v) (by simp)
        simp_all
      · exact ih (fun c hc => hn c (by simp [hc])) (by simpa [hk] using hsome)
  exact key m hm.2 h

/-! ### The presence bitmap -/

@[simp] theorem presBit_nil (n : Nat) : presBit [] n = false := rfl

theorem presBit_iff (pres : List Nat) (n : Nat) : presBit pres n = true ↔ n ∈ pres := by
  simp [presBit]

/-- Setting a bit sets that bit and no other. -/
theorem presBit_setPresBit (pres : List Nat) (n k : Nat) :
    presBit (setPresBit pres n) k = true ↔ k = n ∨ presBit pres k = true := by
  simp only [presBit_iff, setPresBit, List.mem_append, List.mem_cons, List.mem_filter, decide_eq_true_eq]
  constructor
  · rintro (⟨h, -⟩ | rfl | ⟨h, -⟩) <;> simp [*]
  · rintro (rfl | h)
    · simp
    · rcases Nat.lt_trichotomy k n with hk | hk | hk <;> simp [*]

theorem presWf_iff (size : Nat) (pres : List Nat) :
    presWf size pres = true ↔ pres.Pairwise (· < ·) ∧ ∀ n ∈ pres, n < size := by
  simp [presWf]

@[simp] theorem presWf_nil (size : Nat) : presWf size [] = true := by simp [presWf_iff]

/-- Setting a bit of the bitmap keeps its canonical form. -/
theorem presWf_setPresBit (size : Nat) (pres : List Nat) (n : Nat)
    (hp : presWf size pres = true) (hn : n < size) : presWf size (setPresBit pres n) = true := by
  rw [presWf_iff] at hp ⊢
  obtain ⟨hp, hs⟩ := hp
  constructor
  · unfold setPresBit
    rw [List.pairwise_append, List.pairwise_cons]
    refine ⟨hp.filter _, ⟨?_, hp.filter _⟩, ?_⟩
    · intro k hk
      simpa using (List.mem_filter.mp hk).2
    · intro j hj k hk
      have hj' := (List.mem_filter.mp hj).2
      rw [List.mem_cons, List.mem_filter] at hk
      rcases hk with rfl | ⟨-, hk⟩
      · simpa using hj'
      · simp only [decide_eq_true_eq] at hj' hk
        omega
  · intro k hk
    simp only [setPresBit, List.mem_append, List.mem_cons, List.mem_filter] at hk
    rcases hk with hk | rfl | hk
    · exact hs k hk.1
    · exact hn
    · exact hs k hk.1

end Sys2Proof.Machine
end

