-- ==== Sys2Proof/Laws/State.lean ====
section
/-! SUPPORT. One lemma per field for each update of the state that meanings share, true by unfolding, so that no later proof
unfolds a record update: completing an operation, raising an error, answering a host read, issuing accesses. -/

namespace Sys2Proof.Machine

/-! ### Completing an operation -/

@[simp] theorem complete_cfg (s : State) : (s.complete).cfg = s.cfg := rfl
@[simp] theorem complete_flags (s : State) : (s.complete).flags = s.flags := rfl
@[simp] theorem complete_err (s : State) : (s.complete).err = .ok := rfl
@[simp] theorem complete_ilen (s : State) : (s.complete).ilen = s.ilen := rfl
@[simp] theorem complete_cksum (s : State) : (s.complete).cksum = s.cksum := rfl
@[simp] theorem complete_seg (s : State) : (s.complete).seg = s.seg := rfl
@[simp] theorem complete_pdata (s : State) : (s.complete).pdata = s.pdata := rfl
@[simp] theorem complete_count (s : State) : (s.complete).count = s.count := rfl
@[simp] theorem complete_olen (s : State) : (s.complete).olen = s.olen := rfl
@[simp] theorem complete_nflag (s : State) : (s.complete).nflag = s.nflag := rfl
@[simp] theorem complete_thresh (s : State) : (s.complete).thresh = s.thresh := rfl
@[simp] theorem complete_rng (s : State) : (s.complete).rng = s.rng := rfl
@[simp] theorem complete_scnt (s : State) : (s.complete).scnt = s.scnt := rfl
@[simp] theorem complete_soff (s : State) : (s.complete).soff = s.soff := rfl
@[simp] theorem complete_ibuf (s : State) : (s.complete).ibuf = s.ibuf := rfl
@[simp] theorem complete_wbuf (s : State) : (s.complete).wbuf = s.wbuf := rfl
@[simp] theorem complete_obuf (s : State) : (s.complete).obuf = s.obuf := rfl
@[simp] theorem complete_rb (s : State) : (s.complete).rb = s.rb := rfl
@[simp] theorem complete_flg (s : State) : (s.complete).flg = s.flg := rfl
@[simp] theorem complete_pres (s : State) : (s.complete).pres = s.pres := rfl
@[simp] theorem complete_ord (s : State) : (s.complete).ord = s.ord := rfl
@[simp] theorem complete_fresh (s : State) : (s.complete).fresh = s.fresh + 1 := rfl
@[simp] theorem complete_host (s : State) : (s.complete).host = s.host := rfl

/-! ### Raising an error -/

@[simp] theorem raise_cfg (s : State) (e : ErrCode) : (s.raise e).cfg = s.cfg := rfl
@[simp] theorem raise_flags (s : State) (e : ErrCode) : (s.raise e).flags = { s.flags with ever := true } := rfl
@[simp] theorem raise_err (s : State) (e : ErrCode) : (s.raise e).err = e := rfl
@[simp] theorem raise_ilen (s : State) (e : ErrCode) : (s.raise e).ilen = s.ilen := rfl
@[simp] theorem raise_cksum (s : State) (e : ErrCode) : (s.raise e).cksum = s.cksum := rfl
@[simp] theorem raise_seg (s : State) (e : ErrCode) : (s.raise e).seg = s.seg := rfl
@[simp] theorem raise_pdata (s : State) (e : ErrCode) : (s.raise e).pdata = s.pdata := rfl
@[simp] theorem raise_count (s : State) (e : ErrCode) : (s.raise e).count = s.count := rfl
@[simp] theorem raise_olen (s : State) (e : ErrCode) : (s.raise e).olen = s.olen := rfl
@[simp] theorem raise_nflag (s : State) (e : ErrCode) : (s.raise e).nflag = s.nflag := rfl
@[simp] theorem raise_thresh (s : State) (e : ErrCode) : (s.raise e).thresh = s.thresh := rfl
@[simp] theorem raise_rng (s : State) (e : ErrCode) : (s.raise e).rng = s.rng := rfl
@[simp] theorem raise_scnt (s : State) (e : ErrCode) : (s.raise e).scnt = s.scnt := rfl
@[simp] theorem raise_soff (s : State) (e : ErrCode) : (s.raise e).soff = s.soff := rfl
@[simp] theorem raise_ibuf (s : State) (e : ErrCode) : (s.raise e).ibuf = s.ibuf := rfl
@[simp] theorem raise_wbuf (s : State) (e : ErrCode) : (s.raise e).wbuf = s.wbuf := rfl
@[simp] theorem raise_obuf (s : State) (e : ErrCode) : (s.raise e).obuf = s.obuf := rfl
@[simp] theorem raise_rb (s : State) (e : ErrCode) : (s.raise e).rb = s.rb := rfl
@[simp] theorem raise_flg (s : State) (e : ErrCode) : (s.raise e).flg = s.flg := rfl
@[simp] theorem raise_pres (s : State) (e : ErrCode) : (s.raise e).pres = s.pres := rfl
@[simp] theorem raise_ord (s : State) (e : ErrCode) : (s.raise e).ord = s.ord := rfl
@[simp] theorem raise_fresh (s : State) (e : ErrCode) : (s.raise e).fresh = s.fresh := rfl
@[simp] theorem raise_host (s : State) (e : ErrCode) : (s.raise e).host = s.host := rfl

/-! ### Answering a host read -/

@[simp] theorem reply_cfg (s : State) (v : Word) : (s.reply v).cfg = s.cfg := rfl
@[simp] theorem reply_flags (s : State) (v : Word) : (s.reply v).flags = s.flags := rfl
@[simp] theorem reply_err (s : State) (v : Word) : (s.reply v).err = s.err := rfl
@[simp] theorem reply_ilen (s : State) (v : Word) : (s.reply v).ilen = s.ilen := rfl
@[simp] theorem reply_cksum (s : State) (v : Word) : (s.reply v).cksum = s.cksum := rfl
@[simp] theorem reply_seg (s : State) (v : Word) : (s.reply v).seg = s.seg := rfl
@[simp] theorem reply_pdata (s : State) (v : Word) : (s.reply v).pdata = s.pdata := rfl
@[simp] theorem reply_count (s : State) (v : Word) : (s.reply v).count = s.count := rfl
@[simp] theorem reply_olen (s : State) (v : Word) : (s.reply v).olen = s.olen := rfl
@[simp] theorem reply_nflag (s : State) (v : Word) : (s.reply v).nflag = s.nflag := rfl
@[simp] theorem reply_thresh (s : State) (v : Word) : (s.reply v).thresh = s.thresh := rfl
@[simp] theorem reply_rng (s : State) (v : Word) : (s.reply v).rng = s.rng := rfl
@[simp] theorem reply_scnt (s : State) (v : Word) : (s.reply v).scnt = s.scnt := rfl
@[simp] theorem reply_soff (s : State) (v : Word) : (s.reply v).soff = s.soff := rfl
@[simp] theorem reply_ibuf (s : State) (v : Word) : (s.reply v).ibuf = s.ibuf := rfl
@[simp] theorem reply_wbuf (s : State) (v : Word) : (s.reply v).wbuf = s.wbuf := rfl
@[simp] theorem reply_obuf (s : State) (v : Word) : (s.reply v).obuf = s.obuf := rfl
@[simp] theorem reply_rb (s : State) (v : Word) : (s.reply v).rb = s.rb := rfl
@[simp] theorem reply_flg (s : State) (v : Word) : (s.reply v).flg = s.flg := rfl
@[simp] theorem reply_pres (s : State) (v : Word) : (s.reply v).pres = s.pres := rfl
@[simp] theorem reply_ord (s : State) (v : Word) : (s.reply v).ord = s.ord := rfl
@[simp] theorem reply_fresh (s : State) (v : Word) : (s.reply v).fresh = s.fresh + 1 := rfl
@[simp] theorem reply_host (s : State) (v : Word) : (s.reply v).host = { s.host with replies := v :: s.host.replies } := rfl

/-! ### Issuing accesses -/

@[simp] theorem issue_cfg (s : State) (role : Role) (acts : List HostAction) : (s.issue role acts).cfg = s.cfg := rfl
@[simp] theorem issue_flags (s : State) (role : Role) (acts : List HostAction) : (s.issue role acts).flags = s.flags := rfl
@[simp] theorem issue_err (s : State) (role : Role) (acts : List HostAction) : (s.issue role acts).err = s.err := rfl
@[simp] theorem issue_ilen (s : State) (role : Role) (acts : List HostAction) : (s.issue role acts).ilen = s.ilen := rfl
@[simp] theorem issue_cksum (s : State) (role : Role) (acts : List HostAction) : (s.issue role acts).cksum = s.cksum := rfl
@[simp] theorem issue_seg (s : State) (role : Role) (acts : List HostAction) : (s.issue role acts).seg = s.seg := rfl
@[simp] theorem issue_pdata (s : State) (role : Role) (acts : List HostAction) : (s.issue role acts).pdata = s.pdata := rfl
@[simp] theorem issue_count (s : State) (role : Role) (acts : List HostAction) : (s.issue role acts).count = s.count := rfl
@[simp] theorem issue_olen (s : State) (role : Role) (acts : List HostAction) : (s.issue role acts).olen = s.olen := rfl
@[simp] theorem issue_nflag (s : State) (role : Role) (acts : List HostAction) : (s.issue role acts).nflag = s.nflag := rfl
@[simp] theorem issue_thresh (s : State) (role : Role) (acts : List HostAction) : (s.issue role acts).thresh = s.thresh := rfl
@[simp] theorem issue_rng (s : State) (role : Role) (acts : List HostAction) : (s.issue role acts).rng = s.rng := rfl
@[simp] theorem issue_scnt (s : State) (role : Role) (acts : List HostAction) : (s.issue role acts).scnt = s.scnt := rfl
@[simp] theorem issue_soff (s : State) (role : Role) (acts : List HostAction) : (s.issue role acts).soff = s.soff := rfl
@[simp] theorem issue_ibuf (s : State) (role : Role) (acts : List HostAction) : (s.issue role acts).ibuf = s.ibuf := rfl
@[simp] theorem issue_wbuf (s : State) (role : Role) (acts : List HostAction) : (s.issue role acts).wbuf = s.wbuf := rfl
@[simp] theorem issue_obuf (s : State) (role : Role) (acts : List HostAction) : (s.issue role acts).obuf = s.obuf := rfl
@[simp] theorem issue_rb (s : State) (role : Role) (acts : List HostAction) : (s.issue role acts).rb = s.rb := rfl
@[simp] theorem issue_flg (s : State) (role : Role) (acts : List HostAction) : (s.issue role acts).flg = s.flg := rfl
@[simp] theorem issue_pres (s : State) (role : Role) (acts : List HostAction) : (s.issue role acts).pres = s.pres := rfl
@[simp] theorem issue_ord (s : State) (role : Role) (acts : List HostAction) : (s.issue role acts).ord = s.ord := rfl
@[simp] theorem issue_fresh (s : State) (role : Role) (acts : List HostAction) : (s.issue role acts).fresh = s.fresh := rfl
@[simp] theorem issue_host (s : State) (role : Role) (acts : List HostAction) : (s.issue role acts).host = { pending := acts, replies := [], role := role } := rfl

end Sys2Proof.Machine
end

