-- ==== Sys2Proof/Laws/Outcome.lean ====
section
/-! SUPPORT. Said once: what an operation can answer. It raises an error before its first write, or it completes; it never
faults and is never refused (spec/60_exceptions.md R270 to R272). -/

namespace Sys2Proof.Machine

/-- The error an operation meets, if it meets one: its own checks in the order its rule lists them (R270, R275). -/
def raisedError (i : Instr) (s : State) : Option ErrCode :=
  match i with
  | .csumi => none
  | .csums => none
  | .encode => none
  | .decode => none
  | .pget a => if s.seg.plen.val ≤ a then some .index else none
  | .pset a _ => if s.seg.plen.val ≤ a then some .index else none
  | .seginit => if s.ilen = 0 then some .empty else none
  | .segnext => if s.flags.more = false then some .seq else none
  | .rbclr => none
  | .rbpush => if s.count = s.cfg.nslot then some .full else none
  | .reasm => none
  | .corrupts => if s.seg.plen.val = 0 then some .index else none
  | .corruptr a =>
    if s.count ≤ a then some .slot
    else if (s.slot 0 a).plen.val = 0 then some .index else none
  | .detect => none

/-- An operation that meets an error raises it and does nothing else. -/
theorem exec_raises (i : Instr) (s : State) (e : ErrCode) (h : raisedError i s = some e) :
    exec i s = .next (s.raise e) := by
  cases i <;> simp only [raisedError, Option.ite_none_right_eq_some, reduceCtorEq, Option.some.injEq] at h
  case pget a => simp [exec, execPget, h]
  case pset a b => simp [exec, execPset, h]
  case seginit => simp [exec, execSeginit, h]
  case segnext => simp [exec, execSegnext, h]
  case rbpush => simp [exec, execRbpush, h]
  case corrupts => simp [exec, execCorrupts, h]
  case corruptr a =>
    by_cases ha : s.count ≤ a
    · simp_all [exec, execCorruptr]
    · simp_all [exec, execCorruptr]

/-- An operation that meets no error completes, and what it completes from keeps what no operation writes. -/
theorem exec_completes (i : Instr) (s : State) (h : raisedError i s = none) :
    ∃ u : State, exec i s = .next u.complete ∧ u.cfg = s.cfg ∧ u.host = s.host ∧ u.fresh = s.fresh ∧
      u.ilen = s.ilen ∧ u.thresh = s.thresh ∧ u.ibuf = s.ibuf ∧ u.flags.ever = s.flags.ever := by
  cases i <;> simp only [raisedError, ite_eq_right_iff, reduceCtorEq, imp_false] at h
  case csumi => exact ⟨_, rfl, rfl, rfl, rfl, rfl, rfl, rfl, rfl⟩
  case csums => exact ⟨_, rfl, rfl, rfl, rfl, rfl, rfl, rfl, rfl⟩
  case encode => exact ⟨_, rfl, rfl, rfl, rfl, rfl, rfl, rfl, rfl⟩
  case decode => exact ⟨_, rfl, rfl, rfl, rfl, rfl, rfl, rfl, rfl⟩
  case pget a =>
    refine ⟨{ s with pdata := s.seg.byteAt a }, ?_, rfl, rfl, rfl, rfl, rfl, rfl, rfl⟩
    simp [exec, execPget, h]
  case pset a b =>
    refine ⟨{ s with seg := s.seg.setByte a b }, ?_, rfl, rfl, rfl, rfl, rfl, rfl, rfl⟩
    simp [exec, execPset, h]
  case seginit =>
    refine ⟨{ s with scnt := 0, soff := 0, flags := { s.flags with more := true } },
      ?_, rfl, rfl, rfl, rfl, rfl, rfl, rfl⟩
    simp [exec, execSeginit, h]
  case segnext =>
    simp only [exec, execSegnext, h]
    exact ⟨_, rfl, rfl, rfl, rfl, rfl, rfl, rfl, rfl⟩
  case rbclr => exact ⟨_, rfl, rfl, rfl, rfl, rfl, rfl, rfl, rfl⟩
  case rbpush =>
    refine ⟨s.pushSegment, ?_, rfl, rfl, rfl, rfl, rfl, rfl, rfl⟩
    simp [exec, execRbpush, h]
  case reasm => exact ⟨_, rfl, rfl, rfl, rfl, rfl, rfl, rfl, rfl⟩
  case corrupts =>
    simp only [exec, execCorrupts, h, if_false]
    exact ⟨_, rfl, rfl, rfl, rfl, rfl, rfl, rfl, rfl⟩
  case corruptr a =>
    by_cases ha : s.count ≤ a
    · simp [ha] at h
    · have hp : ¬ (s.slot 0 a).plen.val = 0 := by simpa [ha] using h
      simp only [exec, execCorruptr, ge_iff_le, ha, hp, if_false]
      exact ⟨_, rfl, rfl, rfl, rfl, rfl, rfl, rfl, rfl⟩
  case detect => exact ⟨_, rfl, rfl, rfl, rfl, rfl, rfl, rfl, rfl⟩

/-- What an operation can answer: the raise of an error, or a completion. -/
theorem exec_cases (i : Instr) (s : State) :
    (∃ e, raisedError i s = some e ∧ exec i s = .next (s.raise e)) ∨
      (∃ u : State, raisedError i s = none ∧ exec i s = .next u.complete ∧ u.cfg = s.cfg ∧ u.host = s.host ∧
        u.fresh = s.fresh ∧ u.ilen = s.ilen ∧ u.thresh = s.thresh ∧ u.ibuf = s.ibuf ∧
        u.flags.ever = s.flags.ever) := by
  cases h : raisedError i s with
  | some e => exact .inl ⟨e, rfl, exec_raises i s e h⟩
  | none =>
    obtain ⟨u, hu⟩ := exec_completes i s h
    exact .inr ⟨u, rfl, hu⟩

end Sys2Proof.Machine
end

