-- ==== Sys2Proof/Laws/PerInstr.lean ====
section
/-! SUPPORT. Facts about each operation as syntax, one lemma per constructor. FitsRow: the word the encoder makes of a
well-formed operation is an instance of the row of spec/opcode_table.json that has its mnemonic. -/

namespace Sys2Proof

/-- The row of the opcode table with the operation's mnemonic (spec/30_encoding.md R94). -/
def Instr.row? (i : Instr) : Option EncodingRow := encodingRows.find? fun r => r.mnemonic == i.mnemonic

end Sys2Proof

namespace Sys2Proof.Laws.FitsRow

/-- The encoded word is an instance of the operation's own row (R91 to R94). -/
def Statement (i : Instr) : Prop :=
  i.wellFormed = true → ∃ r, i.row? = some r ∧ r.matches (encode i) = true

theorem csumi : Statement .csumi := fun _ => ⟨_, rfl, rfl⟩

theorem csums : Statement .csums := fun _ => ⟨_, rfl, rfl⟩

theorem encode : Statement .encode := fun _ => ⟨_, rfl, rfl⟩

theorem decode : Statement .decode := fun _ => ⟨_, rfl, rfl⟩

theorem pget (a : Nat) : Statement (.pget a) := fun _ => ⟨_, rfl, by
  have h := commandWord_and 0x22 a 0 0xFF 0 0xFF
  simpa [EncodingRow.matches, Sys2Proof.encode] using h⟩

theorem pset (a : Nat) (b : Byte) : Statement (.pset a b) := fun _ => ⟨_, rfl, by
  have h := commandWord_and 0x23 a b 0xFF 0 0
  simpa [EncodingRow.matches, Sys2Proof.encode] using h⟩

theorem seginit : Statement .seginit := fun _ => ⟨_, rfl, rfl⟩

theorem segnext : Statement .segnext := fun _ => ⟨_, rfl, rfl⟩

theorem rbclr : Statement .rbclr := fun _ => ⟨_, rfl, rfl⟩

theorem rbpush : Statement .rbpush := fun _ => ⟨_, rfl, rfl⟩

theorem reasm : Statement .reasm := fun _ => ⟨_, rfl, rfl⟩

theorem corrupts : Statement .corrupts := fun _ => ⟨_, rfl, rfl⟩

theorem corruptr (a : Nat) : Statement (.corruptr a) := fun _ => ⟨_, rfl, by
  have h := commandWord_and 0x51 a 0 0xFF 0 0xFF
  simpa [EncodingRow.matches, Sys2Proof.encode] using h⟩

theorem detect : Statement .detect := fun _ => ⟨_, rfl, rfl⟩

end Sys2Proof.Laws.FitsRow
end

