-- ==== Sys2Proof/Laws/Protocol.lean ====
section
/-! SUPPORT. What the requests and the transport of the Transfer Protocol can do (spec/46_protocol.md R243, R252;
spec/20_memory.md R85): which datagrams are requests, and what a transport move leaves as it was. -/

namespace Sys2Proof.Machine

/-- A request line is 13 bytes and its terminator longer than its name. -/
@[simp] theorem requestLine_length (name : List Byte) :
    (requestLine name).length = name.length + (13 + requestEnd.length) := by
  simp only [requestLine, requestText, getText, versionText, List.length_append, List.length_cons, List.length_nil]
  omega

/-- The name stands between the first 4 bytes of its request line and the last 9 before the terminator. -/
theorem requestLine_name (name : List Byte) :
    ((requestLine name).drop 4).take ((requestLine name).length - (13 + requestEnd.length)) = name := by
  rw [requestLine_length, Nat.add_sub_cancel]
  simp [requestLine, requestText, getText]

/-- Request lines for two names differ. -/
theorem requestLine_inj (a b : List Byte) (h : requestLine a = requestLine b) : a = b := by
  rw [← requestLine_name a, h, requestLine_name]

/-- A datagram is a request for `name` exactly when it is the request line of `name` and the text of that line is a single
ASCII line (R243). -/
theorem parseRequest_eq_some (line name : List Byte) :
    parseRequest line = some name ↔ isLine (requestText name) = true ∧ line = requestLine name := by
  simp only [parseRequest, Option.ite_none_right_eq_some, Option.some.injEq]
  constructor
  · rintro ⟨h, rfl⟩
    exact h
  · rintro ⟨h, rfl⟩
    simp only [requestLine_name]
    exact ⟨⟨h, trivial⟩, trivial⟩

/-- A request that arrives leaves the records the server gave to the transport. -/
@[simp] theorem arriveRequest_sentRecords (s : State) (line : List Byte) :
    (s.arriveRequest line).sentRecords = s.sentRecords := by
  unfold State.arriveRequest
  split <;> simp [State.sentRecords, *]

/-- A transport failure leaves the records the server gave to the transport (R252). -/
@[simp] theorem failTransport_sentRecords (s : State) : s.failTransport.sentRecords = s.sentRecords := by
  unfold State.failTransport
  split <;> simp [State.sentRecords, *]

/-- A transport failure leaves the request lines the client gave to the transport (R252). -/
@[simp] theorem failTransport_requestLines (s : State) : s.failTransport.requestLines = s.requestLines := by
  unfold State.failTransport
  split <;> simp [State.requestLines, *]

end Sys2Proof.Machine
end

