-- ==== Sys2Proof/Laws/Reading.lean ====
section
/-! SUPPORT. Storage the host has written reads as what was written, in every reading (spec/70_reset_and_hazards.md R302,
R304): proofs cite these and never meet a free value. -/

namespace Sys2Proof.Machine

/-- A written range of IBUF reads as its bytes. -/
theorem ibufBytes_of_holds (s : State) (reading base : Nat) (p : List Byte) (h : s.ibufHolds base p) :
    s.ibufBytes reading base p.length = p := by
  apply List.ext_getElem?
  intro i
  simp only [State.ibufBytes, List.getElem?_map]
  by_cases hi : i < p.length
  · simp [hi, State.ibufByte, h i hi]
  · simp [hi]

/-- A range of IBUF has its length whatever it reads as. -/
@[simp] theorem ibufBytes_length (s : State) (reading base n : Nat) :
    (s.ibufBytes reading base n).length = n := by
  simp [State.ibufBytes]

/-- A written WBUF reads as its record. -/
theorem wbufByte_of_holds (s : State) (reading : Nat) (r : Record) (h : s.wbufHolds r) (i : Nat) (hi : i < 256) :
    s.wbufByte reading i = r[i] := by
  have := h ⟨i, hi⟩
  simp only [State.wbufByte, this]
  rfl

/-- A written slot reads as its segment. -/
theorem slot_of_get? (s : State) (reading i : Nat) (g : Segment) (h : Memory.get? s.rb i = some g) :
    s.slot reading i = g := by
  simp [State.slot, h]

/-- A written entry of ORD reads as its slot index. -/
theorem ordEntry_of_get? (s : State) (reading n i : Nat) (h : Memory.get? s.ord n = some i) :
    s.ordEntry reading n = i := by
  simp [State.ordEntry, h]

/-- Under the invariant, PRES and ORD lead to the slot of the first arrival (spec/10_state.md R55). -/
theorem slot_ordEntry_of_presBit (s : State) (hs : s.Inv) (reading n : Nat) (hn : n < s.cfg.nslot)
    (hp : presBit s.pres n = true) :
    ∃ i g, i < s.count ∧ s.ordEntry reading n = i ∧ Memory.get? s.rb i = some g ∧ s.slot reading i = g ∧
      g.num.toNat = n ∧ ∀ j, j < i → s.slotNumber? j ≠ some n := by
  obtain ⟨i, hi, hc, hnum, hfirst⟩ := hs.order n hn hp
  obtain ⟨g, hg⟩ := Option.isSome_iff_exists.mp (hs.slotsWritten i hc)
  refine ⟨i, g, hc, ordEntry_of_get? _ _ _ _ hi, hg, slot_of_get? _ _ _ _ hg, ?_, hfirst⟩
  simpa [State.slotNumber?, hg] using hnum

end Sys2Proof.Machine
end

