-- ==== Sys2Proof/Laws/Step.lean ====
section
/-! SUPPORT. Said once: what a step can do. `perform_cases` inverts one host move, `step_cases` one step; proofs about steps
cite them and never unfold `step`. -/

namespace Sys2Proof.Machine

@[simp] theorem reg_ofIndex_index (r : Reg) : Reg.ofIndex r.index = some r := by
  cases r <;> rfl

/-- The memories after reset are in their canonical form. -/
theorem reset_memoriesWf : State.reset.memoriesWf = true := by
  simp [State.reset, State.powerUp, State.memoriesWf]

/-- What a host write other than a command can leave. -/
inductive WriteEffect (s : State) : State → Prop where
  | range : WriteEffect s (s.raise .range)
  | ilen (n : Nat) (h : n ≤ s.cfg.ibufCap) :
      WriteEffect s { s with ilen := n, scnt := 0, soff := 0, flags := { s.flags with more := false } }
  | segnum (v : Half) : WriteEffect s { s with seg := { s.seg with num := v } }
  | segcsum (v : Half) : WriteEffect s { s with seg := { s.seg with csum := v } }
  | segplen (n : Fin 253) : WriteEffect s { s with seg := { s.seg with plen := n } }
  | thresh (n : Fin 101) : WriteEffect s { s with thresh := n }
  | lfsr (old v : Half) (h : s.rng = .lfsr old) (hv : v ≠ 0) : WriteEffect s { s with rng := .lfsr v }
  | ibuf (index : Nat) (b : Byte) (h : index < s.cfg.ibufCap) :
      WriteEffect s { s with ibuf := Memory.write s.ibuf index [b] }
  | wbuf (index : Nat) (b : Byte) (h : index < 256) :
      WriteEffect s { s with wbuf := Memory.write s.wbuf index [b] }

/-- What a register write can do (spec/10_state.md R45). -/
theorem writeReg_cases (s t : State) (r : Reg) (v : Word) (h : s.writeReg r v = .next t) :
    WriteEffect s t := by
  cases r <;> simp only [State.writeReg, reduceCtorEq] at h
  case ilen =>
    split at h <;> cases h
    · exact .ilen _ ‹_›
    · exact .range
  case segnum => split at h <;> cases h; exacts [.segnum _, .range]
  case segcsum => split at h <;> cases h; exacts [.segcsum _, .range]
  case segplen => split at h <;> cases h; exacts [.segplen _, .range]
  case thresh => split at h <;> cases h; exacts [.thresh _, .range]
  case lfsr =>
    split at h
    · rename_i old hold
      split at h <;> cases h
      · rename_i hv
        refine .lfsr old _ hold ?_
        split
        · decide
        · rename_i h0
          intro hz
          apply h0
          apply BitVec.eq_of_toNat_eq
          have := congrArg BitVec.toNat hz
          simp at this ⊢
          omega
      · exact .range
    · cases h

/-- What a host write can do (spec/20_memory.md R66): run a command, or have one of the effects of R45 and R66. -/
theorem hostWrite_cases (s t : State) (space : Space) (index : Nat) (v : Word)
    (h : s.hostWrite space index v = .next t) :
    (space = .reg ∧ index = 0 ∧ s.command v = .next t) ∨ WriteEffect s t := by
  cases space <;> simp only [State.hostWrite, reduceCtorEq] at h
  case reg =>
    split at h
    · rename_i hr
      left
      refine ⟨rfl, ?_, h⟩
      unfold Reg.ofIndex at hr
      split at hr <;> simp at hr ⊢
    · exact .inr (writeReg_cases s t _ v h)
    · cases h
  case ibuf =>
    split at h
    · split at h <;> cases h
      exact .inr (.ibuf _ _ ‹_›)
    · cases h
  case wbuf =>
    split at h
    · split at h <;> cases h
      exact .inr (.wbuf _ _ ‹_›)
    · cases h

/-- What a command can do: run the operation it encodes, or raise E_ILLEGAL (R97). -/
theorem command_cases (s t : State) (w : Word) (h : s.command w = .next t) :
    (∃ i, decode w = .ok i ∧ exec i s = .next t) ∨
      ((∃ e, decode w = .error e) ∧ t = s.raise .illegal) := by
  unfold State.command at h
  split at h
  · exact .inl ⟨_, ‹_›, h⟩
  · cases h
    exact .inr ⟨⟨_, ‹_›⟩, rfl⟩

/-- What one host move can do. -/
theorem perform_cases (s t : State) (act : HostAction) (h : s.perform act = .next t) :
    (∃ space index v, act = .read space index ∧ s.hostRead space index = .ok v ∧ t = s.reply v) ∨
      (∃ w i, act = .write .reg 0 w ∧ decode w = .ok i ∧ exec i s = .next t) ∨
      (∃ w, act = .write .reg 0 w ∧ t = s.raise .illegal) ∨
      ((∃ space index v, act = .write space index v) ∧ WriteEffect s t) ∨
      (act = .reset ∧ t = s.resetEvent) := by
  cases act with
  | read space index =>
    simp only [State.perform] at h
    split at h
    · cases h
      exact .inl ⟨space, index, _, rfl, ‹_›, rfl⟩
    · cases h
  | write space index v =>
    simp only [State.perform] at h
    rcases hostWrite_cases s t space index v h with ⟨rfl, rfl, hc⟩ | he
    · rcases command_cases s t v hc with ⟨i, hi, hx⟩ | ⟨-, hx⟩
      · exact .inr (.inl ⟨v, i, rfl, hi, hx⟩)
      · exact .inr (.inr (.inl ⟨v, rfl, hx⟩))
    · exact .inr (.inr (.inr (.inl ⟨⟨_, _, _, rfl⟩, he⟩)))
  | reset =>
    cases h
    exact .inr (.inr (.inr (.inr ⟨rfl, rfl⟩)))

/-- A move over the transport answers a next state only where the transport does not fail, and then the move's own
(spec/46_protocol.md R252). -/
theorem viaTransport_next {failing : Bool} {move : Host.Outcome State Fault Refusal} {t : State}
    (h : viaTransport failing move = .next t) : move = .next t := by
  unfold viaTransport at h
  split at h
  · cases h
  · exact h

/-- A failing transport ends the session (spec/46_protocol.md R252). -/
@[simp] theorem viaTransport_true (move : Host.Outcome State Fault Refusal) :
    viaTransport true move = .fault .transportFailed := rfl

/-- A transport that does not fail leaves the move as it is. -/
@[simp] theorem viaTransport_false (move : Host.Outcome State Fault Refusal) : viaTransport false move = move := rfl

/-- A role's move changes the host and nothing of the block (spec/10_state.md R57). -/
theorem hostTurn_cases (s t : State) (h : s.hostTurn = .next t) :
    ∃ hs : HostSide, t = { s with host := hs } := by
  have same : ∀ u : State, u = { u with host := u.host } := fun _ => rfl
  unfold State.hostTurn at h
  split at h
  · cases h
    exact ⟨_, same _⟩
  · unfold serverTurn at h
    split at h
    · replace h := viaTransport_next h
      split at h
      · cases h; exact ⟨_, same _⟩
      · split at h <;> cases h
        exact ⟨_, rfl⟩
    · split at h <;> cases h <;> exact ⟨_, rfl⟩
    · replace h := viaTransport_next h
      split at h <;> cases h <;> exact ⟨_, rfl⟩
    · cases viaTransport_next h
      exact ⟨_, rfl⟩
  · unfold clientTurn at h
    split at h
    · cases h
      exact ⟨_, rfl⟩
    · split at h
      · cases viaTransport_next h
        exact ⟨_, rfl⟩
      · cases h
    · replace h := viaTransport_next h
      split at h <;> cases h
      · exact ⟨_, same _⟩
      · exact ⟨_, rfl⟩
    · replace h := viaTransport_next h
      split at h <;> cases h
      · exact ⟨_, same _⟩
      · exact ⟨_, rfl⟩
    · simp only at h
      split at h
      · cases h; exact ⟨_, rfl⟩
      · split at h <;> cases h <;> exact ⟨_, rfl⟩
    · cases h
      exact ⟨_, rfl⟩
    · cases h
      exact ⟨_, rfl⟩
    · cases h
      exact ⟨_, rfl⟩
    · cases h
      exact ⟨_, same _⟩

/-- The state in which the host's oldest pending access is performed. -/
def State.popped (s : State) (rest : List HostAction) : State :=
  { s with host := { s.host with pending := rest } }

/-- What a step can do: the host's own move when it has no access pending, else its oldest access. -/
theorem step_cases (s t : State) (h : step s = .next t) :
    (s.host.pending = [] ∧ ∃ hs : HostSide, t = { s with host := hs }) ∨
      (∃ act rest, s.host.pending = act :: rest ∧ (s.popped rest).perform act = .next t) := by
  unfold step State.advance at h
  split at h
  · exact .inl ⟨‹_›, hostTurn_cases s t h⟩
  · exact .inr ⟨_, _, ‹_›, h⟩

end Sys2Proof.Machine
end

