-- ==== Sys2Proof/Tests/Slice0.lean ====
section
/-! SUPPORT. The model's own tests: ill-formed operations refused, decode tests on words written out from spec/30_encoding.md
and V70, V71 of spec/95_test_vectors.md, one or two steps per operation with the results that file gives, and for every
statement with hypotheses a witness that meets them all. -/

namespace Sys2Proof.Tests

open Sys2Proof.Machine

-- One kernel evaluation at a time, so that the tests need no more memory than one of them.
set_option Elab.async false

/-! ### Small states -/

/-- `HW = "HELLO WORLD"` of spec/95_test_vectors.md. -/
def hello : List Byte := [0x48, 0x45, 0x4C, 0x4C, 0x4F, 0x20, 0x57, 0x4F, 0x52, 0x4C, 0x44]

/-- The wire record of `HW` (V20). -/
def helloRecord : Record := Vector.ofFn fun i => ([0x00, 0x00, 0x2E, 0xB2] ++ hello).getD i.val 0

/-- A segment with the payload `p`. -/
def segOf (num csum : Half) (p : List Byte) : Segment :=
  { num := num, csum := csum, plen := Fin.ofNat 253 p.length, pay := Vector.ofFn fun i => p.getD i.val 0 }

/-- A block with four slots and a 1024-byte input buffer, right after power-up. -/
def small : State := State.powerUp { nslot := 4, ibufCap := 1024 }

/-- `HW` in IBUF, SEG and WBUF; two slots, numbers 1 and 0 in this order. -/
def loaded : State :=
  { small with
    ilen := 11
    ibuf := cellsFrom 0 hello
    seg := segOf 0 0x2EB2 hello
    wbuf := Memory.write [] 0 helloRecord.toList
    rb := [(0, segOf 1 0xA7FF [0x58]), (1, segOf 0 0x2EB2 hello)]
    count := 2
    pres := [0, 1]
    ord := [(0, 1), (1, 0)]
    thresh := 100 }

/-- Two slots with the number 0. -/
def twice : State :=
  { small with
    rb := [(0, segOf 0 0x2EB2 hello), (1, segOf 0 0x2EB2 hello)]
    count := 2
    pres := [0]
    ord := [(0, 0)] }

/-- `loaded` with a draw source that answers `draws`. -/
def drawing (draws : List Nat) : State := { loaded with rng := .given draws 0 }

/-- `s` with a host in the role `r` and no access pending. -/
def hosting (s : State) (r : Role) : State := { s with host := { pending := [], replies := [], role := r } }

/-- `small` with a host in the role `r` whose last accesses returned `ws`, newest first. -/
def replying (r : Role) (ws : List Word) : State := { small with host := { pending := [], replies := ws, role := r } }

/-- A server that is to answer a request for `name`, with one resource in its store. -/
def serving (name : List Byte) : Server :=
  { state := .requestReceived name, requests := [], failing := false, store := [([0x61], [0x0A])], sent := [] }

/-- A client in the state `c`. -/
def receiver (c : ClientState) : Client :=
  { state := c, name := [0x61], probability := none, arrived := [], failing := false, requested := [] }

/-- The step answers a next state with the property `p`. -/
def answers (o : Host.Outcome State Fault Refusal) (p : State → Bool) : Bool :=
  match o with
  | .next t => p t
  | .fault _ => false
  | .refused _ => false

/-! ### Well-formed operations: an index operand of 17 bits is refused -/

theorem test_pget_index_bound :
    (Instr.pget 65535).wellFormed = true ∧ (Instr.pget 65536).wellFormed = false := by decide

theorem test_pset_index_bound :
    (Instr.pset 65535 0xFF).wellFormed = true ∧ (Instr.pset 65536 0xFF).wellFormed = false := by decide

theorem test_corruptr_index_bound :
    (Instr.corruptr 65535).wellFormed = true ∧ (Instr.corruptr 65536).wellFormed = false := by decide

/-! ### Decoding (V70, V71) -/

theorem test_decode_csumi : decode 0x10000000 = .ok .csumi := by decide
theorem test_decode_csums : decode 0x11000000 = .ok .csums := by decide
theorem test_decode_encode : decode 0x20000000 = .ok .encode := by decide
theorem test_decode_decode : decode 0x21000000 = .ok .decode := by decide
theorem test_decode_pget : decode 0x22000300 = .ok (.pget 3) := by decide
theorem test_decode_pset : decode 0x2300FBFF = .ok (.pset 251 0xFF) := by decide
theorem test_decode_seginit : decode 0x30000000 = .ok .seginit := by decide
theorem test_decode_segnext : decode 0x31000000 = .ok .segnext := by decide
theorem test_decode_rbclr : decode 0x40000000 = .ok .rbclr := by decide
theorem test_decode_rbpush : decode 0x41000000 = .ok .rbpush := by decide
theorem test_decode_reasm : decode 0x42000000 = .ok .reasm := by decide
theorem test_decode_corrupts : decode 0x50000000 = .ok .corrupts := by decide
theorem test_decode_corruptr : decode 0x51000200 = .ok (.corruptr 2) := by decide
theorem test_decode_detect : decode 0x60000000 = .ok .detect := by decide

/-- Top bytes without an operation (V71). -/
theorem test_decode_unknown_opcodes :
    decode 0x00000000 = .error (.unknownOpcode 0x00) ∧ decode 0xFFFFFFFF = .error (.unknownOpcode 0xFF) ∧
    decode 0x12000000 = .error (.unknownOpcode 0x12) ∧ decode 0x24000000 = .error (.unknownOpcode 0x24) ∧
    decode 0x43000000 = .error (.unknownOpcode 0x43) ∧ decode 0x52000000 = .error (.unknownOpcode 0x52) ∧
    decode 0x61000000 = .error (.unknownOpcode 0x61) := by decide

/-- Operand fields that must be zero (V71). -/
theorem test_decode_unused_fields :
    decode 0x60000001 = .error (.nonzeroUnusedField 0x60) ∧
    decode 0x10000100 = .error (.nonzeroUnusedField 0x10) ∧
    decode 0x22000301 = .error (.nonzeroUnusedField 0x22) := by decide

/-- No two rows of the opcode table share a word: two rows that do would agree where both masks look. -/
theorem test_rows_do_not_overlap :
    encodingRows.Pairwise fun r q => r.pattern &&& (r.mask &&& q.mask) ≠ q.pattern &&& (r.mask &&& q.mask) := by
  decide

/-! ### Steps -/

/-- V18. -/
theorem test_csumi :
    answers (exec .csumi loaded) (fun t => t.cksum == 0x2EB2 && t.err == .ok && t.seg.csum == 0x2EB2) = true := by
  decide +kernel

/-- V18: the empty buffer is no error. -/
theorem test_csumi_empty :
    answers (exec .csumi small) (fun t => t.cksum == 0xFFFF && t.err == .ok) = true := by decide +kernel

/-- V19. -/
theorem test_csums :
    answers (exec .csums { small with seg := segOf 0 0 [0x41, 0x42] })
      (fun t => t.cksum == 0xBEBD && t.seg.csum == 0) = true := by decide +kernel

/-- V20. -/
theorem test_encode :
    answers (exec .encode { small with seg := segOf 0 0x2EB2 hello })
      (fun t => (List.range 17).all fun i =>
        Memory.get? t.wbuf i == [0x00, 0x00, 0x2E, 0xB2, 0x48, 0x45, 0x4C, 0x4C, 0x4F, 0x20, 0x57, 0x4F, 0x52, 0x4C,
          0x44, 0x00, 0x00][i]?) = true := by decide +kernel

/-- V21. -/
theorem test_decode_record :
    answers (exec .decode loaded) (fun t => t.seg.num == 0 && t.seg.csum == 0x2EB2 && t.seg.plen.val == 252 &&
      t.seg.pay.toList.take 13 == hello ++ [0, 0] && !t.flags.z) = true := by decide +kernel

/-- V27: the header fields are big-endian. -/
theorem test_decode_header :
    answers (exec .decode { small with wbuf := cellsFrom 0 ([0xFF, 0xFE, 0x12, 0x34, 0x05] ++ List.replicate 251 0) })
      (fun t => t.seg.num == 0xFFFE && t.seg.csum == 0x1234 && !t.flags.z) = true := by decide +kernel

/-- V25. -/
theorem test_pget : answers (exec (.pget 10) loaded) (fun t => t.pdata == 0x44 && t.err == .ok) = true := by
  decide +kernel

/-- V25: the bound is SEGPLEN. -/
theorem test_pget_beyond :
    answers (exec (.pget 11) loaded) (fun t => t.err == .index && t.flags.ever && t.pdata == 0) = true := by
  decide +kernel

/-- The example of R136. -/
theorem test_pset :
    answers (exec (.pset 0 0xB7) loaded) (fun t => t.seg.byteAt 0 == 0xB7 && t.seg.byteAt 1 == 0x45 &&
      t.seg.csum == 0x2EB2) = true := by decide +kernel

/-- V25. -/
theorem test_pset_beyond :
    answers (exec (.pset 11 1) loaded) (fun t => t.err == .index && t.seg.byteAt 11 == 0) = true := by decide +kernel

/-- V31. -/
theorem test_seginit :
    answers (exec .seginit loaded) (fun t => t.scnt == 0 && t.soff == 0 && t.flags.value == 0x02) = true := by
  decide +kernel

/-- V33. -/
theorem test_seginit_empty :
    answers (exec .seginit small) (fun t => t.err == .empty && t.flags.value == 0x20) = true := by decide +kernel

/-- V31. -/
theorem test_segnext :
    answers (exec .segnext { loaded with flags := { loaded.flags with more := true } })
      (fun t => t.seg.num == 0 && t.seg.csum == 0x2EB2 && t.seg.payload == hello && t.scnt == 1 && t.soff == 11 && t.flags.value == 0x00) = true := by
  decide +kernel

/-- V33. -/
theorem test_segnext_sequence :
    answers (exec .segnext small) (fun t => t.err == .seq && t.flags.value == 0x20 && t.scnt == 0) = true := by
  decide +kernel

/-- R172. -/
theorem test_rbclr :
    answers (exec .rbclr loaded) (fun t => t.count == 0 && t.pres == [] && (t.slot 0 0).num == 1) = true := by
  decide +kernel

/-- The example of R174. -/
theorem test_rbpush :
    answers (exec .rbpush { small with seg := segOf 2 0xFCFF [0x03] })
      (fun t => (t.slot 0 0).num == 2 && (t.slot 0 0).payload == [0x03] && t.pres == [2] && t.ord == [(2, 0)] &&
        t.count == 1 && !t.flags.dup) = true := by decide +kernel

/-- V45. -/
theorem test_rbpush_full :
    answers (exec .rbpush { loaded with cfg := { nslot := 2, ibufCap := 1024 } })
      (fun t => t.err == .full && t.count == 2 && t.flags.ever) = true := by decide +kernel

/-- R176: number order, whatever the arrival order. -/
theorem test_reasm :
    answers (exec .reasm loaded) (fun t => t.olen == 12 && t.obuf == cellsFrom 0 (hello ++ [0x58]) && !t.flags.gap) =
      true := by decide +kernel

/-- R180: the second copy is counted and not copied. -/
theorem test_reasm_duplicate :
    answers (exec .reasm twice) (fun t => t.olen == 22 && t.flags.gap &&
      t.obuf == cellsFrom 0 (hello ++ List.replicate 11 0)) = true := by decide +kernel

/-- V53: three selections, two of them of byte 0. -/
theorem test_corrupts :
    answers (exec .corrupts (drawing [7, 60, 0, 4, 0])) (fun t => t.flags.hit &&
      t.seg.payload == [0x48, 0x45, 0x4C, 0x4C, 0xB0, 0x20, 0x57, 0x4F, 0x52, 0x4C, 0x44] &&
      t.rng == .given [] 5) = true := by decide +kernel

/-- V57: the reference generator on a decoded segment. -/
theorem test_corrupts_reference :
    answers (exec .corrupts { small with thresh := 100, seg := segOf 0 0x2EB2 (hello ++ List.replicate 241 0) })
      (fun t => t.flags.hit && t.rng == .lfsr 0x8815 && t.seg.byteAt 57 == 0xFF && t.seg.byteAt 61 == 0xFF) = true := by decide +kernel

/-- V59: four damaged bytes that the checksum misses. -/
theorem test_corruptr :
    answers (exec (.corruptr 0) { small with
        thresh := 100, rng := .lfsr 0x8815, count := 1, pres := [0], ord := [(0, 0)],
        rb := [(0, segOf 0 0x2EB2 (hello ++ List.replicate 241 0))] })
      (fun t => t.flags.hit && t.rng == .lfsr 0x60C1 && checksum (t.slot 0 0).payload == 0x2EB2) = true := by decide +kernel

/-- V49. -/
theorem test_corruptr_free_slot :
    answers (exec (.corruptr 2) loaded) (fun t => t.err == .slot && t.rng == .lfsr 0xACE1) = true := by decide +kernel

/-- R231: nothing is flagged. -/
theorem test_detect : answers (exec .detect loaded) (fun t => t.nflag == 0 && t.err == .ok) = true := by
  decide +kernel

/-- V62: a damaged checksum field. -/
theorem test_detect_damaged :
    answers (exec .detect { loaded with rb := [(0, segOf 1 0xA7FF [0x58]), (1, segOf 0 0x2EB3 hello)] })
      (fun t => t.nflag == 1 && Memory.get? t.flg 0 == some 0 && !t.flags.ever) = true := by decide +kernel

/-- The command register runs the operation of the word, and an illegal word aborts (R22, R97). -/
theorem test_command_step :
    answers (step (loaded.withFetchWord 32 0x10000000)) (fun t => t.cksum == 0x2EB2 && t.host.pending == []) = true ∧
    answers (step (loaded.withFetchWord 32 0x12000000)) (fun t => t.err == .illegal && t.flags.value == 0x20) =
      true := by decide +kernel

/-- V33, V35: a write of ILEN clears the cursor, a write above IBUF_CAP does not. -/
theorem test_ilen_write :
    answers (loaded.perform (.write .reg 3 1024)) (fun t => t.ilen == 1024 && t.err == .ok) = true ∧
    answers (loaded.perform (.write .reg 3 1025)) (fun t => t.ilen == 11 && t.err == .range) = true := by
  decide +kernel

/-- Every check of the interface contract (R67), with an access that fails it. -/
theorem test_refused_accesses :
    small.perform (.read .reg 0) = .refused .readOfCmd ∧
    small.perform (.write .reg 1 0) = .refused (.readOnlyRegister 1) ∧
    small.perform (.write .obuf 0 0) = .refused (.readOnlySpace .obuf) ∧
    small.perform (.read .rb 0) = .refused (.internalSpace .rb) ∧
    small.perform (.read .ibuf 1024) = .refused (.indexOutOfSpace .ibuf 1024) ∧
    small.perform (.write .wbuf 255 256) = .refused (.valueTooWide .wbuf 255) ∧
    (drawing []).perform (.read .reg 13) = .refused .lfsrNotVisible := by
  refine ⟨rfl, rfl, rfl, rfl, ?_, ?_, rfl⟩ <;> rfl

/-! ### Witnesses: a state and operands that meet all hypotheses of a statement together -/

/-- Equal but for the host: the invariant does not look at it. -/
theorem test_invariant_ignores_host (s : State) (r : Role) (hs : s.Inv) : (hosting s r).Inv :=
  ⟨hs.1, hs.2, hs.3, hs.4, hs.5, hs.6, hs.7, hs.8, hs.9, hs.10, hs.11, hs.12, hs.13, hs.14⟩

theorem test_witness_invariant_small : small.Inv :=
  ⟨by decide, by decide, by decide, by decide, by decide, by decide, by decide, by decide, by decide, by decide,
    by decide, by decide, by decide, by intro n _ h; cases h⟩

theorem test_witness_loaded_memories : loaded.memoriesWf = true := by
  have hw : Memory.wf Config.total loaded.wbuf = true := wf_write _ _ _ _ (wf_nil _) (by simp [Config.total])
  simp only [State.memoriesWf, hw]
  decide +kernel

theorem test_witness_invariant_loaded : loaded.Inv := by
  refine ⟨by decide, test_witness_loaded_memories, by decide, by decide, by decide, by decide, by decide, by decide, by decide,
    by decide, by decide, by decide +kernel, by decide +kernel, ?_⟩
  intro n hn _
  have : n = 0 ∨ n = 1 := by
    have : loaded.pres.contains n = true := by assumption
    simpa [loaded] using this
  rcases this with rfl | rfl
  · exact ⟨1, rfl, by decide, by decide +kernel, by decide +kernel⟩
  · exact ⟨0, rfl, by decide, by decide +kernel, by decide +kernel⟩

theorem test_witness_invariant_twice : twice.Inv := by
  refine ⟨by decide, by decide +kernel, by decide, by decide, by decide, by decide, by decide, by decide, by decide,
    by decide, by decide, by decide +kernel, by decide +kernel, ?_⟩
  intro n hn _
  have : n = 0 := by
    have : twice.pres.contains n = true := by assumption
    simpa [twice] using this
  subst this
  exact ⟨0, rfl, by decide, by decide +kernel, by decide +kernel⟩

/-! Encoding. -/

theorem test_witness_encode :
    Instr.csumi.wellFormed = true ∧ (Instr.pget 0).wellFormed = true ∧ (Instr.pset 65535 0xFF).wellFormed = true ∧
    (Instr.corruptr 65535).wellFormed = true := by decide

theorem test_witness_legal_word :
    decode 0x22FFFF00 = .ok (.pget 65535) ∧ decode 0x23FFFFFF = .ok (.pset 65535 0xFF) := by decide

theorem test_witness_table_row :
    ⟨"PSET", 0x23000000, 0xFF000000⟩ ∈ encodingRows ∧
    EncodingRow.matches ⟨"PSET", 0x23000000, 0xFF000000⟩ 0x23FFFFFF = true := by decide

theorem test_witness_illegal_and_legal :
    illegalWord 0x0FFFFFFF = true ∧ illegalWord 0x10000001 = true ∧ illegalWord 0x22000001 = true ∧
    illegalWord 0x23FFFFFF = false ∧ illegalWord 0x51FFFF00 = false := by decide

theorem test_witness_step :
    (small.withFetchWord 32 0x10000000).host.pending = .write .reg 0 0x10000000 :: [] ∧
    decode 0x10000000 = .ok .csumi ∧ decodeTableWord 32 0x10000000 = some .csumi := by decide

theorem test_witness_waiting :
    small.host.pending = [] ∧ small.host.role = .external ∧
    (hosting small (.client (receiver .receiving))).host.pending = [] ∧ (receiver .receiving).arrived = [] ∧
    (receiver .requestSent).arrived = [] ∧ (receiver .receiving).failing = false ∧
    (receiver (.done .notFound)).state = .done .notFound ∧
    { serving [] with state := .idle }.requests = [] ∧ { serving [] with state := .idle }.failing = false := by decide

/-! Checksum. -/

theorem test_witness_accumulator : foldAdd 0xFFFF 0xFFFF = 0xFFFF ∧ 0xFFFF + 0xFFFF > 0xFFFF := by decide

theorem test_witness_closed_form :
    (∀ w ∈ wordsOf [0x00], w = 0) ∧ (¬ ∀ w ∈ wordsOf hello, w = 0) ∧
    (wordsOf [0x12, 0x34, 0x56, 0x78]).Perm (wordsOf [0x56, 0x78, 0x12, 0x34]) := by decide

theorem test_witness_one_changed_byte : 10 < hello.length ∧ hello[10]? ≠ some 0x45 := by decide

theorem test_witness_input_written : loaded.ilen = hello.length ∧ loaded.ibufHolds 0 hello := by
  refine ⟨rfl, ?_⟩
  unfold State.ibufHolds
  decide +kernel

theorem test_witness_wire_written : loaded.wbufHolds helloRecord := by
  intro i
  have h := get?_write ([] : Memory Byte) 0 helloRecord.toList i.val
  rw [if_pos (by simp)] at h
  exact h.trans (by simp)

theorem test_witness_hello_record :
    ∀ i : Fin 256, helloRecord[i] = ([0x00, 0x00, 0x2E, 0xB2, 0x48, 0x45, 0x4C, 0x4C, 0x4F, 0x20, 0x57, 0x4F, 0x52,
      0x4C, 0x44] : List Byte).getD i.val 0 := by
  intro i
  simp [helloRecord, hello]

/-! Codec. -/

theorem test_witness_equal_records :
    (segOf 0 0 [0x41]).num = (segOf 0 0 [0x41, 0x00]).num ∧ (segOf 0 0 [0x41]).csum = (segOf 0 0 [0x41, 0x00]).csum ∧
    (segOf 0 0 [0x41]).payload ++ List.replicate (252 - (segOf 0 0 [0x41]).plen.val) 0 =
      (segOf 0 0 [0x41, 0x00]).payload ++ List.replicate (252 - (segOf 0 0 [0x41, 0x00]).plen.val) 0 := by
  decide +kernel

theorem test_witness_checksum_in_place : loaded.seg.csum = checksum loaded.seg.payload := by decide +kernel

theorem test_witness_payload_bounds :
    10 < loaded.seg.plen.val ∧ loaded.seg.plen.val ≤ 11 ∧ small.seg.plen.val ≤ 0 := by decide

/-! Segmenter. -/

theorem test_witness_seginit : loaded.ilen ≠ 0 ∧ small.ilen = 0 := by decide

theorem test_witness_segnext :
    { loaded with flags := { loaded.flags with more := true } }.flags.more = true ∧
    hello.length = min 252 (loaded.ilen - loaded.soff) ∧ loaded.ibufHolds loaded.soff hello ∧
    loaded.flags.more = false :=
  ⟨rfl, by decide, test_witness_input_written.2, rfl⟩

theorem test_witness_segments : hello ≠ [] ∧ hello.length ≤ 65536 * 252 ∧ 252 * 0 < hello.length ∧
    ((segmentsOf hello)[0]?.map Segment.num) = some 0 := by decide +kernel

theorem test_witness_emission : hello ≠ [] ∧ loaded.ilen = hello.length ∧ loaded.ibufHolds 0 hello ∧
    (hello.length + 251) / 252 < 2 :=
  ⟨by decide, test_witness_input_written.1, test_witness_input_written.2, by decide⟩

/-! Reorder buffer. -/

theorem test_witness_push :
    loaded.count ≠ loaded.cfg.nslot ∧ { loaded with cfg := { nslot := 2, ibufCap := 1024 } }.count = 2 := by decide

theorem test_witness_all_numbers :
    [segOf 0 0x2EB2 hello, segOf 1 0xA7FF [0x58]].Perm loaded.collection ∧
    ∀ (p : Nat) (g : Segment), [segOf 0 0x2EB2 hello, segOf 1 0xA7FF [0x58]][p]? = some g → g.num.toNat = p := by
  refine ⟨List.Perm.swap _ _ _, ?_⟩
  intro p g h
  match p with
  | 0 => cases h; rfl
  | 1 => cases h; rfl
  | p + 2 => simp at h

theorem test_witness_duplicate : twice.count = 2 ∧ (twice.slot 0 0).num = (twice.slot 0 1).num := by decide

theorem test_witness_any_order :
    (segmentsOf hello).Perm (segmentsOf hello) ∧
    ((segmentsOf hello).map throughCodec).Perm ((segmentsOf hello).map throughCodec) := ⟨.refl _, .refl _⟩

/-! Injector. -/

theorem test_witness_payloads :
    loaded.seg.plen.val ≠ 0 ∧ small.seg.plen.val = 0 ∧ 1 < loaded.count ∧ (loaded.slot 0 1).plen.val ≠ 0 ∧
    loaded.count ≤ 2 ∧ ({ loaded with rb := [(0, segOf 0 0xFFFF [])] }.slot 0 0).plen.val = 0 := by decide

theorem test_witness_draws :
    (drawing [100, 50, 10, 0, 7]).rng = .given (100 :: 50 :: ([10, 0] ++ [7])) 0 ∧ [10, 0].length = selections 50 ∧
    [10, 0, 10].length = selections 80 ∧ [10, 0, 10, 0].length = selections 100 ∧
    100 ≤ (drawing []).thresh.val ∧ (∀ i ∈ [10, 0], i < (drawing []).seg.plen.val) ∧
    (∀ i ∈ [10, 0], i < ((drawing []).slot 0 1).plen.val) ∧
    { drawing [30, 50, 10, 0, 7] with thresh := 29 }.thresh.val < 30 := by decide

/-- Both branches of the reference generator's decision: from 0xACE1 the first two draws are 11 and 32 (R216). -/
theorem test_witness_reference_draws :
    loaded.rng = .lfsr 0xACE1 ∧ 1 + (Nat.iterate lfsrStep 16 0xACE1).toNat % 100 = 11 ∧
    1 + (Nat.iterate lfsrStep 32 0xACE1).toNat % 100 = 32 ∧ 11 ≤ loaded.thresh.val ∧
    { loaded with thresh := 10 }.thresh.val < 11 ∧ loaded.seg.plen.val ≠ 0 ∧ 1 < loaded.count ∧
    (loaded.slot 0 1).plen.val ≠ 0 := by decide +kernel

theorem test_witness_threshold :
    { loaded with thresh := 0 }.thresh.val = 0 ∧ loaded.thresh.val = 100 ∧ loaded.seg.plen.val ≠ 0 ∧
    1 < loaded.count ∧ (loaded.slot 0 1).plen.val ≠ 0 := by decide

theorem test_witness_reference :
    loaded.rng = .lfsr 0xACE1 ∧ loaded.thresh.val = 100 ∧ (segOf 0 0 (List.replicate 252 0)).plen.val = 252 := by
  decide +kernel

theorem test_witness_generator_step : small.rng = .lfsr 0xACE1 ∧ (0xACE1 : Half) ≠ 0 ∧ step small = .next small :=
  ⟨rfl, by decide +kernel, rfl⟩

/-! Detector. -/

theorem test_witness_damaged_slot :
    { loaded with rb := [(0, segOf 0 0x2EB2 (hello.set 10 0x45))] }.slot 0 0 = segOf 0 0x2EB2 (hello.set 10 0x45) ∧
    (segOf 0 0x2EB2 (hello.set 10 0x45)).csum = checksum hello ∧
    (segOf 0 0x2EB2 (hello.set 10 0x45)).payload = hello.set 10 0x45 := by
  refine ⟨rfl, ?_⟩
  decide +kernel

theorem test_witness_intact_slots :
    ∀ i, i < loaded.count → (loaded.slot 0 i).csum = checksum (loaded.slot 0 i).payload := by decide +kernel

/-! Errors and host accesses. -/

theorem test_witness_outcomes :
    answers (exec .seginit small) (fun t => t.err != .ok) = true ∧
    answers (exec .rbclr small) (fun t => t.err == .ok) = true := by decide +kernel

theorem test_witness_register_values :
    (1024 : Word).toNat ≤ small.cfg.ibufCap ∧ (65535 : Word).toNat ≤ 65535 ∧ (252 : Word).toNat ≤ 252 ∧
    (100 : Word).toNat ≤ 100 ∧ 65535 < (65536 : Word).toNat ∧ 252 < (253 : Word).toNat ∧ 100 < (101 : Word).toNat ∧
    small.rng = .lfsr 0xACE1 ∧ small.lfsrVisible = true := by decide

theorem test_witness_register_table : (0x1, 0) ∈ small.registerTable ∧ (0xD, 0xACE1) ∈ small.registerTable := by decide

theorem test_witness_read_indices :
    1023 < small.cfg.ibufCap ∧ 1007 < small.cfg.nslot * 252 ∧ 3 < small.cfg.nslot ∧
    Memory.get? loaded.ibuf 10 = some 0x44 := by decide +kernel

theorem test_witness_contract :
    small.inContract (.read .reg 0xF) = true ∧ small.inContract (.read .reg 0x10) = false ∧
    small.inContract (.write .ibuf 1023 255) = true ∧ small.inContract (.write .ibuf 1023 256) = false ∧
    (drawing []).inContract (.read .reg 0xD) = false ∧ small.inContract .reset = true := by decide

theorem test_witness_sticky :
    (small.raise .full).flags.ever = true ∧ (small.raise .full).host.pending = [] ∧
    step (small.raise .full) = .next (small.raise .full) := ⟨rfl, rfl, rfl⟩

theorem test_witness_sticky_invariant : (small.raise .full).Inv :=
  ⟨by decide, by decide, by decide, by decide, by decide, by decide, by decide, by decide, by decide, by decide,
    by decide, by decide, by decide, by intro n _ h; cases h⟩

theorem test_witness_idempotent :
    idempotent .reasm = true ∧ loaded.Inv ∧ (∀ a, a < loaded.ilen → (Memory.get? loaded.ibuf a).isSome = true) ∧
    (∀ a, a < 256 → (Memory.get? loaded.wbuf a).isSome = true) := by
  refine ⟨rfl, test_witness_invariant_loaded, by decide +kernel, ?_⟩
  intro a ha
  rw [test_witness_wire_written ⟨a, ha⟩]
  rfl

theorem test_witness_step_keeps : loaded.Inv ∧ step loaded = .next loaded := ⟨test_witness_invariant_loaded, rfl⟩

/-! Protocol. -/

/-- Both outcomes of the client's test, with and without data segments before it. -/
theorem test_witness_client :
    (hosting loaded (.client (receiver .decoding))).Inv ∧ (hosting small (.client (receiver .decoding))).Inv ∧
    (hosting small (.client (receiver .decoding))).count = 0 ∧
    (hosting loaded (.client (receiver .decoding))).count ≠ 0 ∧
    helloRecord[4] ≠ 0 ∧ (Vector.replicate 256 (0 : Byte))[4] = 0 :=
  ⟨test_invariant_ignores_host _ _ test_witness_invariant_loaded,
    test_invariant_ignores_host _ _ test_witness_invariant_small, rfl, by decide, by decide +kernel, by simp⟩

theorem test_witness_server :
    (hosting small (.server (serving [0x61]))).host.pending = [] ∧
    (serving [0x61]).store.lookup [0x61] = some [0x0A] ∧ (serving [0x62]).store.lookup [0x62] = none := by decide

/-- A request of the form of R243, a line that is none, and a name that makes none. -/
theorem test_witness_request :
    isLine (requestText [0x61]) = true ∧ isLine (requestText [0x61, 0x0A]) = false ∧
    isLine (requestText [0xE4]) = false ∧ { serving [] with state := .idle }.failing = false ∧
    { serving [] with state := .idle, requests := [requestLine [0x61]] }.requests = requestLine [0x61] :: [] :=
  ⟨by decide, by decide, by decide, rfl, rfl⟩

/-- A line that is ASCII and still no request, and the line of a name that is not ASCII. -/
theorem test_witness_no_request :
    (∀ name, [0x50, 0x55, 0x54] = requestLine name → isLine (requestText name) = false) ∧
    (∀ name, requestLine [0x80] = requestLine name → isLine (requestText name) = false) := by
  refine ⟨fun name h => ?_, fun name h => ?_⟩
  · have := congrArg List.length h
    simp only [requestLine_length, List.length_cons, List.length_nil] at this
    omega
  · cases requestLine_inj _ _ h
    decide

/-- The text of a request, byte by byte, and the name a request line holds, be it empty or with a space in it. -/
theorem test_parse_request :
    requestText [0x61, 0x2E, 0x62] = [0x47, 0x45, 0x54, 0x20, 0x61, 0x2E, 0x62, 0x20, 0x48, 0x54, 0x54, 0x50, 0x2F, 0x31,
      0x2E, 0x30] ∧
    parseRequest (requestLine [0x61, 0x2E, 0x62]) = some [0x61, 0x2E, 0x62] ∧
    parseRequest (requestLine []) = some [] ∧ parseRequest (requestLine [0x61, 0x20, 0x62]) = some [0x61, 0x20, 0x62] := by
  simp only [parseRequest_eq_some]
  exact ⟨by decide, ⟨by decide, trivial⟩, ⟨by decide, trivial⟩, by decide, trivial⟩

/-- A server that has read out `HW`'s record, with MORE = 1 and with MORE = 0. -/
theorem test_witness_streaming (status : Word) :
    (replying (.server { serving [] with state := .streaming })
      (status :: (helloRecord.toList.map fun b => b.setWidth 32).reverse)).host.pending = [] ∧
    { serving [] with state := .streaming }.state = .streaming ∧
    { serving [] with state := .streaming }.failing = false ∧ (2 : Word).getLsbD 1 = true ∧
    (0 : Word).getLsbD 1 = false := ⟨rfl, rfl, rfl, by decide, by decide⟩

/-- A client at each of the five moves of ClientStartsAndDelivers. -/
theorem test_witness_delivering :
    (receiver .idle).probability = none ∧ { receiver .idle with probability := some (1, 2) }.state = .idle ∧
    (receiver .starting).failing = false ∧ isLine (requestText (receiver .starting).name) = true ∧
    (replying (.client (receiver .detecting)) [2]).host.replies = [2] ∧
    (replying (.client (receiver .reassembling)) [252, 7, 5]).host.replies = 252 :: [5, 7].reverse ∧
    (replying (.client (receiver (.handingOver [5, 7]))) [0x42, 0x41]).host.replies =
      (([0x41, 0x42] : List Byte).map fun b => b.setWidth 32).reverse := by
  refine ⟨rfl, rfl, rfl, by decide, rfl, rfl, by decide⟩

/-- The first row of R242: RBCLR goes before the request line. -/
theorem test_client_start :
    answers (step (hosting small (.client (receiver .idle)))) (fun t => t.host.pending == [.write .reg 0 0x40000000] &&
      t.host.role == .client (receiver .starting)) = true ∧
    step (hosting small (.client (receiver .starting))) =
      .next (hosting small (.client { receiver .requestSent with requested := [requestLine [0x61]] })) :=
  ⟨by decide +kernel, rfl⟩

/-- A role that uses the transport when it fails. -/
theorem test_witness_failing :
    (hosting small (.server { serving [] with state := .streaming, failing := true })).host.pending = [] ∧
    { serving [] with state := .idle, failing := true }.failing = true ∧
    { serving [] with state := .sentinelSent, failing := true }.state = .sentinelSent ∧
    { receiver .starting with failing := true }.failing = true ∧
    isLine (requestText { receiver .starting with failing := true }.name) = true := by decide

/-- Two flag records with the same MORE. -/
theorem test_witness_flags : { small.flags with ever := true }.more = small.flags.more := rfl

theorem test_witness_transfer :
    Transfer.Moves { server := small, client := hosting small (.client (receiver .receiving)) }
      { server := small, client := (hosting small (.client (receiver .receiving))).failTransport } ∧
    ∀ (c : Client) (r : Record), (hosting small (.client (receiver .receiving))).host.role = .client c →
      r ∈ c.arrived → r ∈ small.sentRecords := by
  refine ⟨.failAtClient _, ?_⟩
  intro c r hc hr
  cases hc
  cases hr

end Sys2Proof.Tests
end

section
/-! The host's register writes (spec/10_state.md R45): which values are legal for each RW register, what a legal value
leaves and that every other value raises E_RANGE. -/

namespace Sys2Proof.Machine

/-- A host write to a register other than CMD is that register's write. -/
theorem perform_write_reg (s : State) (r : Reg) (v : Word) (hr : r ≠ .cmd) :
    s.perform (.write .reg r.index v) = s.writeReg r v := by
  cases r
  case cmd => exact absurd rfl hr
  all_goals rfl

theorem writeReg_segnum_legal (s : State) (v : Word) (hv : v.toNat ≤ 65535) :
    s.writeReg .segnum v = .next { s with seg := { s.seg with num := v.setWidth 16 } } := if_pos hv

theorem writeReg_segcsum_legal (s : State) (v : Word) (hv : v.toNat ≤ 65535) :
    s.writeReg .segcsum v = .next { s with seg := { s.seg with csum := v.setWidth 16 } } := if_pos hv

theorem writeReg_segplen_legal (s : State) (v : Word) (hv : v.toNat ≤ 252) :
    s.writeReg .segplen v =
      .next { s with seg := { s.seg with plen := ⟨v.toNat, Nat.lt_succ_of_le hv⟩ } } :=
  dif_pos (Nat.lt_succ_of_le hv)

theorem writeReg_thresh_legal (s : State) (v : Word) (hv : v.toNat ≤ 100) :
    s.writeReg .thresh v = .next { s with thresh := ⟨v.toNat, Nat.lt_succ_of_le hv⟩ } :=
  dif_pos (Nat.lt_succ_of_le hv)

theorem writeReg_lfsr_legal (s : State) (v : Word) (old : Half) (hs : s.rng = .lfsr old) (hv : v.toNat ≤ 65535) :
    s.writeReg .lfsr v = .next { s with rng := .lfsr (if v = 0 then 0xACE1 else v.setWidth 16) } := by
  simp only [State.writeReg, hs, if_pos hv]

/-- A value that fits a word16 is stored as it is. -/
theorem setWidth_toNat_of_le (v : Word) (hv : v.toNat ≤ 65535) : (v.setWidth 16 : Half).toNat = v.toNat := by
  rw [BitVec.toNat_setWidth, Nat.mod_eq_of_lt (Nat.lt_succ_of_le hv)]

/-- LFSR takes 0xACE1 for 0, so that it never locks up (R42). -/
theorem lfsrLoad_toNat (v : Word) (hv : v.toNat ≤ 65535) :
    (if v = 0 then 0xACE1 else v.setWidth 16 : Half).toNat = if v.toNat = 0 then 0xACE1 else v.toNat := by
  have hz : v = 0 ↔ v.toNat = 0 := BitVec.toNat_inj.symm
  by_cases h0 : v = 0
  · rw [if_pos h0, if_pos (hz.mp h0)]
    rfl
  · rw [if_neg h0, if_neg (mt hz.mpr h0), setWidth_toNat_of_le v hv]

/-- The greatest legal value of a register that the host can write, CMD aside (R21, R45; LFSR where it is visible,
R42). -/
def State.writeLimit? (s : State) (r : Reg) : Option Nat :=
  match r with
  | .ilen => some s.cfg.ibufCap
  | .segnum => some 65535
  | .segcsum => some 65535
  | .segplen => some 252
  | .thresh => some 100
  | .lfsr => if s.lfsrVisible then some 65535 else none
  | _ => none

/-- A value above the register's limit raises E_RANGE and does nothing else. -/
theorem writeReg_above_limit (s : State) (r : Reg) (v : Word) (limit : Nat)
    (hr : s.writeLimit? r = some limit) (hv : limit < v.toNat) : s.writeReg r v = .next (s.raise .range) := by
  cases r <;> simp only [State.writeLimit?, Option.some.injEq, reduceCtorEq] at hr
  case lfsr =>
    cases hs : s.rng with
    | lfsr old =>
      have hl : 65535 = limit := by simpa [State.lfsrVisible, hs] using hr
      subst hl
      simp only [State.writeReg, hs, if_neg (Nat.not_le.mpr hv)]
    | given answers taken => simp [State.lfsrVisible, hs] at hr
  case segplen => subst hr; exact dif_neg (by omega)
  case thresh => subst hr; exact dif_neg (by omega)
  all_goals subst hr; exact if_neg (Nat.not_le.mpr hv)

/-- Each register that R45 gives a fixed limit, at its index in space REG: the limit is the register's. -/
theorem writeLimit?_of_mem (s : State) (index limit : Nat)
    (h : (index, limit) ∈ [(0x5, 65535), (0x6, 65535), (0x7, 252), (0xC, 100), (0xD, 65535)])
    (hl : index = 0xD → s.lfsrVisible = true) :
    ∃ r : Reg, r ≠ .cmd ∧ r.index = index ∧ s.writeLimit? r = some limit := by
  simp only [List.mem_cons, Prod.mk.injEq, List.not_mem_nil, or_false] at h
  rcases h with ⟨rfl, rfl⟩ | ⟨rfl, rfl⟩ | ⟨rfl, rfl⟩ | ⟨rfl, rfl⟩ | ⟨rfl, rfl⟩
  · exact ⟨.segnum, by decide, rfl, rfl⟩
  · exact ⟨.segcsum, by decide, rfl, rfl⟩
  · exact ⟨.segplen, by decide, rfl, rfl⟩
  · exact ⟨.thresh, by decide, rfl, rfl⟩
  · exact ⟨.lfsr, by decide, rfl, if_pos (hl rfl)⟩

/-- Settles O44: each register's legal write by its own lemma, every other value by `writeReg_above_limit`. -/
theorem registerWritesAreRangeChecked : Obligations.RegisterWritesAreRangeChecked := by
  intro s v
  refine ⟨rfl, fun hv => ?_, fun hv => ?_, fun hv => ?_, fun hv => ?_, fun old hs hv => ?_, ?_⟩
  · exact ⟨_, writeReg_segnum_legal s v hv, setWidth_toNat_of_le v hv, rfl⟩
  · exact ⟨_, writeReg_segcsum_legal s v hv, setWidth_toNat_of_le v hv, rfl⟩
  · exact ⟨_, writeReg_segplen_legal s v hv, rfl, rfl⟩
  · exact ⟨_, writeReg_thresh_legal s v hv, rfl, rfl⟩
  · exact ⟨_, _, writeReg_lfsr_legal s v old hs hv, rfl, lfsrLoad_toNat v hv⟩
  · intro index limit hmem hv hvis
    obtain ⟨r, hr, rfl, hlimit⟩ := writeLimit?_of_mem s index limit hmem hvis
    exact (perform_write_reg s r v hr).trans (writeReg_above_limit s r v limit hlimit hv)

end Sys2Proof.Machine
end

section
/-! The report of errors, ERR and STATUS.EVER (spec/10_state.md R36): what each kind of move does to it. -/

namespace Sys2Proof.Machine

/-- The report of `t` follows from that of `s` with no reset between: EVER is set, or EVER stays and ERR stays or is
cleared. -/
def reportFollows (s t : State) : Prop :=
  t.flags.ever = true ∨ (t.flags.ever = s.flags.ever ∧ (t.err = s.err ∨ t.err = .ok))

theorem reportFollows_of_eq {s t : State} (hf : t.flags.ever = s.flags.ever) (he : t.err = s.err) :
    reportFollows s t := .inr ⟨hf, .inl he⟩

theorem reportFollows_raise (s : State) (e : ErrCode) : reportFollows s (s.raise e) := .inl rfl

/-- An operation reports E_OK and keeps EVER, or raises an error and sets it. -/
theorem exec_reportFollows (i : Instr) (s t : State) (h : exec i s = .next t) : reportFollows s t := by
  rcases exec_cases i s with ⟨e, -, hx⟩ | ⟨u, -, hx, -, -, -, -, -, -, hever⟩
  · cases hx.symm.trans h
    exact reportFollows_raise s e
  · cases hx.symm.trans h
    exact .inr ⟨hever, .inr rfl⟩

theorem WriteEffect.reportFollows {s t : State} (h : WriteEffect s t) : reportFollows s t := by
  cases h with
  | range => exact reportFollows_raise s .range
  | _ => exact reportFollows_of_eq rfl rfl

/-- Every host move other than the reset event. -/
theorem perform_reportFollows (s t : State) (act : HostAction) (hact : act ≠ .reset)
    (h : s.perform act = .next t) : reportFollows s t := by
  rcases perform_cases s t act h with
    ⟨_, _, v, -, -, rfl⟩ | ⟨_, i, -, -, hx⟩ | ⟨_, -, rfl⟩ | ⟨-, hw⟩ | ⟨hreset, -⟩
  · exact reportFollows_of_eq rfl rfl
  · exact exec_reportFollows i s t hx
  · exact reportFollows_raise s .illegal
  · exact hw.reportFollows
  · exact absurd hreset hact

/-- A step is the reset event, which leaves ERR = E_OK (R58), or the report follows. -/
theorem step_reportFollows (s t : State) (h : step s = .next t) :
    (t.err = .ok ∧ ∃ rest, s.host.pending = .reset :: rest) ∨ reportFollows s t := by
  rcases step_cases s t h with ⟨-, _, rfl⟩ | ⟨act, rest, hp, hact⟩
  · exact .inr (reportFollows_of_eq rfl rfl)
  · by_cases hr : act = .reset
    · subst hr
      cases hact
      exact .inl ⟨rfl, rest, hp⟩
    · exact .inr (perform_reportFollows (s.popped rest) t act hr hact)

/-- A report that follows keeps R36: an error code in ERR means that EVER is set. -/
theorem reportFollows.errorRecorded {s t : State} (h : reportFollows s t)
    (hs : s.err ≠ .ok → s.flags.ever = true) (ht : t.err ≠ .ok) : t.flags.ever = true := by
  rcases h with hset | ⟨hever, herr | hok⟩
  · exact hset
  · exact hever.trans (hs (herr ▸ ht))
  · exact absurd hok ht

/-- A report that follows keeps EVER set. -/
theorem reportFollows.ever {s t : State} (h : reportFollows s t) (hs : s.flags.ever = true) :
    t.flags.ever = true := by
  rcases h with hset | ⟨hever, -⟩
  · exact hset
  · exact hever.trans hs

/-- Settles O48: every step but the reset event carries the report on, and the reset event leaves no error code. -/
theorem everIsStickyUntilReset : Obligations.EverIsStickyUntilReset := by
  intro s t hs h
  rcases step_reportFollows s t h with ⟨hok, rest, hp⟩ | hf
  · exact ⟨fun ht => absurd hok ht, fun _ hreset => absurd hp (hreset rest)⟩
  · exact ⟨hf.errorRecorded hs.errorRecorded, fun hever _ => hf.ever hever⟩

end Sys2Proof.Machine
end

section
/-! The illegal command words (spec/30_encoding.md R97): the list of R97 speaks of opcodes and of remainders, the decoder of
formats and of fields; here each format's opcodes and each field's remainder are stated once, and the two agree. -/

namespace Sys2Proof

/-- The opcodes of R94 whose operations carry no operand (format N). -/
def formatNOpcodes : List Nat := [0x10, 0x11, 0x20, 0x21, 0x30, 0x31, 0x40, 0x41, 0x42, 0x50, 0x60]

/-- The opcodes of R94 whose operations carry an index operand only (format A). -/
def formatAOpcodes : List Nat := [0x22, 0x51]

/-- The opcodes of R94. -/
def knownOpcodes : List Nat :=
  [0x10, 0x11, 0x20, 0x21, 0x22, 0x23, 0x30, 0x31, 0x40, 0x41, 0x42, 0x50, 0x51, 0x60]

/-- Which format the opcode map gives an opcode (R94). -/
theorem formatOf_cases (op : Byte) :
    (op.toNat ∉ knownOpcodes ∧ formatOf op = none) ∨
      (op.toNat ∈ formatNOpcodes ∧ ∃ i, formatOf op = some (.n i)) ∨
      (op.toNat ∈ formatAOpcodes ∧ ∃ mk, formatOf op = some (.a mk)) ∨
      (op.toNat = 0x23 ∧ ∃ mk, formatOf op = some (.ab mk)) := by
  by_cases hk : op.toNat ∈ knownOpcodes
  · right
    simp only [knownOpcodes, List.mem_cons, List.not_mem_nil, or_false] at hk
    rcases hk with h | h | h | h | h | h | h | h | h | h | h | h | h | h <;>
      simp [formatOf, h, formatNOpcodes, formatAOpcodes]
  · refine .inl ⟨hk, ?_⟩
    unfold formatOf
    split
    case h_15 => rfl
    all_goals exact absurd (by simp [knownOpcodes, *]) hk

/-- The top byte as the quotient of which R97's list speaks. -/
theorem opField_toNat (w : Word) : (opField w).toNat = w.toNat / 2 ^ 24 := by
  have h := w.isLt
  simp only [opField, BitVec.extractLsb'_toNat, Nat.shiftRight_eq_div_pow]
  omega

/-- The low field of a word is zero when the remainder is. -/
theorem lowField_eq_zero_iff (w : Word) (n : Nat) : w.extractLsb' 0 n = 0 ↔ w.toNat % 2 ^ n = 0 := by
  rw [← BitVec.toNat_inj, BitVec.extractLsb'_toNat]
  rfl

theorem bField_eq_zero_iff (w : Word) : bField w = 0 ↔ w.toNat % 2 ^ 8 = 0 := lowField_eq_zero_iff w 8

theorem decode_error_iff_of_formatN (w : Word) (i : Instr) (hf : formatOf (opField w) = some (.n i)) :
    (∃ e, decode w = .error e) ↔ w.extractLsb' 0 24 ≠ 0 := by
  simp only [decode, hf]
  split
  · next hz => simp [hz]
  · next hz => exact iff_of_true ⟨_, rfl⟩ hz

theorem decode_error_iff_of_formatA (w : Word) (mk : Nat → Instr) (hf : formatOf (opField w) = some (.a mk)) :
    (∃ e, decode w = .error e) ↔ bField w ≠ 0 := by
  simp only [decode, hf]
  split
  · next hz => simp [hz]
  · next hz => exact iff_of_true ⟨_, rfl⟩ hz

end Sys2Proof

namespace Sys2Proof.Machine

/-- The list of R97, by the format's opcodes. -/
theorem illegalWord_iff (w : Word) :
    illegalWord w = true ↔ (opField w).toNat ∉ knownOpcodes ∨
      ((opField w).toNat ∈ formatNOpcodes ∧ w.extractLsb' 0 24 ≠ 0) ∨
      ((opField w).toNat ∈ formatAOpcodes ∧ bField w ≠ 0) := by
  simp only [illegalWord, Bool.or_eq_true, Bool.and_eq_true, decide_eq_true_eq, or_assoc, opField_toNat, Ne,
    lowField_eq_zero_iff, bField_eq_zero_iff, knownOpcodes, formatNOpcodes, formatAOpcodes]

/-- The decoder refuses exactly the words that R97 lists. -/
theorem illegalWord_iff_decode_error (w : Word) : illegalWord w = true ↔ ∃ e, decode w = .error e := by
  have hN : ∀ op ∈ formatNOpcodes, op ∈ knownOpcodes ∧ op ∉ formatAOpcodes := by decide
  have hA : ∀ op ∈ formatAOpcodes, op ∈ knownOpcodes ∧ op ∉ formatNOpcodes := by decide
  have hAB : 0x23 ∈ knownOpcodes ∧ 0x23 ∉ formatNOpcodes ∧ 0x23 ∉ formatAOpcodes := by decide
  rw [illegalWord_iff]
  rcases formatOf_cases (opField w) with ⟨hop, hf⟩ | ⟨hop, i, hf⟩ | ⟨hop, mk, hf⟩ | ⟨hop, mk, hf⟩
  · simp [decode, hf, hop]
  · simp [decode_error_iff_of_formatN w i hf, hop, hN _ hop]
  · simp [decode_error_iff_of_formatA w mk hf, hop, hA _ hop]
  · simp [decode, hf, hop, hAB]

/-- A host write to CMD is the command. -/
theorem perform_write_cmd (s : State) (w : Word) : s.perform (.write .reg 0 w) = s.command w := rfl

theorem command_of_ok (s : State) (w : Word) (i : Instr) (h : decode w = .ok i) : s.command w = exec i s := by
  simp only [State.command, h]

theorem command_of_error (s : State) (w : Word) (e : DecodeError) (h : decode w = .error e) :
    s.command w = .next (s.raise .illegal) := by
  simp only [State.command, h]

/-- Settles O5: R97's list is where the decoder answers an error, and CMD raises E_ILLEGAL there and runs the decoded
operation elsewhere. -/
theorem illegalWordsAbortAndLegalWordsRun : Obligations.IllegalWordsAbortAndLegalWordsRun := by
  intro s w
  rw [perform_write_cmd]
  refine ⟨fun hbad => ?_, fun hgood => ?_⟩
  · obtain ⟨e, he⟩ := (illegalWord_iff_decode_error w).mp hbad
    exact command_of_error s w e he
  · cases hd : decode w with
    | ok i => exact ⟨i, rfl, command_of_ok s w i hd⟩
    | error e => exact absurd ((illegalWord_iff_decode_error w).mpr ⟨e, hd⟩) (by simp [hgood])

end Sys2Proof.Machine
end

section
/-! The Checksum Engine's two operations (spec/40_checksum.md R120, R121): what each answers, and what zero padding does to
the checksum, which the payload of a decoded record needs (R115, spec/41_codec.md R134). -/

namespace Sys2Proof.Machine

/-! ### Zero padding -/

theorem accumulate_replicate_zero (acc k : Nat) (ha : acc ≤ 0xFFFF) :
    accumulate acc (List.replicate k 0) = acc := by
  induction k using Nat.twoStepInduction with
  | zero => rfl
  | one => exact foldAdd_zero acc ha
  | more k ih _ => simpa [List.replicate_succ, accumulate, ha] using ih

/-- Zero padding completes an odd last byte to the word it stood for, and then adds zero words. -/
theorem accumulate_append_zeros (acc : Nat) (p : List Byte) (k : Nat) (ha : acc ≤ 0xFFFF) :
    accumulate acc (p ++ List.replicate k 0) = accumulate acc p := by
  induction acc, p using accumulate.induct with
  | case1 acc => exact accumulate_replicate_zero acc k ha
  | case2 acc b =>
    have hw : b.toNat * 256 ≤ 0xFFFF := by have := b.isLt; omega
    cases k with
    | zero => rfl
    | succ k =>
      have hrest := accumulate_replicate_zero _ k (foldAdd_le acc _ ha hw)
      simpa [List.replicate_succ, accumulate] using hrest
  | case3 acc b0 b1 rest ih =>
    have hw : b0.toNat * 256 + b1.toNat ≤ 0xFFFF := by have := b0.isLt; have := b1.isLt; omega
    exact ih (foldAdd_le acc _ ha hw)

theorem checksum_append_zeros (p : List Byte) (k : Nat) : checksum (p ++ List.replicate k 0) = checksum p := by
  simp only [checksum, accumulate_append_zeros 0 p k (Nat.zero_le _)]

/-! ### The values of the rules -/

theorem checksum_nil : checksum [] = 0xFFFF := by decide

/-- The text of the examples of R120 and R121, "HELLO WORLD". -/
def helloWorld : List Byte := [0x48, 0x45, 0x4C, 0x4C, 0x4F, 0x20, 0x57, 0x4F, 0x52, 0x4C, 0x44]

theorem checksum_helloWorld : checksum helloWorld = 0x2EB2 := by decide

/-! ### What the operations answer -/

theorem exec_csumi (s : State) :
    exec .csumi s = .next { s with cksum := checksum (s.ibufBytes 0 0 s.ilen) }.complete := rfl

theorem exec_csums (s : State) : exec .csums s = .next { s with cksum := checksum s.seg.payload }.complete := rfl

/-- Settles O12: CSUMI completes with the checksum of the ILEN bytes it reads, which are those the host wrote. -/
theorem csumiWritesTheInputChecksum : Obligations.CsumiWritesTheInputChecksum := by
  refine ⟨by decide, checksum_nil, checksum_helloWorld, fun s p hlen hp => ?_, fun s => ?_⟩
  · have hread : s.ibufBytes 0 0 s.ilen = p := hlen ▸ ibufBytes_of_holds s 0 0 p hp
    exact ⟨_, exec_csumi s, by rw [hread]; rfl⟩
  · exact ⟨_, exec_csumi s, rfl⟩

/-! ### A record with a short text -/

/-- A record whose payload bytes are `p` and then zeros decodes to a payload of 252 bytes: `p`, and then zeros. -/
theorem segmentOfRecord_payload (byte : Nat → Byte) (p : List Byte) (hp : p.length ≤ 252)
    (hb : ∀ i, i < 252 → byte (4 + i) = p.getD i 0) :
    (segmentOfRecord byte).payload = p ++ List.replicate (252 - p.length) 0 := by
  apply List.ext_getElem?
  intro i
  have hplen : (segmentOfRecord byte).plen.val = 252 := rfl
  rw [payload_getElem?, hplen, List.getElem?_append, List.getElem?_replicate]
  by_cases hi : i < 252
  · rw [if_pos hi, segmentOfRecord_byteAt byte i hi, hb i hi]
    by_cases hip : i < p.length
    · simp [hip]
    · simp [hip, show i - p.length < 252 - p.length by omega]
  · simp [hi, show ¬ i < p.length by omega, show ¬ i - p.length < 252 - p.length by omega]

/-- DECODE and then CSUMS: the checksum over the decoded payload, beside the record's own checksum field. -/
theorem exec_decode_csums (s : State) :
    ∃ t u, exec .decode s = .next t ∧ exec .csums t = .next u ∧
      u.cksum = checksum (segmentOfRecord (s.wbufByte 0)).payload ∧
      u.seg.csum = be16 (s.wbufByte 0 2) (s.wbufByte 0 3) := ⟨_, _, rfl, exec_csums _, rfl, rfl⟩

/-- Settles O13: CSUMS completes with the payload's checksum, in which the zeros of a decoded record do not count. -/
theorem csumsWritesThePayloadChecksum : Obligations.CsumsWritesThePayloadChecksum := by
  refine ⟨by decide, checksum_nil, fun s => ⟨_, exec_csums s, rfl⟩, fun s r hr hrecord => ?_⟩
  have hbyte : ∀ i, i < 256 → s.wbufByte 0 i = ([0x00, 0x00, 0x2E, 0xB2] ++ helloWorld).getD i 0 :=
    fun i hi => (wbufByte_of_holds s 0 r hr i hi).trans (hrecord ⟨i, hi⟩)
  have hpay := segmentOfRecord_payload (s.wbufByte 0) helloWorld (by decide) fun i hi => by
    rw [hbyte (4 + i) (by omega), List.getD_append_right _ _ _ _ (Nat.le_add_right 4 i)]
    exact congrArg (helloWorld.getD · 0) (Nat.add_sub_cancel_left 4 i)
  obtain ⟨t, u, ht, hu, hcksum, hcsum⟩ := exec_decode_csums s
  refine ⟨t, u, ht, hu, ?_, ?_⟩
  · rw [hcksum, hpay, checksum_append_zeros, checksum_helloWorld]
  · rw [hcsum, hbyte 2 (by decide), hbyte 3 (by decide)]
    decide

end Sys2Proof.Machine
end

section
/-! The Packet Codec's four operations (spec/41_codec.md R131 to R136): what each answers, byte by byte, and the bound that
PGET and PSET check. -/

namespace Sys2Proof.Machine

/-! ### Bytes -/

/-- The high byte as the quotient of which R131 speaks. -/
theorem hiByte_eq_ofNat (v : Half) : hiByte v = BitVec.ofNat 8 (v.toNat / 256) := by
  rw [← hiByte_toNat, BitVec.ofNat_toNat, BitVec.setWidth_eq]

/-- The low byte as the remainder of which R131 speaks. -/
theorem loByte_eq_ofNat (v : Half) : loByte v = BitVec.ofNat 8 (v.toNat % 256) := by
  rw [← loByte_toNat, BitVec.ofNat_toNat, BitVec.setWidth_eq]

theorem byteAt_fin (g : Segment) (i : Fin 252) : g.byteAt i.val = g.pay[i] := dif_pos i.isLt

theorem pay_toList_getElem? (g : Segment) (i : Nat) (hi : i < 252) : g.pay.toList[i]? = some (g.byteAt i) := by
  simp [Segment.byteAt, hi]

theorem setByte_pay_toList (g : Segment) (i : Nat) (b : Byte) (hi : i < 252) :
    (g.setByte i b).pay.toList = g.pay.toList.set i b := by
  simp [Segment.setByte, hi, Vector.toList_set]

/-- Setting a byte writes the payload store and no other field. -/
theorem setByte_eq (g : Segment) (i : Nat) (b : Byte) : g.setByte i b = { g with pay := (g.setByte i b).pay } := by
  unfold Segment.setByte
  split <;> rfl

/-! ### ENCODE -/

theorem exec_encode (s : State) :
    exec .encode s = .next { s with wbuf := Memory.write s.wbuf 0 (recordBytes s.seg) }.complete := rfl

/-- A wire buffer that a record was written to reads as the record, and beyond it as before. -/
theorem get?_write_recordBytes (m : Memory Byte) (g : Segment) (a : Nat) :
    Memory.get? (Memory.write m 0 (recordBytes g)) a =
      if a < 256 then (recordBytes g)[a]? else Memory.get? m a := by
  simp [get?_write]

/-- Settles O14: the stored run is the wire record, whose header is the four bytes of SEGNUM and SEGCSUM and whose rest is
`recordBytes_payload`. -/
theorem encodeWritesTheRecord : Obligations.EncodeWritesTheRecord := by
  refine ⟨by decide, fun s => ⟨_, exec_encode s, rfl, ?_⟩⟩
  simp only [complete_wbuf, get?_write_recordBytes, ← hiByte_eq_ofNat, ← loByte_eq_ofNat]
  refine ⟨rfl, rfl, rfl, rfl, fun i => ?_, fun a ha => if_neg (Nat.not_lt.mpr ha)⟩
  rw [if_pos (by omega), recordBytes_payload s.seg i.val i.isLt, byteAt_fin]

/-! ### DECODE -/

theorem exec_decode (s : State) :
    exec .decode s = .next { s with
      seg := segmentOfRecord (s.wbufByte 0)
      flags := { s.flags with z := firstByteZero (segmentOfRecord (s.wbufByte 0)) } }.complete := rfl

/-- Z tells byte 4 of the record, the first payload byte (R133). -/
theorem firstByteZero_segmentOfRecord (byte : Nat → Byte) :
    firstByteZero (segmentOfRecord byte) = decide (byte 4 = 0) := by
  rw [firstByteZero, segmentOfRecord_byteAt byte 0 (by decide)]
  rfl

/-- Settles O15: DECODE completes with the segment of the bytes it reads, which are the record's where the host has
written it. -/
theorem decodeReadsTheRecord : Obligations.DecodeReadsTheRecord := by
  refine ⟨by decide, fun s r hr => ?_, fun s => ⟨_, exec_decode s, rfl, rfl⟩⟩
  have hbyte : ∀ i, (hi : i < 256) → s.wbufByte 0 i = r[i] := wbufByte_of_holds s 0 r hr
  refine ⟨_, exec_decode s, ?_, ?_, ?_, rfl, fun i => ?_⟩
  · rw [firstByteZero_segmentOfRecord, hbyte 4 (by decide)]
    rfl
  · rw [← hbyte 0 (by decide), ← hbyte 1 (by decide)]
    exact be16_toNat _ _
  · rw [← hbyte 2 (by decide), ← hbyte 3 (by decide)]
    exact be16_toNat _ _
  · rw [← byteAt_fin, ← hbyte (4 + i.val) (by omega)]
    exact segmentOfRecord_byteAt _ i.val i.isLt

/-! ### PGET and PSET -/

theorem exec_pget_inside (s : State) (a : Nat) (ha : a < s.seg.plen.val) :
    exec (.pget a) s = .next { s with pdata := s.seg.byteAt a }.complete := if_neg (Nat.not_le.mpr ha)

theorem exec_pset_inside (s : State) (a : Nat) (b : Byte) (ha : a < s.seg.plen.val) :
    exec (.pset a b) s = .next { s with seg := s.seg.setByte a b }.complete := if_neg (Nat.not_le.mpr ha)

/-- An index inside the payload is inside the store (R29, R46). -/
theorem lt_store_of_lt_plen (g : Segment) (a : Nat) (ha : a < g.plen.val) : a < 252 :=
  Nat.lt_of_lt_of_le ha (Nat.le_of_lt_succ g.plen.isLt)

/-- Settles O18: inside the payload PGET completes with the stored byte, elsewhere its bound is the error it raises. -/
theorem pgetReadsInsideThePayload : Obligations.PgetReadsInsideThePayload := by
  refine ⟨by decide, fun s a => ⟨fun ha => ?_, fun ha => exec_raises (.pget a) s .index (if_pos ha)⟩⟩
  exact ⟨_, exec_pget_inside s a ha, pay_toList_getElem? s.seg a (lt_store_of_lt_plen s.seg a ha), rfl⟩

/-- Settles O19: inside the payload PSET completes with the one byte set, elsewhere its bound is the error it raises. -/
theorem psetWritesInsideThePayload : Obligations.PsetWritesInsideThePayload := by
  refine ⟨by decide, fun s a b => ⟨fun ha => ?_, fun ha => exec_raises (.pset a b) s .index (if_pos ha)⟩⟩
  refine ⟨_, exec_pset_inside s a b ha, setByte_pay_toList s.seg a b (lt_store_of_lt_plen s.seg a ha), ?_⟩
  simp only [State.sameBlock, complete_seg, ← setByte_eq]
  rfl

end Sys2Proof.Machine
end

section
/-! SEGINIT (spec/42_segmenter.md R152): what it answers when there is input to segment, and when there is none. -/

namespace Sys2Proof.Machine

theorem exec_seginit_nonempty (s : State) (h : s.ilen ≠ 0) :
    exec .seginit s = .next { s with scnt := 0, soff := 0, flags := { s.flags with more := true } }.complete := if_neg h

/-- Settles O20: with input SEGINIT completes from the rewound state, and an empty input is the error it raises. -/
theorem seginitRewindsOrReportsEmpty : Obligations.SeginitRewindsOrReportsEmpty := by
  refine ⟨by decide, fun s => ⟨fun hlen => ?_, fun hlen => exec_raises .seginit s .empty (if_pos hlen)⟩⟩
  exact ⟨_, exec_seginit_nonempty s hlen, rfl⟩

end Sys2Proof.Machine
end

section
/-! RBCLR and RBPUSH (spec/43_reorder_reassembler.md R172, R174): what each answers, and what a push leaves in the slots,
the bitmap and the order map. -/

namespace Sys2Proof.Machine

/-! ### RBCLR -/

theorem exec_rbclr (s : State) :
    exec .rbclr s = .next { s with
      count := 0
      pres := []
      flags := { s.flags with gap := false, dup := false } }.complete := rfl

/-- Settles O24: RBCLR completes from the emptied buffer, whose bitmap has no bit set. -/
theorem rbclrEmptiesTheBuffer : Obligations.RbclrEmptiesTheBuffer := by
  refine ⟨by decide, fun s => ⟨_, exec_rbclr s, fun n => ?_, rfl⟩⟩
  exact presBit_nil n

/-! ### RBPUSH -/

theorem exec_rbpush_room (s : State) (h : s.count ≠ s.cfg.nslot) :
    exec .rbpush s = .next s.pushSegment.complete := if_neg h

/-- The working segment's number can be indexed and PRES does not have it yet (R174). -/
def State.numberIsNew (s : State) : Prop :=
  s.seg.num.toNat < s.cfg.nslot ∧ presBit s.pres s.seg.num.toNat = false

theorem pushSegment_rb (s : State) : s.pushSegment.rb = Memory.write s.rb s.count [s.seg] := rfl

/-- A new number is indexed: its bit is set and its order entry is the slot it goes to. -/
theorem pushSegment_of_numberIsNew (s : State) (h : s.numberIsNew) :
    s.pushSegment.pres = setPresBit s.pres s.seg.num.toNat ∧
      s.pushSegment.ord = Memory.write s.ord s.seg.num.toNat [s.count] := by
  obtain ⟨hlt, hnew⟩ := h
  simp [State.pushSegment, hlt, hnew]

/-- A repeated number, or one that no position reaches, leaves the index alone. -/
theorem pushSegment_of_not_numberIsNew (s : State) (h : ¬ s.numberIsNew) :
    s.pushSegment.pres = s.pres ∧ s.pushSegment.ord = s.ord := by
  have hfirst : (decide (s.seg.num.toNat < s.cfg.nslot) && !presBit s.pres s.seg.num.toNat) = false := by
    simpa [State.numberIsNew] using h
  simp [State.pushSegment, hfirst]

/-- The slot at COUNT takes the working segment and every other slot is kept. -/
theorem get?_rb_pushSegment (s : State) (i : Nat) :
    Memory.get? s.pushSegment.rb i = if i = s.count then some s.seg else Memory.get? s.rb i := by
  rw [pushSegment_rb, get?_write_one]

/-- After a push the bitmap has the old bits and the number pushed, where it is below NSLOT. -/
theorem presBit_pushSegment (s : State) (n : Nat) :
    presBit s.pushSegment.pres n = true ↔
      presBit s.pres n = true ∨ (n = s.seg.num.toNat ∧ n < s.cfg.nslot) := by
  by_cases h : s.numberIsNew
  · rw [(pushSegment_of_numberIsNew s h).1, presBit_setPresBit, or_comm]
    exact or_congr_right (iff_self_and.mpr fun hn => hn ▸ h.1)
  · rw [(pushSegment_of_not_numberIsNew s h).1]
    refine ⟨.inl, ?_⟩
    rintro (hp | ⟨rfl, hlt⟩)
    · exact hp
    · exact Bool.of_not_eq_false fun hnew => h ⟨hlt, hnew⟩

/-- After a push the order map has the slot for a new number and the old entries elsewhere. -/
theorem get?_ord_pushSegment (s : State) (n : Nat) :
    Memory.get? s.pushSegment.ord n =
      if n = s.seg.num.toNat ∧ n < s.cfg.nslot ∧ presBit s.pres n = false then some s.count
      else Memory.get? s.ord n := by
  by_cases h : s.numberIsNew
  · rw [(pushSegment_of_numberIsNew s h).2, get?_write_one]
    exact if_congr (iff_self_and.mpr fun hn => hn ▸ h) rfl rfl
  · rw [(pushSegment_of_not_numberIsNew s h).2, if_neg]
    rintro ⟨rfl, hfirst⟩
    exact h hfirst

/-- Settles O25: with room RBPUSH completes from the pushed state, whose three memories are read above, and a full buffer
is the error it raises. -/
theorem rbpushStoresAndIndexes : Obligations.RbpushStoresAndIndexes := by
  refine ⟨by decide, fun s => ⟨fun hroom => ?_, fun hfull => exec_raises .rbpush s .full (if_pos hfull)⟩⟩
  refine ⟨_, exec_rbpush_room s hroom, rfl, ?_, fun i hi => ?_, presBit_pushSegment s, get?_ord_pushSegment s⟩
  · exact (get?_rb_pushSegment s s.count).trans (if_pos rfl)
  · exact (get?_rb_pushSegment s i).trans (if_neg hi)

end Sys2Proof.Machine
end

section
/-! The reference generator of the Corruption Injector (spec/44_injector.md R212, R213): its step in the words of R212, the
sum of the four tapped bits, and its draw as sixteen of them. -/

namespace Sys2Proof.Machine

/-- The exclusive or of four bits is the sum of them mod 2. -/
theorem toNat_xor_four (a b c d : Bool) :
    (a ^^ b ^^ c ^^ d).toNat = (a.toNat + b.toNat + c.toNat + d.toNat) % 2 := by
  revert a b c d
  decide

/-- The model's own recursion is the library's iteration of one step. -/
theorem lfsrSteps_eq_iterate (n : Nat) (s : Half) : lfsrSteps n s = Nat.iterate lfsrStep n s := by
  induction n generalizing s with
  | zero => rfl
  | succ n ih => exact ih (lfsrStep s)

theorem lfsrStep_toNat_eq_sum (s : Half) :
    (lfsrStep s).toNat =
      s.toNat / 2 + 2 ^ 15 *
        ((s.toNat % 2 + s.toNat / 2 ^ 2 % 2 + s.toNat / 2 ^ 3 % 2 + s.toNat / 2 ^ 5 % 2) % 2) := by
  have bit (i : Nat) : (s.getLsbD i).toNat = s.toNat / 2 ^ i % 2 := Nat.toNat_testBit s.toNat i
  rw [lfsrStep_toNat, toNat_xor_four, bit 0, bit 2, bit 3, bit 5, pow_zero, Nat.div_one, Nat.mul_comm, Nat.add_comm]

theorem draw_lfsr (v : Half) (lo hi : Nat) :
    (Rng.lfsr v).draw lo hi =
      (lo + (Nat.iterate lfsrStep 16 v).toNat % (hi - lo + 1), .lfsr (Nat.iterate lfsrStep 16 v)) := by
  rw [← lfsrSteps_eq_iterate]
  rfl

/-- Settles O35: the step's new top bit is an exclusive or of four bits, hence their sum mod 2, and the draw's recursion
is the iterated step. -/
theorem referenceDrawIsSixteenSteps : Obligations.ReferenceDrawIsSixteenSteps :=
  ⟨lfsrStep_toNat_eq_sum, fun v lo hi _ => draw_lfsr v lo hi⟩

end Sys2Proof.Machine
end

section
/-! DETECT (spec/45_detector.md R230, R231): what it answers, and that its list, which is never longer than the buffer, is
what FLG holds from entry 0 on. -/

namespace Sys2Proof.Machine

/-- A read after a write of a run at index 0. -/
theorem get?_write_zero {α : Type} (m : Memory α) (vs : List α) (a : Nat) :
    Memory.get? (Memory.write m 0 vs) a = if a < vs.length then vs[a]? else Memory.get? m a := by
  simp only [get?_write, Nat.zero_le, true_and, Nat.zero_add, Nat.sub_zero]

theorem exec_detect (s : State) :
    exec .detect s = .next { s with
      flg := Memory.write s.flg 0 s.flaggedNumbers
      nflag := s.flaggedNumbers.length }.complete := rfl

/-- The flagged numbers are those of the slots of the buffer, in slot order, that R230 flags. -/
theorem flaggedNumbers_eq_collection (s : State) :
    s.flaggedNumbers = (s.collection.filter fun g => checksum g.payload != g.csum).map Segment.num := rfl

theorem collection_length (s : State) : s.collection.length = s.count := by
  simp [State.collection]

/-- The list of R231 always fits: it names each occupied slot at most once. -/
theorem flaggedNumbers_length_le (s : State) : s.flaggedNumbers.length ≤ s.count := by
  rw [flaggedNumbers_eq_collection, List.length_map, ← collection_length s]
  exact List.length_filter_le ..

/-- Settles O38: DETECT completes from the state whose FLG was written with the flagged numbers, a run at index 0 that is no
longer than the buffer. -/
theorem detectListsTheMismatches : Obligations.DetectListsTheMismatches := by
  refine ⟨by decide, fun s => ⟨_, exec_detect s, rfl, rfl, fun a ha => ?_, fun a ha => ?_, ?_⟩⟩
  · exact (get?_write_zero s.flg s.flaggedNumbers a).trans (if_pos ha)
  · exact (get?_write_zero s.flg s.flaggedNumbers a).trans (if_neg (Nat.not_lt.mpr ha))
  · exact flaggedNumbers_length_le s

end Sys2Proof.Machine
end

section
/-! Errors (spec/60_exceptions.md R272): an operation that raises reports an error code, never E_OK, so the code in ERR tells
a raise from a completion. -/

namespace Sys2Proof.Machine

/-- The error an operation meets is never E_OK (R270). -/
theorem raisedError_ne_ok (i : Instr) (s : State) (e : ErrCode) (h : raisedError i s = some e) : e ≠ .ok := by
  rintro rfl
  cases i
  case corruptr a => by_cases ha : s.count ≤ a <;> simp [raisedError, ha] at h
  all_goals simp [raisedError] at h

/-- Settles O40: an operation answers its raise, whose code is an error, or a completion, which reports E_OK and keeps
EVER. -/
theorem errorChangesOnlyTheReport : Obligations.ErrorChangesOnlyTheReport := by
  intro i s
  rcases exec_cases i s with ⟨e, he, hx⟩ | ⟨u, -, hx, -, -, -, -, -, -, hever⟩
  · exact ⟨s.raise e, hx, fun _ => rfl, fun hok => absurd hok (raisedError_ne_ok i s e he)⟩
  · exact ⟨u.complete, hx, fun herr => absurd (complete_err u) herr, fun _ => hever⟩

end Sys2Proof.Machine
end

section
/-! The reset event (spec/70_reset_and_hazards.md R300): from any state it leaves the block as at power-up with the same
parameters, and the reference generator at its seed. -/

namespace Sys2Proof.Machine

theorem perform_reset (s : State) : s.perform .reset = .next s.resetEvent := rfl

/-- STATUS reads 0 after power-up, EVER included (R58). -/
@[simp] theorem powerUp_flags_value (p : Params) : (State.powerUp p).flags.value = 0 := by
  simp [State.powerUp, Flags.value]

/-- The payload bytes of SEG are 0 after power-up (R58). -/
@[simp] theorem powerUp_seg_pay (p : Params) (i : Fin 252) : (State.powerUp p).seg.pay[i] = 0 :=
  Vector.getElem_replicate i.isLt

@[simp] theorem afterReset_lfsr (v : Half) : (Rng.lfsr v).afterReset = .lfsr 0xACE1 := rfl

/-- Settles O51: the reset event puts power-up's values in place and seeds the reference generator. -/
theorem resetEventRestoresTheTable : Obligations.ResetEventRestoresTheTable := by
  intro s
  have hseed : ∀ v, s.rng = .lfsr v → s.resetEvent.rng = .lfsr 0xACE1 := fun v hv =>
    (congrArg Rng.afterReset hv).trans (afterReset_lfsr v)
  exact ⟨s.resetEvent, perform_reset s, powerUp_flags_value s.cfg, rfl, rfl, rfl, rfl, rfl, rfl,
    powerUp_seg_pay s.cfg, rfl, rfl, rfl, rfl, rfl, hseed, rfl, rfl, presBit_nil⟩

end Sys2Proof.Machine
end

section
/-! The command words (spec/30_encoding.md R90 to R96): what the decoder answers on a word built from fields, by the format
of its opcode, and which opcode, format and table row each operation has. -/

namespace Sys2Proof

/-! ### From an operation to its word and back -/

theorem decode_commandWord_of_formatN (op : Byte) (i : Instr) (hf : formatOf op = some (.n i)) :
    decode (commandWord op 0 0) = .ok i := by
  have hlow : (commandWord op 0 0).extractLsb' 0 24 = 0 := by
    rw [lowField_eq_zero_iff, commandWord_toNat op 0 0 (by decide)]
    simp
  simp only [decode, opField_commandWord op 0 0 (by decide), hf, if_pos hlow]

theorem decode_commandWord_of_formatA (op : Byte) (mk : Nat → Instr) (a : Nat) (ha : a < 65536)
    (hf : formatOf op = some (.a mk)) : decode (commandWord op a 0) = .ok (mk a) := by
  simp only [decode, opField_commandWord op a 0 ha, hf, aField_commandWord op a 0 ha, bField_commandWord op a 0 ha,
    if_true]

theorem decode_commandWord_of_formatAB (op : Byte) (mk : Nat → Byte → Instr) (a : Nat) (b : Byte) (ha : a < 65536)
    (hf : formatOf op = some (.ab mk)) : decode (commandWord op a b) = .ok (mk a b) := by
  simp only [decode, opField_commandWord op a b ha, hf, aField_commandWord op a b ha, bField_commandWord op a b ha]

/-- Settles O1: the opcode map gives each operation's opcode its format, and the decoder reads the fields of that format. -/
theorem decodeOfEncodeIsTheOperation : Obligations.DecodeOfEncodeIsTheOperation := by
  intro i hi
  cases i
  case pget a => exact decode_commandWord_of_formatA 0x22 .pget a (of_decide_eq_true hi) rfl
  case pset a b => exact decode_commandWord_of_formatAB 0x23 .pset a b (of_decide_eq_true hi) rfl
  case corruptr a => exact decode_commandWord_of_formatA 0x51 .corruptr a (of_decide_eq_true hi) rfl
  all_goals exact decode_commandWord_of_formatN _ _ rfl

/-! ### From a legal word to its operation and back -/

/-- The operations of a format are those that the encoder gives the opcode `op`. -/
def Format.encodesWith (op : Byte) : Format → Prop
  | .n i => i.wellFormed = true ∧ encode i = commandWord op 0 0
  | .a mk => ∀ a, a < 65536 → (mk a).wellFormed = true ∧ encode (mk a) = commandWord op a 0
  | .ab mk => ∀ a b, a < 65536 → (mk a b).wellFormed = true ∧ encode (mk a b) = commandWord op a b

/-- The opcode map and the encoder agree (R94). -/
theorem formatOf_encodesWith (op : Byte) (f : Format) (h : formatOf op = some f) : f.encodesWith op := by
  have hop : op = BitVec.ofNat 8 op.toNat := by simp
  unfold formatOf at h
  split at h
  case h_15 => cases h
  all_goals
    rename_i hn
    rw [hn] at hop
    cases h
    subst hop
  case h_5 | h_13 => exact fun a ha => ⟨decide_eq_true ha, rfl⟩
  case h_6 => exact fun a b ha => ⟨decide_eq_true ha, rfl⟩
  all_goals exact ⟨rfl, rfl⟩

theorem aField_lt (w : Word) : aField w < 65536 := (w.extractLsb' 8 16).isLt

/-- A word whose low 24 bits are zero is its opcode alone. -/
theorem commandWord_opField_of_low_zero (w : Word) (h : w.extractLsb' 0 24 = 0) : commandWord (opField w) 0 0 = w := by
  have hw := w.isLt
  have hlow := (lowField_eq_zero_iff w 24).mp h
  apply BitVec.eq_of_toNat_eq
  rw [commandWord_toNat _ _ _ (by decide), opField_toNat]
  show w.toNat / 2 ^ 24 * 2 ^ 24 + 0 * 2 ^ 8 + 0 = w.toNat
  omega

/-- Settles O2: a legal word is made of the fields that the format of its opcode reads. -/
theorem legalWordEncodesBack : Obligations.LegalWordEncodesBack := by
  intro w i h
  have hw := commandWord_fields w
  unfold decode at h
  split at h
  · cases h
  · next j hf =>
    split at h
    · next hlow =>
      cases h
      rw [← commandWord_opField_of_low_zero w hlow] 
      exact formatOf_encodesWith _ _ hf
    · cases h
  · next mk hf =>
    split at h
    · next hb =>
      cases h
      rw [hb] at hw
      obtain ⟨hwf, henc⟩ := formatOf_encodesWith _ _ hf (aField w) (aField_lt w)
      exact ⟨hwf, henc.trans hw⟩
    · cases h
  · next mk hf =>
    cases h
    obtain ⟨hwf, henc⟩ := formatOf_encodesWith _ _ hf (aField w) (bField w) (aField_lt w)
    exact ⟨hwf, henc.trans hw⟩

/-! ### The opcode table -/

/-- A table row's mask covers the whole opcode, so the words it matches have its opcode. -/
theorem opField_of_matches (w : Word) (r : EncodingRow) (hr : r ∈ encodingRows) (h : r.matches w = true) :
    opField w = opField r.pattern := by
  have hmask : ∀ q ∈ encodingRows, opField q.mask = 0xFF := by decide
  have hand : opField (w &&& r.mask) = opField w &&& opField r.mask := BitVec.extractLsb'_and
  rw [← eq_of_beq h, hand, hmask r hr]
  exact BitVec.and_allOnes.symm

/-- No word matches two rows: the rows have different opcodes. -/
theorem row_eq_of_matches (w : Word) (r q : EncodingRow) (hr : r ∈ encodingRows) (hq : q ∈ encodingRows)
    (hrw : r.matches w = true) (hqw : q.matches w = true) : r = q := by
  have hdistinct : ∀ r ∈ encodingRows, ∀ q ∈ encodingRows, opField r.pattern = opField q.pattern → r = q := by decide
  exact hdistinct r hr q hq ((opField_of_matches w r hr hrw).symm.trans (opField_of_matches w q hq hqw))

theorem encode_matches_row (i : Instr) : Laws.FitsRow.Statement i := by
  cases i
  exacts [Laws.FitsRow.csumi, Laws.FitsRow.csums, Laws.FitsRow.encode, Laws.FitsRow.decode, Laws.FitsRow.pget _,
    Laws.FitsRow.pset _ _, Laws.FitsRow.seginit, Laws.FitsRow.segnext, Laws.FitsRow.rbclr, Laws.FitsRow.rbpush,
    Laws.FitsRow.reasm, Laws.FitsRow.corrupts, Laws.FitsRow.corruptr _, Laws.FitsRow.detect]

/-- A legal word matches the row of the operation it decodes to. -/
theorem exists_row_of_decode (w : Word) (i : Instr) (h : decode w = .ok i) :
    ∃ r ∈ encodingRows, r.matches w = true ∧ r.mnemonic = i.mnemonic := by
  obtain ⟨hwf, henc⟩ := legalWordEncodesBack w i h
  obtain ⟨r, hrow, hmatch⟩ := encode_matches_row i hwf
  have hname := List.find?_some (p := fun q : EncodingRow => q.mnemonic == i.mnemonic) hrow
  exact ⟨r, List.mem_of_find?_eq_some hrow, henc ▸ hmatch, eq_of_beq hname⟩

/-- A row without operand fields matches one word. -/
theorem eq_pattern_of_matches_full (w : Word) (r : EncodingRow) (hr : r.mask = 0xFFFFFFFF)
    (h : r.matches w = true) : w = r.pattern := by
  rw [← eq_of_beq h, hr]
  exact BitVec.and_allOnes.symm

/-- A row with an index operand leaves no bit in the byte field. -/
theorem bField_of_matches_index (w : Word) (r : EncodingRow) (hr : r.mask = 0xFF0000FF)
    (h : r.matches w = true) : bField w = bField r.pattern := by
  have hand : bField (w &&& r.mask) = bField w &&& bField r.mask := BitVec.extractLsb'_and
  rw [← eq_of_beq h, hand, hr]
  exact BitVec.and_allOnes.symm

/-- The three kinds of rows (R91 to R93): no operand field, an index field, an index and a byte field. -/
theorem row_kind : ∀ r ∈ encodingRows,
    (r.mask = 0xFFFFFFFF ∧ ∃ i, decode r.pattern = .ok i) ∨
      (r.mask = 0xFF0000FF ∧ bField r.pattern = 0 ∧ ∃ mk, formatOf (opField r.pattern) = some (.a mk)) ∨
      ∃ mk, formatOf (opField r.pattern) = some (.ab mk) := by
  simp only [encodingRows, List.forall_mem_cons]
  exact ⟨.inl ⟨trivial, _, rfl⟩, .inl ⟨trivial, _, rfl⟩, .inl ⟨trivial, _, rfl⟩, .inl ⟨trivial, _, rfl⟩,
    .inr (.inl ⟨trivial, rfl, _, rfl⟩), .inr (.inr ⟨_, rfl⟩), .inl ⟨trivial, _, rfl⟩, .inl ⟨trivial, _, rfl⟩,
    .inl ⟨trivial, _, rfl⟩, .inl ⟨trivial, _, rfl⟩, .inl ⟨trivial, _, rfl⟩, .inl ⟨trivial, _, rfl⟩,
    .inr (.inl ⟨trivial, rfl, _, rfl⟩), .inl ⟨trivial, _, rfl⟩, List.forall_mem_nil _⟩

/-- A word that matches a row is legal. -/
theorem decode_of_matches (w : Word) (r : EncodingRow) (hr : r ∈ encodingRows) (h : r.matches w = true) :
    ∃ i, decode w = .ok i := by
  have hop := opField_of_matches w r hr h
  rcases row_kind r hr with ⟨hmask, hlegal⟩ | ⟨hmask, hzero, mk, hf⟩ | ⟨mk, hf⟩
  · rwa [eq_pattern_of_matches_full w r hmask h]
  · have hb : bField w = 0 := (bField_of_matches_index w r hmask h).trans hzero
    exact ⟨mk (aField w), by simp only [decode, hop, hf, hb, if_true]⟩
  · exact ⟨mk (aField w) (bField w), by simp only [decode, hop, hf]⟩

/-- Settles O3: a legal word matches its operation's row, a word that matches a row is legal, and rows differ in their
opcodes. -/
theorem decodeFollowsTheOpcodeTable : Obligations.DecodeFollowsTheOpcodeTable := by
  intro w
  refine ⟨⟨?_, ?_⟩, ?_, fun r hr q hq => row_eq_of_matches w r q hr hq⟩
  · rintro ⟨i, hi⟩
    obtain ⟨r, hr, hmatch, -⟩ := exists_row_of_decode w i hi
    exact ⟨r, hr, hmatch⟩
  · rintro ⟨r, hr, hmatch⟩
    exact decode_of_matches w r hr hmatch
  · intro i hi r hr hmatch
    obtain ⟨q, hq, hqmatch, hname⟩ := exists_row_of_decode w i hi
    exact row_eq_of_matches w r q hr hq hmatch hqmatch ▸ hname

/-! ### The listed words -/

/-- Settles O4: each listed word is evaluated. -/
theorem listedWordsDecodeAsListed : Obligations.ListedWordsDecodeAsListed := by
  unfold Obligations.ListedWordsDecodeAsListed
  decide

end Sys2Proof
end

section
/-! Said once: what an operation that meets no error completes from, one record update per operation (spec/30_encoding.md R94
and the rules it names), so that a proof about all operations is a case split over the completions. -/

namespace Sys2Proof.Machine

/-! ### The equations of the operations that have none yet -/

theorem exec_segnext_more (s : State) (h : s.flags.more = true) :
    exec .segnext s = .next { s with
      seg := segmentOfChunk s.scnt (checksum (s.ibufBytes 0 s.soff (chunkLength s))) (s.ibufBytes 1 s.soff (chunkLength s))
      soff := s.soff + chunkLength s
      scnt := s.scnt + 1
      flags := { s.flags with more := moreToEmit (s.soff + chunkLength s) s.ilen } }.complete :=
  if_neg (by simp [h])

theorem exec_reasm (s : State) :
    exec .reasm s = .next { s with
      obuf := Memory.write s.obuf 0
        (s.packedPayloads ++ List.replicate (s.storedLength - s.packedPayloads.length) 0)
      olen := s.storedLength
      flags := { s.flags with gap := somePositionAbsent s.pres s.count } }.complete := rfl

theorem exec_corrupts_payload (s : State) (h : s.seg.plen.val ≠ 0) :
    exec .corrupts s = .next { s with
      seg := (corrupt s.thresh.val s.seg s.rng).seg
      rng := (corrupt s.thresh.val s.seg s.rng).rng
      flags := { s.flags with hit := (corrupt s.thresh.val s.seg s.rng).hit } }.complete := if_neg h

theorem exec_corruptr_payload (s : State) (a : Nat) (ha : a < s.count) (h : (s.slot 0 a).plen.val ≠ 0) :
    exec (.corruptr a) s = .next { s with
      rb := Memory.write s.rb a [(corrupt s.thresh.val (s.slot 0 a) s.rng).seg]
      rng := (corrupt s.thresh.val (s.slot 0 a) s.rng).rng
      flags := { s.flags with hit := (corrupt s.thresh.val (s.slot 0 a) s.rng).hit } }.complete :=
  (if_neg (Nat.not_le.mpr ha)).trans (if_neg h)

/-! ### The completions -/

/-- The state from which an operation at `s` completes, where it meets no error. -/
inductive Completes (s : State) : Instr → State → Prop where
  | csumi : Completes s .csumi { s with cksum := checksum (s.ibufBytes 0 0 s.ilen) }
  | csums : Completes s .csums { s with cksum := checksum s.seg.payload }
  | encode : Completes s .encode { s with wbuf := Memory.write s.wbuf 0 (recordBytes s.seg) }
  | decode : Completes s .decode { s with
      seg := segmentOfRecord (s.wbufByte 0)
      flags := { s.flags with z := firstByteZero (segmentOfRecord (s.wbufByte 0)) } }
  | pget (a : Nat) (ha : a < s.seg.plen.val) : Completes s (.pget a) { s with pdata := s.seg.byteAt a }
  | pset (a : Nat) (b : Byte) (ha : a < s.seg.plen.val) : Completes s (.pset a b) { s with seg := s.seg.setByte a b }
  | seginit (h : s.ilen ≠ 0) :
      Completes s .seginit { s with scnt := 0, soff := 0, flags := { s.flags with more := true } }
  | segnext (h : s.flags.more = true) : Completes s .segnext { s with
      seg := segmentOfChunk s.scnt (checksum (s.ibufBytes 0 s.soff (chunkLength s))) (s.ibufBytes 1 s.soff (chunkLength s))
      soff := s.soff + chunkLength s
      scnt := s.scnt + 1
      flags := { s.flags with more := moreToEmit (s.soff + chunkLength s) s.ilen } }
  | rbclr : Completes s .rbclr { s with count := 0, pres := [], flags := { s.flags with gap := false, dup := false } }
  | rbpush (h : s.count ≠ s.cfg.nslot) : Completes s .rbpush s.pushSegment
  | reasm : Completes s .reasm { s with
      obuf := Memory.write s.obuf 0 (s.packedPayloads ++ List.replicate (s.storedLength - s.packedPayloads.length) 0)
      olen := s.storedLength
      flags := { s.flags with gap := somePositionAbsent s.pres s.count } }
  | corrupts (h : s.seg.plen.val ≠ 0) : Completes s .corrupts { s with
      seg := (corrupt s.thresh.val s.seg s.rng).seg
      rng := (corrupt s.thresh.val s.seg s.rng).rng
      flags := { s.flags with hit := (corrupt s.thresh.val s.seg s.rng).hit } }
  | corruptr (a : Nat) (ha : a < s.count) (h : (s.slot 0 a).plen.val ≠ 0) : Completes s (.corruptr a) { s with
      rb := Memory.write s.rb a [(corrupt s.thresh.val (s.slot 0 a) s.rng).seg]
      rng := (corrupt s.thresh.val (s.slot 0 a) s.rng).rng
      flags := { s.flags with hit := (corrupt s.thresh.val (s.slot 0 a) s.rng).hit } }
  | detect : Completes s .detect { s with
      flg := Memory.write s.flg 0 s.flaggedNumbers, nflag := s.flaggedNumbers.length }

theorem Completes.exec_eq {s u : State} {i : Instr} (h : Completes s i u) : exec i s = .next u.complete := by
  cases h with
  | csumi => exact exec_csumi s
  | csums => exact exec_csums s
  | encode => exact exec_encode s
  | decode => exact exec_decode s
  | pget a ha => exact exec_pget_inside s a ha
  | pset a b ha => exact exec_pset_inside s a b ha
  | seginit h => exact exec_seginit_nonempty s h
  | segnext h => exact exec_segnext_more s h
  | rbclr => exact exec_rbclr s
  | rbpush h => exact exec_rbpush_room s h
  | reasm => exact exec_reasm s
  | corrupts h => exact exec_corrupts_payload s h
  | corruptr a ha h => exact exec_corruptr_payload s a ha h
  | detect => exact exec_detect s

/-- Where no check fails the operation completes. -/
theorem exists_completes (i : Instr) (s : State) (h : raisedError i s = none) : ∃ u, Completes s i u := by
  cases i <;> simp only [raisedError, ite_eq_right_iff, reduceCtorEq, imp_false] at h
  case csumi => exact ⟨_, .csumi⟩
  case csums => exact ⟨_, .csums⟩
  case encode => exact ⟨_, .encode⟩
  case decode => exact ⟨_, .decode⟩
  case pget a => exact ⟨_, .pget a (Nat.lt_of_not_le h)⟩
  case pset a b => exact ⟨_, .pset a b (Nat.lt_of_not_le h)⟩
  case seginit => exact ⟨_, .seginit h⟩
  case segnext => exact ⟨_, .segnext (by simpa using h)⟩
  case rbclr => exact ⟨_, .rbclr⟩
  case rbpush => exact ⟨_, .rbpush h⟩
  case reasm => exact ⟨_, .reasm⟩
  case corrupts => exact ⟨_, .corrupts h⟩
  case corruptr a =>
    have ha : a < s.count := Nat.lt_of_not_le fun hle => by simp [hle] at h
    exact ⟨_, .corruptr a ha (by simpa [Nat.not_le.mpr ha] using h)⟩
  case detect => exact ⟨_, .detect⟩

/-- What an operation can answer: the raise of the error it meets, or its completion. -/
theorem exec_raises_or_completes (i : Instr) (s : State) :
    (∃ e, raisedError i s = some e ∧ exec i s = .next (s.raise e)) ∨
      ∃ u, Completes s i u ∧ exec i s = .next u.complete := by
  cases h : raisedError i s with
  | some e => exact .inl ⟨e, rfl, exec_raises i s e h⟩
  | none =>
    obtain ⟨u, hu⟩ := exists_completes i s h
    exact .inr ⟨u, hu, hu.exec_eq⟩

end Sys2Proof.Machine
end

section
/-! The invariant (spec/10_state.md R55, R58, R214; spec/44_injector.md): it holds after power-up, and each move of the host,
each operation and each register write keeps it. -/

namespace Sys2Proof.Machine

/-! ### What the invariant does not look at -/

theorem State.Inv.withHost {s : State} (hs : s.Inv) (host : HostSide) (fresh : Nat) :
    State.Inv { s with host := host, fresh := fresh } := { hs with }

theorem State.Inv.complete {s : State} (hs : s.Inv) : s.complete.Inv :=
  { hs with errorRecorded := fun h => absurd rfl h }

theorem State.Inv.raise {s : State} (hs : s.Inv) (e : ErrCode) : (s.raise e).Inv :=
  { hs with errorRecorded := fun _ => rfl }

/-! ### Power-up and reset -/

theorem powerUp_inv (p : Params) (hp : p.valid = true) : (State.powerUp p).Inv where
  params := hp
  memories := by simp [State.powerUp, State.memoriesWf]
  inputLength := Nat.zero_le _
  outputLength := Nat.zero_le _
  flaggedCount := Nat.zero_le _
  segmentCount := Nat.zero_le _
  softOffset := by simp [State.powerUp]
  moreLeft h := nomatch h
  errorRecorded h := absurd rfl h
  source := rfl
  slotCount := Nat.zero_le _
  slotsWritten i hi := absurd hi (Nat.not_lt_zero i)
  presence n _ := iff_of_false (by simp [State.powerUp]) (fun ⟨i, hi, _⟩ => absurd hi (Nat.not_lt_zero i))
  order n _ h := nomatch h

/-- Settles O52: reset is power-up with the default parameters, which meet R8. -/
theorem invariantHoldsAtReset : Obligations.InvariantHoldsAtReset := powerUp_inv Params.standard (by decide)

theorem afterReset_live (r : Rng) : r.afterReset.live = true := by
  cases r <;> rfl

theorem State.Inv.resetEvent {s : State} (hs : s.Inv) : s.resetEvent.Inv :=
  { powerUp_inv s.cfg hs.params with source := afterReset_live s.rng }

/-! ### The memories -/

theorem memoriesWf_iff (s : State) :
    s.memoriesWf = true ↔
      Memory.wf s.cfg.ibufCap s.ibuf = true ∧ Memory.wf Config.total s.wbuf = true ∧
        Memory.wf s.cfg.obufCap s.obuf = true ∧ Memory.wf s.cfg.nslot s.rb = true ∧
        Memory.wf s.cfg.nslot s.flg = true ∧ presWf s.cfg.nslot s.pres = true ∧ Memory.wf s.cfg.nslot s.ord = true := by
  simp only [State.memoriesWf, Bool.and_eq_true, and_assoc]

/-! ### Register and buffer writes -/

theorem WriteEffect.inv {s t : State} (h : WriteEffect s t) (hs : s.Inv) : t.Inv := by
  obtain ⟨hib, hwb, hob, hrb, hfl, hpr, hor⟩ := (memoriesWf_iff s).mp hs.memories
  cases h with
  | range => exact hs.raise .range
  | ilen n hn =>
    exact { hs with
      inputLength := hn, segmentCount := Nat.zero_le _, softOffset := by simp, moreLeft := fun h => nomatch h }
  | segnum v => exact { hs with }
  | segcsum v => exact { hs with }
  | segplen n => exact { hs with }
  | thresh n => exact { hs with }
  | lfsr old v _ hv => exact { hs with source := by simpa [Rng.live] using hv }
  | ibuf index b hi =>
    exact { hs with
      memories := (memoriesWf_iff _).mpr ⟨wf_write _ _ _ _ hib hi, hwb, hob, hrb, hfl, hpr, hor⟩ }
  | wbuf index b hi =>
    exact { hs with
      memories := (memoriesWf_iff _).mpr ⟨hib, wf_write _ _ _ _ hwb hi, hob, hrb, hfl, hpr, hor⟩ }

/-! ### The Codec -/

theorem State.Inv.encode {s : State} (hs : s.Inv) :
    State.Inv { s with wbuf := Memory.write s.wbuf 0 (recordBytes s.seg) } := by
  obtain ⟨hib, hwb, hob, hrb, hfl, hpr, hor⟩ := (memoriesWf_iff s).mp hs.memories
  have hfit : 0 + (recordBytes s.seg).length ≤ Config.total := by simp [Config.total]
  exact { hs with memories := (memoriesWf_iff _).mpr ⟨hib, wf_write _ _ _ _ hwb hfit, hob, hrb, hfl, hpr, hor⟩ }

theorem State.Inv.decode {s : State} (hs : s.Inv) (g : Segment) (z : Bool) :
    State.Inv { s with seg := g, flags := { s.flags with z := z } } := { hs with }

/-! ### The Segmenter -/

theorem State.Inv.seginit {s : State} (hs : s.Inv) (h : s.ilen ≠ 0) :
    State.Inv { s with scnt := 0, soff := 0, flags := { s.flags with more := true } } :=
  { hs with
    segmentCount := Nat.zero_le _, softOffset := by simp, moreLeft := fun _ => Nat.pos_of_ne_zero h }

/-- The cursor stays at `min(SCNT * 252, ILEN)` (R44), and the bound of R8 on IBUF_CAP bounds SCNT (R43). -/
theorem State.Inv.segnext {s : State} (hs : s.Inv) (h : s.flags.more = true) (g : Segment) :
    State.Inv { s with
      seg := g
      soff := s.soff + chunkLength s
      scnt := s.scnt + 1
      flags := { s.flags with more := moreToEmit (s.soff + chunkLength s) s.ilen } } := by
  have hleft := hs.moreLeft h
  have hoff := hs.softOffset
  have hlen := hs.inputLength
  have hcap : s.cfg.ibufCap ≤ 65536 * 252 := (of_decide_eq_true hs.params).2.2.2
  refine { hs with segmentCount := ?_, softOffset := ?_, moreLeft := of_decide_eq_true }
  · show s.scnt + 1 ≤ 65536
    omega
  · show s.soff + min 252 (s.ilen - s.soff) = min ((s.scnt + 1) * 252) s.ilen
    omega

/-! ### The reorder buffer -/

theorem State.Inv.rbclr {s : State} (hs : s.Inv) :
    State.Inv { s with count := 0, pres := [], flags := { s.flags with gap := false, dup := false } } := by
  obtain ⟨hib, hwb, hob, hrb, hfl, -, hor⟩ := (memoriesWf_iff s).mp hs.memories
  exact { hs with
    memories := (memoriesWf_iff _).mpr ⟨hib, hwb, hob, hrb, hfl, presWf_nil _, hor⟩
    slotCount := Nat.zero_le _
    slotsWritten := fun i hi => absurd hi (Nat.not_lt_zero i)
    presence := fun n _ => iff_of_false (by simp) (fun ⟨i, hi, _⟩ => absurd hi (Nat.not_lt_zero i))
    order := fun n _ h => nomatch h }

theorem slotNumber?_pushSegment (s : State) (i : Nat) :
    s.pushSegment.slotNumber? i = if i = s.count then some s.seg.num.toNat else s.slotNumber? i := by
  simp only [State.slotNumber?, get?_rb_pushSegment]
  split <;> rfl

theorem slotNumber?_pushSegment_of_lt (s : State) (i : Nat) (hi : i < s.count) :
    s.pushSegment.slotNumber? i = s.slotNumber? i := by
  rw [slotNumber?_pushSegment, if_neg (Nat.ne_of_lt hi)]

theorem pushSegment_memoriesWf (s : State) (hs : s.Inv) (h : s.count < s.cfg.nslot) :
    s.pushSegment.memoriesWf = true := by
  obtain ⟨hib, hwb, hob, hrb, hfl, hpr, hor⟩ := (memoriesWf_iff s).mp hs.memories
  have hpush : Memory.wf s.cfg.nslot s.pushSegment.rb = true := wf_write _ _ _ _ hrb h
  refine (memoriesWf_iff _).mpr ⟨hib, hwb, hob, hpush, hfl, ?_⟩
  by_cases hn : s.numberIsNew
  · obtain ⟨hpres, hord⟩ := pushSegment_of_numberIsNew s hn
    rw [hpres, hord]
    exact ⟨presWf_setPresBit _ _ _ hpr hn.1, wf_write _ _ _ _ hor hn.1⟩
  · obtain ⟨hpres, hord⟩ := pushSegment_of_not_numberIsNew s hn
    rw [hpres, hord]
    exact ⟨hpr, hor⟩

/-- (b) of R55 after a push: the occupied slots have one number more, the one pushed. -/
theorem pushSegment_presence (s : State) (hs : s.Inv) (n : Nat) (hn : n < s.cfg.nslot) :
    presBit s.pushSegment.pres n = true ↔ ∃ i, i < s.count + 1 ∧ s.pushSegment.slotNumber? i = some n := by
  rw [presBit_pushSegment, hs.presence n hn, and_iff_left hn]
  constructor
  · rintro (⟨i, hi, hnum⟩ | rfl)
    · exact ⟨i, Nat.lt_succ_of_lt hi, (slotNumber?_pushSegment_of_lt s i hi).trans hnum⟩
    · exact ⟨s.count, Nat.lt_succ_self _, (slotNumber?_pushSegment s _).trans (if_pos rfl)⟩
  · rintro ⟨i, hi, hnum⟩
    rw [slotNumber?_pushSegment] at hnum
    split at hnum
    · exact .inr (Option.some.inj hnum).symm
    · exact .inl ⟨i, by omega, hnum⟩

/-- (c) of R55 after a push: a new number has its first arrival in the slot it goes to, any other number where it had it. -/
theorem pushSegment_order (s : State) (hs : s.Inv) (n : Nat) (hn : n < s.cfg.nslot)
    (hp : presBit s.pushSegment.pres n = true) :
    ∃ i, Memory.get? s.pushSegment.ord n = some i ∧ s.pushSegment.firstArrival n i := by
  rw [get?_ord_pushSegment]
  by_cases hold : presBit s.pres n = true
  · obtain ⟨i, hord, hi, hnum, hfirst⟩ := hs.order n hn hold
    refine ⟨i, by rw [if_neg (by simp [hold]), hord], Nat.lt_succ_of_lt hi, ?_, fun j hj => ?_⟩
    · rw [slotNumber?_pushSegment_of_lt s i hi, hnum]
    · rw [slotNumber?_pushSegment_of_lt s j (hj.trans hi)]
      exact hfirst j hj
  · have heq : n = s.seg.num.toNat := (((presBit_pushSegment s n).mp hp).resolve_left hold).1
    refine ⟨s.count, if_pos ⟨heq, hn, by simpa using hold⟩, Nat.lt_succ_self _, ?_, fun j hj hnum => ?_⟩
    · rw [slotNumber?_pushSegment, if_pos rfl, heq]
    · rw [slotNumber?_pushSegment_of_lt s j hj] at hnum
      exact hold ((hs.presence n hn).mpr ⟨j, hj, hnum⟩)

theorem State.Inv.rbpush {s : State} (hs : s.Inv) (h : s.count ≠ s.cfg.nslot) : s.pushSegment.Inv :=
  have hroom : s.count < s.cfg.nslot := Nat.lt_of_le_of_ne hs.slotCount h
  { hs with
    memories := pushSegment_memoriesWf s hs hroom
    slotCount := hroom
    slotsWritten := fun i hi => by
      rw [get?_rb_pushSegment]
      split
      · rfl
      · exact hs.slotsWritten i (Nat.lt_of_le_of_ne (Nat.le_of_lt_succ hi) ‹_›)
    presence := pushSegment_presence s hs
    order := pushSegment_order s hs }

/-! ### The Reassembler -/

/-- Each slot contributes at most 252 bytes. -/
theorem sum_range_le (f : Nat → Nat) (n b : Nat) (h : ∀ i, f i ≤ b) : ((List.range n).map f).sum ≤ n * b := by
  have hsum := List.sum_le_card_nsmul ((List.range n).map f) b (by simpa using fun i _ => h i)
  simpa using hsum

theorem plen_le (g : Segment) : g.plen.val ≤ 252 := Nat.le_of_lt_succ g.plen.isLt

theorem storedLength_le (s : State) : s.storedLength ≤ s.count * 252 :=
  sum_range_le _ _ _ fun i => plen_le (s.slot 0 i)

theorem packedPayloads_length_le (s : State) : s.packedPayloads.length ≤ s.count * 252 := by
  rw [State.packedPayloads, List.length_flatMap]
  refine sum_range_le _ _ _ fun p => ?_
  split
  · rw [payload_length]
    exact plen_le _
  · exact Nat.zero_le _

/-- At most NSLOT slots of 252 bytes fill OBUF. -/
theorem State.Inv.reasm {s : State} (hs : s.Inv) (gap : Bool) :
    State.Inv { s with
      obuf := Memory.write s.obuf 0
        (s.packedPayloads ++ List.replicate (s.storedLength - s.packedPayloads.length) 0)
      olen := s.storedLength
      flags := { s.flags with gap := gap } } := by
  obtain ⟨hib, hwb, hob, hrb, hfl, hpr, hor⟩ := (memoriesWf_iff s).mp hs.memories
  have hcap : s.count * 252 ≤ s.cfg.obufCap := Nat.mul_le_mul_right 252 hs.slotCount
  have hstored := storedLength_le s
  have hpacked := packedPayloads_length_le s
  have hfit : 0 + (s.packedPayloads ++ List.replicate (s.storedLength - s.packedPayloads.length) 0).length ≤
      s.cfg.obufCap := by
    rw [List.length_append, List.length_replicate]
    omega
  exact { hs with
    memories := (memoriesWf_iff _).mpr ⟨hib, hwb, wf_write _ _ _ _ hob hfit, hrb, hfl, hpr, hor⟩
    outputLength := hstored.trans hcap }

/-! ### The Injector -/

/-- A slot that takes a segment with the number it had keeps every slot's number. -/
theorem slotNumber?_write_same (s : State) (a : Nat) (g : Segment) (hn : s.slotNumber? a = some g.num.toNat) (i : Nat) :
    State.slotNumber? { s with rb := Memory.write s.rb a [g] } i = s.slotNumber? i := by
  simp only [State.slotNumber?, get?_write_one]
  split
  · next hi => exact hi ▸ hn.symm
  · rfl

/-- An occupied slot may take any segment with the number it had. -/
theorem State.Inv.replaceSlot {s : State} (hs : s.Inv) (a : Nat) (ha : a < s.count) (g : Segment)
    (hn : s.slotNumber? a = some g.num.toNat) : State.Inv { s with rb := Memory.write s.rb a [g] } := by
  obtain ⟨hib, hwb, hob, hrb, hfl, hpr, hor⟩ := (memoriesWf_iff s).mp hs.memories
  have hnum := slotNumber?_write_same s a g hn
  have hfit : a + 1 ≤ s.cfg.nslot := ha.trans_le hs.slotCount
  exact { hs with
    memories := (memoriesWf_iff _).mpr ⟨hib, hwb, hob, wf_write _ _ _ _ hrb hfit, hfl, hpr, hor⟩
    slotsWritten := fun i hi => by
      rw [get?_write_one]
      split
      · rfl
      · exact hs.slotsWritten i hi
    presence := by simpa only [hnum] using hs.presence
    order := by simpa only [State.firstArrival, hnum] using hs.order }

theorem slotNumber?_of_lt {s : State} (hs : s.Inv) (i : Nat) (hi : i < s.count) :
    s.slotNumber? i = some (s.slot 0 i).num.toNat := by
  obtain ⟨g, hg⟩ := Option.isSome_iff_exists.mp (hs.slotsWritten i hi)
  rw [State.slotNumber?, hg, slot_of_get? s 0 i g hg]
  rfl

/-! ### The Detector -/

theorem State.Inv.detect {s : State} (hs : s.Inv) :
    State.Inv { s with flg := Memory.write s.flg 0 s.flaggedNumbers, nflag := s.flaggedNumbers.length } := by
  obtain ⟨hib, hwb, hob, hrb, hfl, hpr, hor⟩ := (memoriesWf_iff s).mp hs.memories
  have hfit : s.flaggedNumbers.length ≤ s.cfg.nslot := (flaggedNumbers_length_le s).trans hs.slotCount
  exact { hs with
    memories := (memoriesWf_iff _).mpr
      ⟨hib, hwb, hob, hrb, wf_write _ _ _ _ hfl ((Nat.zero_add _).trans_le hfit), hpr, hor⟩
    flaggedCount := hfit }

/-! ### Operations and steps -/

/-- What an operation completes from meets the invariant. -/
theorem Completes.inv {s u : State} {i : Instr} (h : Completes s i u) (hs : s.Inv) : u.Inv := by
  cases h with
  | csumi => exact { hs with }
  | csums => exact { hs with }
  | encode => exact hs.encode
  | decode => exact hs.decode _ _
  | pget a ha => exact { hs with }
  | pset a b ha => exact { hs with }
  | seginit h => exact hs.seginit h
  | segnext h => exact hs.segnext h _
  | rbclr => exact hs.rbclr
  | rbpush h => exact hs.rbpush h
  | reasm => exact hs.reasm _
  | corrupts h =>
    obtain ⟨-, -, -, -, hlive, -⟩ := corrupt_keeps s.thresh.val s.seg s.rng (Nat.pos_of_ne_zero h)
    exact { hs with source := hlive hs.source }
  | corruptr a ha h =>
    obtain ⟨hnum, -, -, -, hlive, -⟩ := corrupt_keeps s.thresh.val (s.slot 0 a) s.rng (Nat.pos_of_ne_zero h)
    have hslot := hs.replaceSlot a ha (corrupt s.thresh.val (s.slot 0 a) s.rng).seg
      (by rw [hnum, slotNumber?_of_lt hs a ha])
    exact { hslot with source := hlive hs.source }
  | detect => exact hs.detect

theorem exec_keeps_inv (i : Instr) (s t : State) (hs : s.Inv) (h : exec i s = .next t) : t.Inv := by
  rcases exec_raises_or_completes i s with ⟨e, -, hx⟩ | ⟨u, hu, hx⟩
  · cases hx.symm.trans h
    exact hs.raise e
  · cases hx.symm.trans h
    exact (hu.inv hs).complete

theorem perform_keeps_inv (s t : State) (act : HostAction) (hs : s.Inv) (h : s.perform act = .next t) : t.Inv := by
  rcases perform_cases s t act h with
    ⟨_, _, v, -, -, rfl⟩ | ⟨_, i, -, -, hx⟩ | ⟨_, -, rfl⟩ | ⟨-, hw⟩ | ⟨-, rfl⟩
  · exact hs.withHost _ _
  · exact exec_keeps_inv i s t hs hx
  · exact hs.raise .illegal
  · exact hw.inv hs
  · exact hs.resetEvent

/-- Settles O53: a role's move leaves the block, and every host access keeps the invariant. -/
theorem invariantKeptByEveryStep : Obligations.InvariantKeptByEveryStep := by
  intro s t hs h
  rcases step_cases s t h with ⟨-, host, rfl⟩ | ⟨act, rest, -, hact⟩
  · exact hs.withHost host s.fresh
  · exact perform_keeps_inv (s.popped rest) t act (hs.withHost _ s.fresh) hact

end Sys2Proof.Machine
end

section
/-! The checksum as a sum (spec/40_checksum.md R111, R112, R115, R116): the accumulator after any words is one function of
their sum, so what R112 and R116 say of the checksum is arithmetic of sums. -/

namespace Sys2Proof.Machine

/-! ### The accumulator -/

theorem foldl_foldAdd_le (ws : List Nat) (acc : Nat) (ha : acc ≤ 0xFFFF) (hw : ∀ w ∈ ws, w ≤ 0xFFFF) :
    ws.foldl foldAdd acc ≤ 0xFFFF := by
  induction ws generalizing acc with
  | nil => exact ha
  | cons w ws ih =>
    obtain ⟨hw0, hws⟩ := List.forall_mem_cons.mp hw
    exact ih _ (foldAdd_le acc w ha hw0) hws

theorem accumulate_le (p : List Byte) : accumulate 0 p ≤ 0xFFFF :=
  accumulate_eq_foldl 0 p ▸ foldl_foldAdd_le _ 0 (Nat.zero_le _) (wordsOf_le p)

/-- The checksum is the plain complement of the accumulator (R111). -/
theorem checksum_toNat (p : List Byte) : (checksum p).toNat = 0xFFFF - accumulate 0 p := by
  simp only [checksum, BitVec.toNat_ofNat]
  omega

theorem checksum_eq_iff (p q : List Byte) : checksum p = checksum q ↔ accumulate 0 p = accumulate 0 q := by
  have hp := accumulate_le p
  have hq := accumulate_le q
  rw [← BitVec.toNat_inj, checksum_toNat, checksum_toNat]
  omega

/-- Settles O8: the fold by arithmetic, the final accumulator by induction over the words. -/
theorem accumulatorFitsSeventeenBits : Obligations.AccumulatorFitsSeventeenBits := by
  refine ⟨fun acc w ha hw => ⟨by omega, foldAdd_le acc w ha hw, fun h => ?_⟩,
    fun p => ⟨accumulate_le p, checksum_toNat p⟩⟩
  rw [foldAdd, if_pos h]
  omega

/-! ### The closed form -/

/-- What the accumulator makes of a sum of words (R112). -/
def foldedSum (n : Nat) : Nat := if n = 0 then 0 else (n - 1) % 65535 + 1

/-- Adding a word with its fold is adding it to the sum. -/
theorem foldAdd_foldedSum (n w : Nat) (hw : w ≤ 0xFFFF) : foldAdd (foldedSum n) w = foldedSum (n + w) := by
  unfold foldAdd foldedSum
  split_ifs <;> omega

theorem foldl_foldAdd_foldedSum (ws : List Nat) (n : Nat) (hw : ∀ w ∈ ws, w ≤ 0xFFFF) :
    ws.foldl foldAdd (foldedSum n) = foldedSum (n + ws.sum) := by
  induction ws generalizing n with
  | nil => rfl
  | cons w ws ih =>
    obtain ⟨hw0, hws⟩ := List.forall_mem_cons.mp hw
    rw [List.foldl_cons, foldAdd_foldedSum n w hw0, ih _ hws, List.sum_cons, Nat.add_assoc]

theorem accumulate_eq_foldedSum (p : List Byte) : accumulate 0 p = foldedSum (wordsOf p).sum := by
  have h := foldl_foldAdd_foldedSum (wordsOf p) 0 (wordsOf_le p)
  rwa [Nat.zero_add, ← accumulate_eq_foldl] at h

/-- Settles O9: the accumulator is `foldedSum` of the sum of the words, which is 0 when every word is and does not depend on
their order. -/
theorem checksumClosedForm : Obligations.ChecksumClosedForm := by
  refine ⟨fun p => ?_, fun p q hpq => ?_⟩
  · have hacc := accumulate_eq_foldedSum p
    have hcsum := checksum_toNat p
    have hfull : checksum p = 0xFFFF ↔ (checksum p).toNat = 0xFFFF := BitVec.toNat_inj.symm
    simp only [← List.sum_eq_zero_iff, hfull, hcsum, hacc, foldedSum]
    refine ⟨trivial, ?_, fun h => ?_⟩
    · split_ifs <;> omega
    · rw [if_neg h]
      omega
  · rw [checksum_eq_iff, accumulate_eq_foldedSum, accumulate_eq_foldedSum, hpq.sum_eq]

/-- Settles O10: trailing zero bytes complete an odd last byte and add zero words. -/
theorem zeroPaddingKeepsTheChecksum : Obligations.ZeroPaddingKeepsTheChecksum := checksum_append_zeros

/-! ### One changed byte -/

/-- A byte counts once or 256 times in the sum of the words, by its place in its word. -/
theorem wordsOf_sum_set (p : List Byte) (k : Nat) (b : Byte) (hk : k < p.length) :
    ∃ c, 1 ≤ c ∧ c ≤ 256 ∧ (wordsOf (p.set k b)).sum + c * p[k].toNat = (wordsOf p).sum + c * b.toNat := by
  induction p using wordsOf.induct generalizing k with
  | case1 => simp at hk
  | case2 b0 =>
    obtain rfl : k = 0 := by simpa using hk
    exact ⟨256, by decide, le_rfl, by simp [wordsOf]; omega⟩
  | case3 b0 b1 rest ih =>
    match k with
    | 0 => exact ⟨256, by decide, le_rfl, by simp [wordsOf]; omega⟩
    | 1 => exact ⟨1, le_rfl, by decide, by simp [wordsOf]; omega⟩
    | k + 2 =>
      obtain ⟨c, hc1, hc2, hsum⟩ := ih k (by simpa using hk)
      refine ⟨c, hc1, hc2, ?_⟩
      simp only [List.set_cons_succ, wordsOf, List.sum_cons, List.getElem_cons_succ]
      omega

/-- Two sums less than 65535 apart fold to different accumulators. -/
theorem foldedSum_ne_of_close (m n : Nat) (hne : m ≠ n) (hmn : m < n + 65535) (hnm : n < m + 65535) :
    foldedSum m ≠ foldedSum n := by
  unfold foldedSum
  split_ifs <;> omega

/-- Settles O11: one byte moves the sum of the words by at most 256 * 255, too little for the fold to hide. -/
theorem oneChangedByteChangesTheChecksum : Obligations.OneChangedByteChangesTheChecksum := by
  intro p k b hk hne
  obtain ⟨c, hc1, hc2, hsum⟩ := wordsOf_sum_set p k b hk
  have hbyte : p[k].toNat ≠ b.toNat := fun h =>
    hne ((List.getElem?_eq_getElem hk).trans (congrArg some (BitVec.eq_of_toNat_eq h)))
  have hold : c * p[k].toNat ≤ 256 * 255 := Nat.mul_le_mul hc2 (Nat.le_of_lt_succ p[k].isLt)
  have hnew : c * b.toNat ≤ 256 * 255 := Nat.mul_le_mul hc2 (Nat.le_of_lt_succ b.isLt)
  have hmul : c * p[k].toNat ≠ c * b.toNat := fun h => hbyte (Nat.eq_of_mul_eq_mul_left hc1 h)
  rw [Ne, checksum_eq_iff, accumulate_eq_foldedSum, accumulate_eq_foldedSum]
  exact foldedSum_ne_of_close _ _ (by omega) (by omega) (by omega)

end Sys2Proof.Machine
end

section
/-! The round trips of the codec (spec/41_codec.md R137, R138): a segment through its record and back, and a record through
its segment and back. -/

namespace Sys2Proof.Machine

/-! ### A segment through its record -/

/-- Decoding looks at the 256 bytes of the record only. -/
theorem segmentOfRecord_congr (f g : Nat → Byte) (h : ∀ i, i < 256 → f i = g i) :
    segmentOfRecord f = segmentOfRecord g := by
  have hpay : (Vector.ofFn fun i : Fin 252 => f (4 + i.val)) = Vector.ofFn fun i => g (4 + i.val) :=
    congrArg Vector.ofFn (funext fun i => h (4 + i.val) (by omega))
  simp only [segmentOfRecord, hpay, h 0 (by decide), h 1 (by decide), h 2 (by decide), h 3 (by decide)]

@[simp] theorem throughCodec_num (g : Segment) : (throughCodec g).num = g.num := be16_hiByte_loByte g.num
@[simp] theorem throughCodec_csum (g : Segment) : (throughCodec g).csum = g.csum := be16_hiByte_loByte g.csum
@[simp] theorem throughCodec_plen (g : Segment) : (throughCodec g).plen.val = 252 := rfl

/-- The codec extends the payload to 252 bytes by zeros (R137 (a)). -/
theorem throughCodec_payload (g : Segment) :
    (throughCodec g).payload = g.payload ++ List.replicate (252 - g.plen.val) 0 := by
  have h := segmentOfRecord_payload (fun i => (recordBytes g).getD i 0) g.payload
    (by rw [payload_length]; exact plen_le g) fun i hi => by
      rw [List.getD_eq_getElem?_getD, List.getD_eq_getElem?_getD, recordBytes_payload g i hi, payload_getElem?]
      split <;> rfl
  rwa [payload_length] at h

/-- ENCODE and then DECODE take SEG through the codec. -/
theorem exec_encode_decode (s : State) :
    ∃ t u, exec .encode s = .next t ∧ exec .decode t = .next u ∧ u.seg = throughCodec s.seg := by
  refine ⟨_, _, exec_encode s, exec_decode _, segmentOfRecord_congr _ _ fun i hi => ?_⟩
  simp only [State.wbufByte, complete_wbuf, get?_write_recordBytes, if_pos hi, List.getD_eq_getElem?_getD]
  rw [List.getElem?_eq_getElem (by rwa [recordBytes_length])]
  rfl

/-! ### A record through its segment -/

theorem recordBytes_segmentOfRecord (f : Nat → Byte) (i : Nat) (hi : i < 256) :
    (recordBytes (segmentOfRecord f))[i]? = some (f i) := by
  match i with
  | 0 => exact congrArg some (hiByte_be16 (f 0) (f 1))
  | 1 => exact congrArg some (loByte_be16 (f 0) (f 1))
  | 2 => exact congrArg some (hiByte_be16 (f 2) (f 3))
  | 3 => exact congrArg some (loByte_be16 (f 2) (f 3))
  | k + 4 =>
    have hk : k < 252 := by omega
    rw [Nat.add_comm k 4, recordBytes_payload _ k hk, segmentOfRecord_byteAt f k hk, if_pos]
    exact hk

/-- DECODE and then ENCODE leave the wire buffer as it was (R137 (b)). -/
theorem exec_decode_encode (s : State) (r : Record) (hr : s.wbufHolds r) :
    ∃ t u, exec .decode s = .next t ∧ exec .encode t = .next u ∧ u.wbufHolds r := by
  refine ⟨_, _, exec_decode s, exec_encode _, fun i => ?_⟩
  simp only [complete_wbuf, complete_seg, get?_write_recordBytes, if_pos i.isLt]
  rw [recordBytes_segmentOfRecord _ _ i.isLt, wbufByte_of_holds s 0 r hr i.val i.isLt]
  rfl

/-- Decoding is injective on records (R137 (c)). -/
theorem record_eq_of_segment_eq (s u : State) (r q : Record) (hr : s.wbufHolds r) (hq : u.wbufHolds q)
    (h : segmentOfRecord (s.wbufByte 0) = segmentOfRecord (u.wbufByte 0)) : r = q := by
  apply Vector.ext
  intro i hi
  rw [← wbufByte_of_holds s 0 r hr i hi, ← wbufByte_of_holds u 0 q hq i hi]
  apply Option.some.inj
  rw [← recordBytes_segmentOfRecord _ i hi, ← recordBytes_segmentOfRecord _ i hi, h]

/-! ### Segments with one record -/

/-- A record holds the number, the checksum and the zero-extended payload, and no more (R137 (c)). -/
theorem recordBytes_eq_of_padded_eq (g h : Segment) (hnum : g.num = h.num) (hcsum : g.csum = h.csum)
    (hpad : g.payload ++ List.replicate (252 - g.plen.val) 0 = h.payload ++ List.replicate (252 - h.plen.val) 0) :
    recordBytes g = recordBytes h := by
  simp only [recordBytes, List.append_assoc, hnum, hcsum, hpad]

/-- A segment of `n` zero bytes. -/
def zeroSegment (n : Fin 253) : Segment := { num := 0, csum := 0, plen := n, pay := Vector.replicate 252 0 }

theorem zeroSegment_padded (n : Fin 253) :
    (zeroSegment n).payload ++ List.replicate (252 - n.val) 0 = List.replicate 252 0 := by
  have hle : n.val ≤ 252 := Nat.le_of_lt_succ n.isLt
  rw [Segment.payload, zeroSegment, Vector.toList_replicate, List.take_replicate, List.replicate_append_replicate,
    Nat.min_eq_left hle, Nat.add_sub_cancel' hle]

theorem zeroSegment_recordBytes (m n : Fin 253) : recordBytes (zeroSegment m) = recordBytes (zeroSegment n) :=
  recordBytes_eq_of_padded_eq _ _ rfl rfl ((zeroSegment_padded m).trans (zeroSegment_padded n).symm)

/-- Settles O16: the two round trips by their lemmas; the empty segment and a zero byte have one record. -/
theorem codecRoundTrips : Obligations.CodecRoundTrips := by
  refine ⟨fun s => ?_, exec_decode_encode, recordBytes_eq_of_padded_eq, ?_, fun s u r q hr hq => ?_⟩
  · obtain ⟨t, u, ht, hu, hseg⟩ := exec_encode_decode s
    refine ⟨t, u, ht, hu, ?_⟩
    rw [hseg]
    exact ⟨throughCodec_num _, throughCodec_csum _, throughCodec_plen _, throughCodec_payload _⟩
  · exact ⟨zeroSegment 0, zeroSegment 1, fun h => absurd (congrArg Segment.plen h) (by decide),
      zeroSegment_recordBytes 0 1⟩
  · exact ⟨_, _, exec_decode s, exec_decode u, record_eq_of_segment_eq s u r q hr hq⟩

/-- A full payload is the whole store. -/
theorem payload_of_full (g : Segment) (h : g.plen.val = 252) : g.payload = g.pay.toList := by
  rw [Segment.payload, h]
  exact List.take_of_length_le (by simp)

/-- Settles O17: the codec keeps SEGCSUM and adds zero bytes to the payload, which the checksum does not see. -/
theorem checksumSurvivesTheCodec : Obligations.ChecksumSurvivesTheCodec := by
  intro s hs
  obtain ⟨t, u, ht, hu, hseg⟩ := exec_encode_decode s
  refine ⟨t, u, ht, hu, ?_⟩
  rw [hseg, throughCodec_csum, hs, ← payload_of_full _ (throughCodec_plen _), throughCodec_payload,
    checksum_append_zeros]

end Sys2Proof.Machine
end

section
/-! The Segmenter (spec/42_segmenter.md R150 to R154): the segment SEGNEXT leaves, the list of the segments of a buffer, and
that repeated SEGNEXT walks down this list. -/

namespace Sys2Proof.Machine

/-! ### SEGNEXT -/

/-- The store of a segment made of a chunk is the chunk, and zeros beyond it (R153). -/
theorem segmentOfChunk_pay_toList (k : Nat) (csum : Half) (c : List Byte) (hc : c.length ≤ 252) :
    (segmentOfChunk k csum c).pay.toList = c ++ List.replicate (252 - c.length) 0 := by
  apply List.ext_getElem?
  intro i
  rw [List.getElem?_append, List.getElem?_replicate]
  by_cases hi : i < 252
  · rw [pay_toList_getElem? _ i hi, segmentOfChunk, Segment.byteAt, dif_pos hi, Vector.getElem_ofFn]
    by_cases hic : i < c.length
    · simp [hic]
    · simp [hic, show i - c.length < 252 - c.length by omega]
  · rw [if_neg (by omega), if_neg (by omega)]
    exact List.getElem?_eq_none (by simpa using hi)

/-- SEGNEXT over a chunk that the host has written. -/
theorem exec_segnext_of_holds (s : State) (c : List Byte) (hmore : s.flags.more = true)
    (hlen : chunkLength s = c.length) (hc : s.ibufHolds s.soff c) :
    exec .segnext s = .next { s with
      seg := segmentOfChunk s.scnt (checksum c) c
      soff := s.soff + c.length
      scnt := s.scnt + 1
      flags := { s.flags with more := moreToEmit (s.soff + c.length) s.ilen } }.complete := by
  rw [exec_segnext_more s hmore, hlen, ibufBytes_of_holds s 0 s.soff c hc, ibufBytes_of_holds s 1 s.soff c hc]

/-- Settles O21: SEGNEXT completes with the segment of the chunk it reads, and MORE = 0 is the error it raises. -/
theorem segnextEmitsTheNextChunk : Obligations.SegnextEmitsTheNextChunk := by
  refine ⟨by decide, fun s c hmore hlen hc => ?_, fun s hmore => ?_, fun s hmore => ?_⟩
  · have hle : c.length ≤ 252 := hlen.trans_le (Nat.min_le_left _ _)
    refine ⟨_, exec_segnext_of_holds s c hmore hlen.symm hc, rfl, rfl, rfl, ?_, ?_⟩
    · exact Nat.min_eq_right hle
    · exact segmentOfChunk_pay_toList s.scnt (checksum c) c hle
  · refine ⟨_, exec_segnext_more s hmore, rfl, rfl, ?_⟩
    rw [complete_seg, segmentOfChunk_plen, ibufBytes_length]
    exact Nat.min_eq_right (Nat.min_le_left _ _)
  · exact exec_raises .segnext s .seq (if_pos hmore)

/-! ### The list of segments -/

/-- Chunk `k` of a byte sequence: `B[252k .. min(252(k+1), N))` (R150). -/
def chunkAt (b : List Byte) (k : Nat) : List Byte := (b.drop (252 * k)).take 252

theorem chunkAt_length (b : List Byte) (k : Nat) : (chunkAt b k).length = min 252 (b.length - 252 * k) := by
  simp [chunkAt]

theorem chunkAt_length_le (b : List Byte) (k : Nat) : (chunkAt b k).length ≤ 252 :=
  chunkAt_length b k ▸ Nat.min_le_left _ _

theorem chunksOf_getElem? (fuel : Nat) (b : List Byte) (hf : b.length ≤ fuel) (k : Nat) :
    (chunksOf fuel b)[k]? = if 252 * k < b.length then some (chunkAt b k) else none := by
  induction fuel generalizing b k with
  | zero => simp [chunksOf, Nat.le_zero.mp hf]
  | succ fuel ih =>
    by_cases hb : b = []
    · simp [chunksOf, hb]
    · have hpos := List.length_pos_iff.mpr hb
      rw [chunksOf, if_neg hb]
      cases k with
      | zero => simp [chunkAt, hpos]
      | succ k =>
        rw [List.getElem?_cons_succ, ih (b.drop 252) (by simp; omega)]
        simp only [chunkAt, List.length_drop, List.drop_drop, Nat.mul_succ, Nat.add_comm 252]
        exact if_congr (by omega) rfl rfl

theorem chunksOf_length (fuel : Nat) (b : List Byte) (hf : b.length ≤ fuel) :
    (chunksOf fuel b).length = (b.length + 251) / 252 := by
  induction fuel generalizing b with
  | zero => simp [chunksOf, Nat.le_zero.mp hf]
  | succ fuel ih =>
    by_cases hb : b = []
    · simp [chunksOf, hb]
    · have hpos := List.length_pos_iff.mpr hb
      rw [chunksOf, if_neg hb, List.length_cons, ih (b.drop 252) (by simp; omega), List.length_drop]
      omega

/-- The chunks of a byte sequence make it up again. -/
theorem chunksOf_flatten (fuel : Nat) (b : List Byte) (hf : b.length ≤ fuel) : (chunksOf fuel b).flatten = b := by
  induction fuel generalizing b with
  | zero => simp [chunksOf, List.length_eq_zero_iff.mp (Nat.le_zero.mp hf)]
  | succ fuel ih =>
    by_cases hb : b = []
    · simp [chunksOf, hb]
    · have hpos := List.length_pos_iff.mpr hb
      rw [chunksOf, if_neg hb, List.flatten_cons, ih (b.drop 252) (by simp; omega), List.take_append_drop]

theorem stampFrom_getElem? (n : Nat) (cs : List (List Byte)) (k : Nat) :
    (stampFrom n cs)[k]? = cs[k]?.map fun c => segmentOfChunk (n + k) (checksum c) c := by
  induction cs generalizing n k with
  | nil => rfl
  | cons c cs ih =>
    cases k with
    | zero => rfl
    | succ k =>
      rw [stampFrom, List.getElem?_cons_succ, ih, List.getElem?_cons_succ, Nat.add_right_comm]
      rfl

/-- Segment `k` of a buffer is chunk `k`, numbered and stamped (R150). -/
theorem segmentsOf_getElem? (b : List Byte) (k : Nat) :
    (segmentsOf b)[k]? =
      if 252 * k < b.length then some (segmentOfChunk k (checksum (chunkAt b k)) (chunkAt b k)) else none := by
  rw [segmentsOf, stampFrom_getElem?, chunksOf_getElem? _ b le_rfl, Nat.zero_add]
  split <;> rfl

theorem stampFrom_length (n : Nat) (cs : List (List Byte)) : (stampFrom n cs).length = cs.length := by
  induction cs generalizing n with
  | nil => rfl
  | cons c cs ih => simp [stampFrom, ih]

theorem segmentsOf_length (b : List Byte) : (segmentsOf b).length = (b.length + 251) / 252 := by
  rw [segmentsOf, stampFrom_length, chunksOf_length _ b le_rfl]

theorem segmentsOf_map_payload (b : List Byte) : (segmentsOf b).map Segment.payload = chunksOf b.length b := by
  apply List.ext_getElem?
  intro k
  rw [List.getElem?_map, segmentsOf_getElem?, chunksOf_getElem? _ b le_rfl]
  split
  · exact congrArg some (segmentOfChunk_payload _ _ _ (chunkAt_length_le b k))
  · rfl

/-- The payloads of the segments of a buffer make it up again (R151). -/
theorem segmentsOf_flatMap_payload (b : List Byte) : (segmentsOf b).flatMap Segment.payload = b := by
  rw [List.flatMap_def, segmentsOf_map_payload, chunksOf_flatten _ b le_rfl]

/-- The sum of the payload lengths is the length of the payloads together. -/
theorem sum_plen (gs : List Segment) : (gs.map fun g => g.plen.val).sum = (gs.flatMap Segment.payload).length := by
  simp only [List.length_flatMap, payload_length]

/-- The segments of a buffer are numbered from 0 on (R150), up to the width of a number. -/
theorem segmentsOf_map_num (b : List Byte) :
    (segmentsOf b).map Segment.num = (List.range (segmentsOf b).length).map (BitVec.ofNat 16) := by
  apply List.ext_getElem?
  intro k
  simp only [List.getElem?_map, segmentsOf_getElem?, List.range_eq_range']
  by_cases hk : 252 * k < b.length
  · simp [hk, segmentsOf_length, show k < (b.length + 251) / 252 by omega]
  · simp [hk, segmentsOf_length, show ¬ k < (b.length + 251) / 252 by omega]

theorem segmentsOf_nums_nodup (b : List Byte) (hb : (segmentsOf b).length ≤ 65536) :
    ((segmentsOf b).map Segment.num).Nodup := by
  rw [segmentsOf_map_num]
  refine List.Nodup.map_on (fun i hi j hj hij => ?_) List.nodup_range
  have htoNat := congrArg BitVec.toNat hij
  rw [List.mem_range] at hi hj
  simp only [BitVec.toNat_ofNat] at htoNat
  omega

/-- Settles O22: segment `k` by `segmentsOf_getElem?`, and the list by its chunks. -/
theorem segmentsOfABuffer : Obligations.SegmentsOfABuffer := by
  intro b _ hle
  have hcount : (segmentsOf b).length ≤ 65536 := by
    rw [segmentsOf_length]
    omega
  refine ⟨segmentsOf_length b, hcount, fun k hk => ?_, fun k g hg => ?_, ?_, segmentsOf_nums_nodup b hcount⟩
  · have hpay := segmentOfChunk_payload k (checksum (chunkAt b k)) (chunkAt b k) (chunkAt_length_le b k)
    refine ⟨_, (segmentsOf_getElem? b k).trans (if_pos hk), ?_, hpay, congrArg checksum hpay.symm⟩
    rw [segmentOfChunk_num, BitVec.toNat_ofNat]
    omega
  · rw [segmentsOf_getElem?, Option.ite_none_right_eq_some] at hg
    obtain ⟨hk, hg⟩ := hg
    cases hg
    rw [segmentOfChunk_plen, chunkAt_length, segmentsOf_length]
    split_ifs <;> omega
  · rw [sum_plen, segmentsOf_flatMap_payload]

/-! ### SEGINIT and repeated SEGNEXT -/

/-- The Segmenter is about to emit segment `j` of the buffer `b`, or has none left. -/
structure State.emitting (s : State) (b : List Byte) (j : Nat) : Prop where
  ilen : s.ilen = b.length
  holds : s.ibufHolds 0 b
  scnt : s.scnt = j
  soff : s.soff = min (252 * j) b.length
  more : s.flags.more = decide (252 * j < b.length)

theorem ibufHolds_chunkAt {s : State} {b : List Byte} (hb : s.ibufHolds 0 b) (j : Nat) :
    s.ibufHolds (252 * j) (chunkAt b j) := by
  intro i hi
  rw [chunkAt_length] at hi
  have hread := hb (252 * j + i) (by omega)
  rw [Nat.zero_add] at hread
  rw [hread, chunkAt, List.getElem?_take_of_lt (by omega), List.getElem?_drop]

/-- While a segment is left SEGNEXT leaves it in SEG, and the Segmenter is about to emit the next one. -/
theorem emitting_segnext {s : State} {b : List Byte} {j : Nat} (hs : s.emitting b j) (hj : 252 * j < b.length) :
    ∃ t, exec .segnext s = .next t ∧ t.err = .ok ∧ (segmentsOf b)[j]? = some t.seg ∧ t.emitting b (j + 1) := by
  obtain ⟨hlen, hb, hscnt, hsoff, hmore⟩ := hs
  have hoff : s.soff = 252 * j := hsoff.trans (Nat.min_eq_left hj.le)
  have hclen : chunkLength s = (chunkAt b j).length := by rw [chunkLength, hlen, hoff, chunkAt_length]
  have hnext : s.soff + (chunkAt b j).length = min (252 * (j + 1)) b.length := by
    rw [hoff, chunkAt_length]
    omega
  refine ⟨_, exec_segnext_of_holds s (chunkAt b j) (by rw [hmore, decide_eq_true hj]) hclen
    (hoff ▸ ibufHolds_chunkAt hb j), rfl, ?_, ⟨hlen, hb, congrArg (· + 1) hscnt, hnext, ?_⟩⟩
  · rw [segmentsOf_getElem?, if_pos hj, hscnt]
    rfl
  · simp only [complete_flags, moreToEmit, hnext, hlen]
    exact decide_eq_decide.mpr (by omega)

/-- Repeated SEGNEXT emits the segments that are left. -/
theorem emitted_of_emitting (n : Nat) (s : State) (b : List Byte) (j : Nat) (hs : s.emitting b j)
    (hn : (segmentsOf b).length < j + n) (hj : j ≤ (segmentsOf b).length) :
    emitted n s = (segmentsOf b).drop j := by
  induction n generalizing s j with
  | zero => omega
  | succ n ih =>
    by_cases hleft : 252 * j < b.length
    · obtain ⟨t, ht, hok, hseg, hemit⟩ := emitting_segnext hs hleft
      obtain ⟨hlt, hget⟩ := List.getElem?_eq_some_iff.mp hseg
      simp only [emitted, ht, if_pos hok]
      rw [ih t (j + 1) hemit (by omega) hlt, List.drop_eq_getElem_cons hlt, hget]
    · have hend : (segmentsOf b).length ≤ j := by
        rw [segmentsOf_length]
        omega
      have hraise := exec_raises .segnext s .seq (if_pos (hs.more.trans (decide_eq_false hleft)))
      simp only [emitted, hraise, raise_err, List.drop_eq_nil_of_le hend]
      rfl

/-- SEGINIT leaves the Segmenter about to emit segment 0. -/
theorem exec_seginit_emitting (s : State) (b : List Byte) (hb : b ≠ []) (hlen : s.ilen = b.length)
    (hholds : s.ibufHolds 0 b) : ∃ t, exec .seginit s = .next t ∧ t.emitting b 0 := by
  have hpos : 0 < b.length := List.length_pos_iff.mpr hb
  exact ⟨_, exec_seginit_nonempty s (by omega), ⟨hlen, hholds, rfl, by simp, by simp [hpos]⟩⟩

/-- Settles O23: after SEGINIT all segments are left to emit. -/
theorem segmenterEmitsTheSegmentsOfTheBuffer : Obligations.SegmenterEmitsTheSegmentsOfTheBuffer := by
  intro s b k hb hlen hholds hk
  obtain ⟨t, ht, hemit⟩ := exec_seginit_emitting s b hb hlen hholds
  exact ⟨t, ht, emitted_of_emitting k t b 0 hemit (by rw [segmentsOf_length]; omega) (Nat.zero_le _)⟩

end Sys2Proof.Machine
end

section
/-! The Reassembler (spec/43_reorder_reassembler.md R170, R176 to R181): what REASM leaves in OBUF, that the bitmap and the
order map find what linear search finds, and what reassembly makes of numbered segments and of duplicates. -/

namespace Sys2Proof.Machine

/-! ### REASM in every state -/

theorem somePositionAbsent_iff (pres : List Nat) (count : Nat) :
    somePositionAbsent pres count = true ↔ ∃ p, p < count ∧ presBit pres p = false := by
  simp [somePositionAbsent]

/-- OBUF after REASM: the packed payloads, zeros up to the stored length, and the old bytes (R176). -/
theorem get?_write_packed (m : Memory Byte) (packed : List Byte) (total a : Nat) :
    Memory.get? (Memory.write m 0 (packed ++ List.replicate (total - packed.length) 0)) a =
      if a < packed.length then packed[a]? else if a < total then some 0 else Memory.get? m a := by
  rw [get?_write_zero, List.length_append, List.length_replicate]
  by_cases hp : a < packed.length
  · rw [if_pos (by omega), if_pos hp, List.getElem?_append_left hp]
  · rw [if_neg hp]
    refine if_ctx_congr (by omega) (fun ht => ?_) (fun _ => rfl)
    rw [List.getElem?_append_right (Nat.le_of_not_lt hp), List.getElem?_replicate, if_pos (by omega)]

/-- Settles O26: REASM completes with the packed payloads over zeros, and GAP is the search for an absent position. -/
theorem reasmPacksThePayloads : Obligations.ReasmPacksThePayloads :=
  ⟨by decide, fun s => ⟨_, exec_reasm s, rfl, somePositionAbsent_iff s.pres s.count,
    get?_write_packed s.obuf s.packedPayloads s.storedLength⟩⟩

/-! ### Linear search -/

theorem searchNumber_eq_none_iff (c : List Segment) (p : Nat) :
    searchNumber c p = none ↔ ∀ g ∈ c, g.num.toNat ≠ p := by
  simp [searchNumber]

theorem mem_collection_iff (s : State) (g : Segment) : g ∈ s.collection ↔ ∃ i, i < s.count ∧ s.slot 0 i = g := by
  simp [State.collection]

/-- Under the invariant linear search finds a position exactly when PRES has it. -/
theorem searchNumber_collection_eq_none_iff {s : State} (hs : s.Inv) (p : Nat) (hp : p < s.count) :
    searchNumber s.collection p = none ↔ presBit s.pres p = false := by
  have hpres : presBit s.pres p = true ↔ ∃ g ∈ s.collection, g.num.toNat = p := by
    rw [hs.presence p (hp.trans_le hs.slotCount)]
    constructor
    · rintro ⟨i, hi, hnum⟩
      rw [slotNumber?_of_lt hs i hi] at hnum
      exact ⟨_, (mem_collection_iff s _).mpr ⟨i, hi, rfl⟩, Option.some.inj hnum⟩
    · rintro ⟨g, hg, hnum⟩
      obtain ⟨i, hi, rfl⟩ := (mem_collection_iff s g).mp hg
      exact ⟨i, hi, (slotNumber?_of_lt hs i hi).trans (congrArg some hnum)⟩
  rw [searchNumber_eq_none_iff, ← Bool.not_eq_true, hpres]
  simp

/-- Under the invariant the order map leads to the segment that linear search finds (R178). -/
theorem searchNumber_collection_of_presBit {s : State} (hs : s.Inv) (p : Nat) (hp : p < s.count)
    (hb : presBit s.pres p = true) : searchNumber s.collection p = some (s.slot 0 (s.ordEntry 0 p)) := by
  obtain ⟨i, g, hi, hord, -, hslot, hnum, hfirst⟩ :=
    slot_ordEntry_of_presBit s hs 0 p (hp.trans_le hs.slotCount) hb
  rw [hord, hslot, searchNumber, List.find?_eq_some_iff_getElem]
  refine ⟨by simpa using hnum, i, (collection_length s).symm ▸ hi, by simpa [State.collection] using hslot, ?_⟩
  intro j hj
  have hne := hfirst j hj
  rw [slotNumber?_of_lt hs j (hj.trans hi)] at hne
  simpa [State.collection] using hne

theorem foundPayload_collection {s : State} (hs : s.Inv) (p : Nat) (hp : p < s.count) :
    foundPayload s.collection p = if presBit s.pres p then (s.slot 0 (s.ordEntry 0 p)).payload else [] := by
  unfold foundPayload
  by_cases hb : presBit s.pres p = true
  · rw [searchNumber_collection_of_presBit hs p hp hb, if_pos hb]
  · rw [(searchNumber_collection_eq_none_iff hs p hp).mpr (by simpa using hb), if_neg hb]

theorem packedPayloads_eq_packedBySearch {s : State} (hs : s.Inv) :
    s.packedPayloads = packedBySearch s.collection := by
  rw [State.packedPayloads, packedBySearch, collection_length]
  exact List.flatMap_congr fun p hp => (foundPayload_collection hs p (List.mem_range.mp hp)).symm

theorem storedLength_eq_sum (s : State) : s.storedLength = (s.collection.map fun g => g.plen.val).sum := by
  simp only [State.storedLength, State.collection, List.map_map, Function.comp_def]

/-! ### The packed payloads fit -/

theorem foundPayload_cons (g : Segment) (c : List Segment) (p : Nat) :
    foundPayload (g :: c) p = if g.num.toNat = p then g.payload else foundPayload c p := by
  simp only [foundPayload, searchNumber, List.find?_cons]
  by_cases h : g.num.toNat = p
  · simp [h]
  · simp [h, beq_false_of_ne h]

/-- One number stands at one position at most. -/
theorem sum_range_single_le (m k v : Nat) : ((List.range m).map fun p => if k = p then v else 0).sum ≤ v := by
  induction m with
  | zero => simp
  | succ m ih =>
    rw [List.range_succ, List.map_append, List.sum_append]
    by_cases hk : k = m
    · subst hk
      have hbelow : ((List.range k).map fun p => if k = p then v else 0) = (List.range k).map fun _ => 0 :=
        List.map_congr_left fun p hp => if_neg (Nat.ne_of_gt (List.mem_range.mp hp))
      simp [hbelow]
    · simpa [hk] using ih

/-- The found payloads of any positions are payloads of different segments, so they are no longer than all of them. -/
theorem foundPayload_length_sum_le (c : List Segment) (m : Nat) :
    ((List.range m).map fun p => (foundPayload c p).length).sum ≤ (c.map fun g => g.plen.val).sum := by
  induction c with
  | nil => simp [foundPayload, searchNumber]
  | cons g c ih =>
    have hterm : ∀ p ∈ List.range m, (foundPayload (g :: c) p).length ≤
        (if g.num.toNat = p then g.plen.val else 0) + (foundPayload c p).length := by
      intro p _
      rw [foundPayload_cons]
      split
      · simp
      · simp
    calc ((List.range m).map fun p => (foundPayload (g :: c) p).length).sum
        ≤ ((List.range m).map fun p =>
            (if g.num.toNat = p then g.plen.val else 0) + (foundPayload c p).length).sum := List.sum_le_sum hterm
      _ = ((List.range m).map fun p => if g.num.toNat = p then g.plen.val else 0).sum +
            ((List.range m).map fun p => (foundPayload c p).length).sum := List.sum_map_add
      _ ≤ g.plen.val + (c.map fun g => g.plen.val).sum := Nat.add_le_add (sum_range_single_le _ _ _) ih
      _ = ((g :: c).map fun g => g.plen.val).sum := by simp

theorem packedBySearch_length_le (c : List Segment) :
    (packedBySearch c).length ≤ (c.map fun g => g.plen.val).sum := by
  rw [packedBySearch, List.length_flatMap]
  exact foundPayload_length_sum_le c c.length

theorem reassemble_length (c : List Segment) : (reassemble c).length = (c.map fun g => g.plen.val).sum := by
  have hle := packedBySearch_length_le c
  rw [reassemble, List.length_append, List.length_replicate]
  omega

/-- OBUF up to OLEN after REASM is reassembly by linear search (R178). -/
theorem get?_write_reassemble {s : State} (hs : s.Inv) (a : Nat) :
    Memory.get? (Memory.write s.obuf 0
        (s.packedPayloads ++ List.replicate (s.storedLength - s.packedPayloads.length) 0)) a =
      if a < (reassemble s.collection).length then (reassemble s.collection)[a]? else Memory.get? s.obuf a := by
  rw [storedLength_eq_sum, packedPayloads_eq_packedBySearch hs, get?_write_zero]
  rfl

/-- Settles O27: the index finds what linear search finds, so the packed payloads are the same. -/
theorem reasmIsLinearSearchReassembly : Obligations.ReasmIsLinearSearchReassembly := by
  intro s hs
  have holen : s.storedLength = (reassemble s.collection).length := by rw [reassemble_length, storedLength_eq_sum]
  refine ⟨_, exec_reasm s, holen, storedLength_eq_sum s, fun a ha => ?_, fun a ha => ?_, ?_⟩
  · exact (get?_write_reassemble hs a).trans (if_pos (holen ▸ ha))
  · exact (get?_write_reassemble hs a).trans (if_neg (Nat.not_lt.mpr (holen ▸ ha)))
  · refine (somePositionAbsent_iff s.pres s.count).trans (exists_congr fun p => and_congr_right fun hp => ?_)
    exact (searchNumber_collection_eq_none_iff hs p hp).symm

/-! ### Numbered segments -/

/-- Segments that stand at the positions of their numbers. -/
def numbered (gs : List Segment) : Prop := ∀ (p : Nat) (g : Segment), gs[p]? = some g → g.num.toNat = p

/-- Search among numbered segments in any order finds the one at the position. -/
theorem searchNumber_of_numbered (c gs : List Segment) (hperm : gs.Perm c) (hn : numbered gs) (p : Nat)
    (hp : p < gs.length) : searchNumber c p = some gs[p] := by
  have hmem : gs[p] ∈ c := hperm.mem_iff.mp (List.getElem_mem hp)
  cases hsearch : searchNumber c p with
  | none => exact absurd (hn p _ (List.getElem?_eq_getElem hp)) ((searchNumber_eq_none_iff c p).mp hsearch _ hmem)
  | some g =>
    obtain ⟨q, hq⟩ := List.mem_iff_getElem?.mp (hperm.mem_iff.mpr (List.mem_of_find?_eq_some hsearch))
    have hnum : g.num.toNat = p := by simpa using List.find?_some hsearch
    obtain rfl : q = p := (hn q g hq).symm.trans hnum
    rw [← hq, List.getElem?_eq_getElem hp]

theorem packedBySearch_of_numbered (c gs : List Segment) (hperm : gs.Perm c) (hn : numbered gs) :
    packedBySearch c = gs.flatMap Segment.payload := by
  rw [packedBySearch, List.flatMap_def, List.flatMap_def, ← hperm.length_eq]
  congr 1
  refine List.ext_getElem (by simp) fun p hp _ => ?_
  have hlt : p < gs.length := by simpa using hp
  simp [foundPayload, searchNumber_of_numbered c gs hperm hn p hlt]

/-- Numbered segments in any order reassemble to their payloads in number order (R179). -/
theorem reassemble_of_numbered (c gs : List Segment) (hperm : gs.Perm c) (hn : numbered gs) :
    reassemble c = gs.flatMap Segment.payload := by
  rw [reassemble, packedBySearch_of_numbered c gs hperm hn, ← (hperm.map _).sum_eq, sum_plen, Nat.sub_self]
  exact List.append_nil _

/-- Settles O28: REASM is `reassemble`, which packs numbered segments in number order. -/
theorem reasmOfAllNumbersIsInNumberOrder : Obligations.ReasmOfAllNumbersIsInNumberOrder := by
  intro s gs hs hperm hn
  obtain ⟨t, ht, holen, -, hobuf, -, hgap⟩ := reasmIsLinearSearchReassembly s hs
  rw [reassemble_of_numbered s.collection gs hperm hn] at holen hobuf
  refine ⟨t, ht, ?_, holen, hobuf⟩
  rw [← Bool.not_eq_true, hgap]
  rintro ⟨p, hp, hnone⟩
  have hlt : p < gs.length := by rwa [hperm.length_eq, collection_length]
  rw [searchNumber_of_numbered s.collection gs hperm hn p hlt] at hnone
  cases hnone

/-! ### Duplicates -/

/-- A segment whose number stands earlier in the list is never found (D15). -/
theorem foundPayload_drop_duplicate (l r : List Segment) (x y : Segment) (hx : x ∈ l) (hnum : x.num = y.num) (p : Nat) :
    foundPayload (l ++ y :: r) p = foundPayload (l ++ r) p := by
  have hsearch : searchNumber (l ++ y :: r) p = searchNumber (l ++ r) p := by
    simp only [searchNumber, List.find?_append, List.find?_cons]
    cases hl : l.find? fun g => g.num.toNat == p with
    | some g => rfl
    | none =>
      have hne : (y.num.toNat == p) = false := by
        have := List.find?_eq_none.mp hl x hx
        rwa [hnum, Bool.not_eq_true] at this
      simp [hne]
  simp only [foundPayload, hsearch]

/-- A duplicate's bytes are counted and not copied (R180). -/
theorem packedBySearch_length_add_duplicate_le (gs : List Segment) (i j : Nat) (hij : i < j) (hj : j < gs.length)
    (hnum : gs[i].num = gs[j].num) :
    (packedBySearch gs).length + gs[j].plen.val ≤ (gs.map fun g => g.plen.val).sum := by
  have hsplit : gs = gs.take j ++ gs[j] :: gs.drop (j + 1) := by simp
  have hmem : gs[i] ∈ gs.take j := List.mem_take_iff_getElem.mpr ⟨i, by omega, rfl⟩
  have hfound : ∀ p, foundPayload gs p = foundPayload (gs.take j ++ gs.drop (j + 1)) p := fun p =>
    (congrArg (foundPayload · p) hsplit).trans (foundPayload_drop_duplicate _ _ _ _ hmem hnum p)
  have hsum : (gs.map fun g => g.plen.val).sum =
      ((gs.take j ++ gs.drop (j + 1)).map fun g => g.plen.val).sum + gs[j].plen.val := by
    conv_lhs => rw [hsplit]
    simp only [List.map_append, List.map_cons, List.sum_append, List.sum_cons]
    omega
  rw [packedBySearch, List.length_flatMap, hsum]
  simp only [hfound]
  exact Nat.add_le_add_right (foundPayload_length_sum_le _ _) _

/-- With a repeated number some position is absent: as many slots as positions, and two of them share one (R180). -/
theorem exists_absent_of_duplicate (gs : List Segment) (i j : Nat) (hij : i < j) (hj : j < gs.length)
    (hnum : gs[i].num = gs[j].num) : ∃ p, p < gs.length ∧ searchNumber gs p = none := by
  by_contra hall
  push Not at hall
  have hsub : List.range gs.length ⊆ gs.map fun g => g.num.toNat := by
    intro p hp
    have hfound := hall p (List.mem_range.mp hp)
    rw [Ne, searchNumber_eq_none_iff] at hfound
    push Not at hfound
    exact List.mem_map.mpr hfound
  have hperm : (List.range gs.length).Perm (gs.map fun g => g.num.toNat) :=
    (List.subperm_of_subset List.nodup_range hsub).perm_of_length_le (by simp)
  have hnodup := hperm.nodup_iff.mp List.nodup_range
  have heq := (hnodup.getElem_inj_iff (i := i) (j := j) (hi := by simp; omega) (hj := by simpa using hj)).mp
    (by simp [hnum])
  omega

/-- Settles O29: by pigeonhole a position is absent, and the duplicate's bytes are missing from the packed payloads. -/
theorem duplicateAlwaysLeavesAGap : Obligations.DuplicateAlwaysLeavesAGap := by
  intro s i j hs hij hj hnum
  obtain ⟨t, ht, holen, hsum, hobuf, -, hgap⟩ := reasmIsLinearSearchReassembly s hs
  have hlen := collection_length s
  have hget : ∀ k, (hk : k < s.collection.length) → s.collection[k] = s.slot 0 k := fun k _ => by
    simp [State.collection]
  have hdup : s.collection[i].num = s.collection[j].num := by rw [hget, hget, hnum]
  refine ⟨t, ht, hgap.mpr ?_, fun a ha htail => ?_⟩
  · obtain ⟨p, hp, hnone⟩ := exists_absent_of_duplicate s.collection i j hij (hlen ▸ hj) hdup
    exact ⟨p, hlen ▸ hp, hnone⟩
  · have hpacked := packedBySearch_length_add_duplicate_le s.collection i j hij (hlen ▸ hj) hdup
    rw [hget j, ← hsum] at hpacked
    rw [hobuf a ha, reassemble, List.getElem?_append_right (by omega), List.getElem?_replicate, if_pos (by omega)]

/-! ### The segments of a buffer -/

theorem segmentsOf_numbered (b : List Byte) (hb : b.length ≤ 65536 * 252) : numbered (segmentsOf b) := by
  intro p g hg
  rw [segmentsOf_getElem?, Option.ite_none_right_eq_some] at hg
  obtain ⟨hp, hg⟩ := hg
  cases hg
  rw [segmentOfChunk_num, BitVec.toNat_ofNat]
  omega

theorem numbered_map_throughCodec (gs : List Segment) (hn : numbered gs) : numbered (gs.map throughCodec) := by
  intro p g hg
  rw [List.getElem?_map, Option.map_eq_some_iff] at hg
  obtain ⟨h, hh, rfl⟩ := hg
  exact (congrArg BitVec.toNat (throughCodec_num h)).trans (hn p h hh)

/-- The chunks of a buffer, each filled up to 252 bytes, are the buffer and its padding: only the last chunk is short. -/
theorem chunksOf_flatMap_padded (fuel : Nat) (b : List Byte) (hf : b.length ≤ fuel) :
    ((chunksOf fuel b).flatMap fun c => c ++ List.replicate (252 - c.length) 0) =
      b ++ List.replicate (252 * ((b.length + 251) / 252) - b.length) 0 := by
  induction fuel generalizing b with
  | zero => simp [chunksOf, List.length_eq_zero_iff.mp (Nat.le_zero.mp hf)]
  | succ fuel ih =>
    by_cases hb : b = []
    · simp [chunksOf, hb]
    · have hpos := List.length_pos_iff.mpr hb
      rw [chunksOf, if_neg hb, List.flatMap_cons, ih (b.drop 252) (by simp; omega), List.length_take, List.length_drop]
      by_cases hlong : 252 < b.length
      · have hfull : 252 - min 252 b.length = 0 := by omega
        have hpad : 252 * ((b.length - 252 + 251) / 252) - (b.length - 252) =
            252 * ((b.length + 251) / 252) - b.length := by omega
        rw [hfull, hpad, List.replicate_zero, List.append_nil, ← List.append_assoc, List.take_append_drop]
      · have hpad : 252 - min 252 b.length + (252 * ((b.length - 252 + 251) / 252) - (b.length - 252)) =
            252 * ((b.length + 251) / 252) - b.length := by omega
        rw [List.take_of_length_le (by omega), List.drop_of_length_le (by omega), List.nil_append, List.append_assoc,
          List.replicate_append_replicate, hpad]

theorem segmentsOf_throughCodec_flatMap_payload (b : List Byte) :
    ((segmentsOf b).map throughCodec).flatMap Segment.payload =
      b ++ List.replicate (252 * ((b.length + 251) / 252) - b.length) 0 := by
  rw [← chunksOf_flatMap_padded b.length b le_rfl, ← segmentsOf_map_payload, List.flatMap_map, List.flatMap_map]
  exact List.flatMap_congr fun g _ => by rw [throughCodec_payload, payload_length]

/-- Settles O30: the segments of a buffer are numbered, through the codec or not, and their payloads make up the buffer. -/
theorem reassemblyRoundTrip : Obligations.ReassemblyRoundTrip := by
  intro b c _ hle
  have hn := segmentsOf_numbered b hle
  refine ⟨fun hperm => ?_, fun hperm => ?_⟩
  · rw [reassemble_of_numbered c _ hperm.symm hn, segmentsOf_flatMap_payload]
  · rw [reassemble_of_numbered c _ hperm.symm (numbered_map_throughCodec _ hn),
      segmentsOf_throughCodec_flatMap_payload]
    exact ⟨rfl, List.take_left⟩

end Sys2Proof.Machine
end

section
/-! What an operation reports, writes and reads (spec/10_state.md R21, R30; spec/60_exceptions.md R270, R275): the conditions
of the error codes, the registers each operation writes, and that no flag but MORE decides anything. -/

namespace Sys2Proof.Machine

/-! ### The error codes -/

/-- The code in ERR after an operation is the error it met, or E_OK. -/
theorem exec_err (i : Instr) (s : State) :
    ∃ t, exec i s = .next t ∧ ∀ e, e ≠ .ok → (t.err = e ↔ raisedError i s = some e) := by
  rcases exec_cases i s with ⟨e, he, hx⟩ | ⟨u, he, hx, -⟩
  · exact ⟨_, hx, fun c _ => by rw [he, raise_err, Option.some_inj]⟩
  · exact ⟨_, hx, fun c hc => by simp [he, hc.symm]⟩

theorem raisedError_corruptr (a : Nat) (s : State) (e : ErrCode) :
    raisedError (.corruptr a) s = some e ↔
      (s.count ≤ a ∧ e = .slot) ∨ (a < s.count ∧ (s.slot 0 a).plen.val = 0 ∧ e = .index) := by
  by_cases ha : s.count ≤ a
  · simp [raisedError, ha, eq_comm]
  · simp [raisedError, ha, Nat.lt_of_not_le ha, eq_comm]

theorem raisedError_eq_empty_iff (i : Instr) (s : State) :
    raisedError i s = some .empty ↔ i = .seginit ∧ s.ilen = 0 := by
  cases i
  case corruptr a => simp [raisedError_corruptr]
  all_goals simp [raisedError]

theorem raisedError_eq_index_iff (i : Instr) (s : State) :
    raisedError i s = some .index ↔
      (∃ a, i = .pget a ∧ s.seg.plen.val ≤ a) ∨ (∃ a b, i = .pset a b ∧ s.seg.plen.val ≤ a) ∨
        (i = .corrupts ∧ s.seg.plen.val = 0) ∨
        (∃ a, i = .corruptr a ∧ a < s.count ∧ (s.slot 0 a).plen.val = 0) := by
  cases i
  case corruptr a => simp [raisedError_corruptr]
  all_goals simp [raisedError]

theorem raisedError_eq_full_iff (i : Instr) (s : State) :
    raisedError i s = some .full ↔ i = .rbpush ∧ s.count = s.cfg.nslot := by
  cases i
  case corruptr a => simp [raisedError_corruptr]
  all_goals simp [raisedError]

theorem raisedError_eq_slot_iff (i : Instr) (s : State) :
    raisedError i s = some .slot ↔ ∃ a, i = .corruptr a ∧ s.count ≤ a := by
  cases i
  case corruptr a => simp [raisedError_corruptr]
  all_goals simp [raisedError]

theorem raisedError_eq_seq_iff (i : Instr) (s : State) :
    raisedError i s = some .seq ↔ i = .segnext ∧ s.flags.more = false := by
  cases i
  case corruptr a => simp [raisedError_corruptr]
  all_goals simp [raisedError]

/-- E_ILLEGAL and E_RANGE are no operation's errors. -/
theorem raisedError_ne_host (i : Instr) (s : State) :
    raisedError i s ≠ some .illegal ∧ raisedError i s ≠ some .range := by
  cases i
  case corruptr a => simp [raisedError_corruptr]
  all_goals simp [raisedError]

/-- Settles O41: the code in ERR is `raisedError`, whose conditions are those of R270. -/
theorem errorCodesHaveTheirConditions : Obligations.ErrorCodesHaveTheirConditions := by
  intro i s
  obtain ⟨t, ht, herr⟩ := exec_err i s
  obtain ⟨hillegal, hrange⟩ := raisedError_ne_host i s
  exact ⟨t, ht, (herr .empty (by decide)).trans (raisedError_eq_empty_iff i s),
    (herr .index (by decide)).trans (raisedError_eq_index_iff i s),
    (herr .full (by decide)).trans (raisedError_eq_full_iff i s),
    (herr .slot (by decide)).trans (raisedError_eq_slot_iff i s),
    (herr .seq (by decide)).trans (raisedError_eq_seq_iff i s),
    fun h => hillegal ((herr .illegal (by decide)).mp h), fun h => hrange ((herr .range (by decide)).mp h)⟩

/-! ### Which registers an operation writes -/

/-- Settles O42: an error writes the report alone, and each completion writes the registers of its own record update. -/
theorem onlyTheNamedOperationsWriteEachRegister : Obligations.OnlyTheNamedOperationsWriteEachRegister := by
  intro i s
  rcases exec_raises_or_completes i s with ⟨e, -, hx⟩ | ⟨u, hu, hx⟩
  · exact ⟨_, hx, by simp⟩
  · refine ⟨_, hx, ?_⟩
    cases hu
    case rbpush => simp [State.pushSegment]
    case corrupts hp =>
      obtain ⟨hnum, hcsum, hplen, -⟩ := corrupt_keeps s.thresh.val s.seg s.rng (Nat.pos_of_ne_zero hp)
      simp [hnum, hcsum, hplen]
    all_goals simp

/-! ### Which flags an operation reads -/

theorem raisedError_ignores_report (i : Instr) (s : State) (f : Flags) (e : ErrCode) (hf : f.more = s.flags.more) :
    raisedError i { s with flags := f, err := e } = raisedError i s := by
  cases i
  case segnext => simp only [raisedError, hf]
  all_goals rfl

/-- The completions from two states that differ in the report alone differ in the report alone, and not in MORE. -/
theorem Completes.ignores_report {s u : State} {i : Instr} (h : Completes s i u) (f : Flags) (e : ErrCode)
    (hf : f.more = s.flags.more) :
    ∃ v, Completes { s with flags := f, err := e } i v ∧ v.complete = { u.complete with flags := v.flags } ∧
      v.flags.more = u.flags.more := by
  cases h with
  | csumi => exact ⟨_, .csumi, rfl, hf⟩
  | csums => exact ⟨_, .csums, rfl, hf⟩
  | encode => exact ⟨_, .encode, rfl, hf⟩
  | decode => exact ⟨_, .decode, rfl, hf⟩
  | pget a ha => exact ⟨_, .pget a ha, rfl, hf⟩
  | pset a b ha => exact ⟨_, .pset a b ha, rfl, hf⟩
  | seginit h => exact ⟨_, .seginit h, rfl, rfl⟩
  | segnext h => exact ⟨_, .segnext (hf.trans h), rfl, rfl⟩
  | rbclr => exact ⟨_, .rbclr, rfl, hf⟩
  | rbpush h => exact ⟨_, .rbpush h, rfl, hf⟩
  | reasm => exact ⟨_, .reasm, rfl, hf⟩
  | corrupts h => exact ⟨_, .corrupts h, rfl, hf⟩
  | corruptr a ha h => exact ⟨_, .corruptr a ha h, rfl, hf⟩
  | detect => exact ⟨_, .detect, rfl, hf⟩

/-- Settles O43: the checks read MORE alone, and so do the completions. -/
theorem noOperationReadsAFlagButMore : Obligations.NoOperationReadsAFlagButMore := by
  intro i s f e hf
  rcases exec_raises_or_completes i s with ⟨c, hc, hx⟩ | ⟨u, hu, hx⟩
  · exact ⟨_, _, hx, exec_raises i _ c ((raisedError_ignores_report i s f e hf).trans hc), rfl, hf⟩
  · obtain ⟨v, hv, heq, hmore⟩ := hu.ignores_report f e hf
    exact ⟨_, _, hx, hv.exec_eq, heq, hmore⟩

end Sys2Proof.Machine
end

section
/-! The Corruption Injector (spec/44_injector.md R201 to R216): a call is its draws, the indices they pick and the bytes at
these indices inverted; with given answers and with the reference generator the draws are known. -/

namespace Sys2Proof.Machine

/-! ### Inverting bytes -/

theorem byteAt_invertByte (g : Segment) (i k : Nat) (hi : i < 252) :
    (g.invertByte i).byteAt k = if k = i then ~~~ g.byteAt k else g.byteAt k := by
  rw [Segment.invertByte, byteAt_setByte _ _ _ _ hi]
  refine if_ctx_congr Iff.rfl (fun hk => ?_) (fun _ => rfl)
  rw [hk]
  exact BitVec.xor_allOnes

/-- The segment with the bytes at `picks` inverted, one after the other. -/
def Segment.invertAll (g : Segment) (picks : List Nat) : Segment := picks.foldl Segment.invertByte g

theorem invertAll_fields (g : Segment) (picks : List Nat) :
    (g.invertAll picks).num = g.num ∧ (g.invertAll picks).csum = g.csum ∧ (g.invertAll picks).plen = g.plen := by
  induction picks generalizing g with
  | nil => exact ⟨rfl, rfl, rfl⟩
  | cons i picks ih => simpa [Segment.invertAll, Segment.invertByte] using ih (g.invertByte i)

theorem byteAt_invertAll (g : Segment) (picks : List Nat) (hp : ∀ i ∈ picks, i < 252) (k : Nat) :
    (g.invertAll picks).byteAt k = if picks.count k % 2 = 1 then ~~~ g.byteAt k else g.byteAt k := by
  induction picks generalizing g with
  | nil => rfl
  | cons i picks ih =>
    obtain ⟨hi, hps⟩ := List.forall_mem_cons.mp hp
    have hstep : (g.invertAll (i :: picks)).byteAt k = ((g.invertByte i).invertAll picks).byteAt k := rfl
    rw [hstep, ih _ hps, byteAt_invertByte g i k hi, List.count_cons]
    by_cases hk : k = i
    · rcases Nat.mod_two_eq_zero_or_one (picks.count k) with h | h
      · simp [hk, hk ▸ h, Nat.add_mod]
      · simp [hk, hk ▸ h, Nat.add_mod]
    · simp [hk, Ne.symm hk]

/-- Each byte ends inverted exactly when it was picked an odd number of times (R208). -/
theorem invertedAt_invertAll (g : Segment) (picks : List Nat) (hp : ∀ i ∈ picks, i < g.plen.val) :
    g.invertedAt picks (g.invertAll picks) := by
  obtain ⟨hnum, hcsum, hplen⟩ := invertAll_fields g picks
  refine ⟨hnum, hcsum, hplen, fun i => ?_⟩
  rw [← byteAt_fin, ← byteAt_fin]
  exact byteAt_invertAll g picks (fun k hk => lt_store_of_lt_plen g k (hp k hk)) i.val

/-- A byte outside the picked indices is as it was, and a picked one as it was or inverted. -/
theorem invertedAt_byte {g h : Segment} {picks : List Nat} (hg : g.invertedAt picks h)
    (hp : ∀ i ∈ picks, i < g.plen.val) (i : Fin 252) :
    h.pay[i] = g.pay[i] ∨ (i.val < g.plen.val ∧ h.pay[i] = ~~~ g.pay[i]) := by
  obtain ⟨-, -, -, hpay⟩ := hg
  rw [hpay i]
  by_cases hodd : picks.count i.val % 2 = 1
  · have hmem : i.val ∈ picks := List.count_pos_iff.mp (by omega)
    exact .inr ⟨hp _ hmem, if_pos hodd⟩
  · exact .inl (if_neg hodd)

/-! ### The draws of a call -/

/-- `n` index draws for a payload of `plen` bytes: the indices, and the source after them. -/
def Rng.drawIndices (r : Rng) (plen : Nat) (n : Nat) : List Nat × Rng :=
  match n with
  | 0 => ([], r)
  | n + 1 =>
    let d := r.draw 0 (plen - 1)
    let rest := d.2.drawIndices plen n
    (d.1 :: rest.1, rest.2)

theorem invertDrawn_eq (n : Nat) (g : Segment) (r : Rng) :
    invertDrawn n g r = (g.invertAll (r.drawIndices g.plen.val n).1, (r.drawIndices g.plen.val n).2) := by
  induction n generalizing g r with
  | zero => rfl
  | succ n ih =>
    rw [invertDrawn, ih]
    simp only [Segment.invertByte, setByte_plen]
    rfl

theorem drawIndices_lt (r : Rng) (plen n : Nat) (hp : plen ≠ 0) : ∀ i ∈ (r.drawIndices plen n).1, i < plen := by
  induction n generalizing r with
  | zero => exact List.forall_mem_nil _
  | succ n ih =>
    refine List.forall_mem_cons.mpr ⟨?_, ih _⟩
    have := (draw_mem r 0 (plen - 1) (Nat.zero_le _)).2
    omega

/-- The first draw, which decides the damage (R202). -/
def Rng.damageDraw (r : Rng) : Nat := (r.draw 1 100).1

/-- The second draw, which decides the number of selections (R202). -/
def Rng.magnitudeDraw (r : Rng) : Nat := ((r.draw 1 100).2.draw 1 100).1

/-- The source after the two draws of every call. -/
def Rng.afterTwo (r : Rng) : Rng := ((r.draw 1 100).2.draw 1 100).2

theorem magnitude_succ (d2 : Nat) : magnitude d2 + 1 = selections d2 := by
  unfold magnitude selections
  split_ifs <;> rfl

/-- A call that does not hit leaves the segment and has taken two draws (R201). -/
theorem corrupt_of_miss (t : Nat) (g : Segment) (r : Rng) (h : t < r.damageDraw) :
    corrupt t g r = { seg := g, rng := r.afterTwo, hit := false } := if_neg (Nat.not_le.mpr h)

/-- A call that hits inverts the bytes that its index draws pick (R201, R204). -/
theorem corrupt_of_hit (t : Nat) (g : Segment) (r : Rng) (h : r.damageDraw ≤ t) :
    corrupt t g r =
      { seg := g.invertAll (r.afterTwo.drawIndices g.plen.val (selections r.magnitudeDraw)).1
        rng := (r.afterTwo.drawIndices g.plen.val (selections r.magnitudeDraw)).2
        hit := true } := by
  have hhit : corrupt t g r = _ := if_pos h
  rw [hhit, invertDrawn_eq, magnitude_succ]
  rfl

/-! ### What a call touches, with any source -/

/-- A call inverts payload bytes and touches nothing else of the segment (R201). -/
theorem corrupt_bytes (t : Nat) (g : Segment) (r : Rng) (hp : g.plen.val ≠ 0) (i : Fin 252) :
    (corrupt t g r).seg.pay[i] = g.pay[i] ∨ (i.val < g.plen.val ∧ (corrupt t g r).seg.pay[i] = ~~~ g.pay[i]) := by
  rcases Nat.lt_or_ge t r.damageDraw with hmiss | hhit
  · rw [corrupt_of_miss t g r hmiss]
    exact .inl rfl
  · have hlt := drawIndices_lt r.afterTwo g.plen.val (selections r.magnitudeDraw) hp
    rw [corrupt_of_hit t g r hhit]
    exact invertedAt_byte (invertedAt_invertAll g _ hlt) hlt i

theorem Segment.eq_of_fields {g h : Segment} (hnum : h.num = g.num) (hcsum : h.csum = g.csum)
    (hplen : h.plen = g.plen) : { g with pay := h.pay } = h := by
  rw [← hnum, ← hcsum, ← hplen]

/-- Settles O31: `corrupt_keeps` for the other fields, `corrupt_bytes` for the payload. -/
theorem corruptsTouchesOnlyThePayload : Obligations.CorruptsTouchesOnlyThePayload := by
  refine ⟨by decide, fun s => ⟨fun hp => ?_, fun hp => exec_raises .corrupts s .index (if_pos hp)⟩⟩
  obtain ⟨hnum, hcsum, hplen, -, -, hmiss⟩ := corrupt_keeps s.thresh.val s.seg s.rng (Nat.pos_of_ne_zero hp)
  refine ⟨_, exec_corrupts_payload s hp, ?_, corrupt_bytes s.thresh.val s.seg s.rng hp, hmiss⟩
  simp only [State.sameBlock, complete_seg, Segment.eq_of_fields hnum hcsum hplen]
  rfl

/-- Settles O32: the slot takes the call's segment, and the two checks are the errors it raises, in their order. -/
theorem corruptrTouchesOnlyTheSlotPayload : Obligations.CorruptrTouchesOnlyTheSlotPayload := by
  refine ⟨by decide, fun s a => ⟨fun ha hp => ?_, fun ha => exec_raises (.corruptr a) s .slot (if_pos ha),
    fun ha hp => exec_raises (.corruptr a) s .index ((if_neg (Nat.not_le.mpr ha)).trans (if_pos hp))⟩⟩
  obtain ⟨hnum, hcsum, hplen, -, -, hmiss⟩ := corrupt_keeps s.thresh.val (s.slot 0 a) s.rng (Nat.pos_of_ne_zero hp)
  refine ⟨_, _, exec_corruptr_payload s a ha hp, rfl, (get?_write_one s.rb a _ a).trans (if_pos rfl),
    fun k hk => (get?_write_one s.rb a _ k).trans (if_neg hk), hnum, hcsum, hplen,
    corrupt_bytes s.thresh.val (s.slot 0 a) s.rng hp, hmiss⟩

/-! ### The threshold -/

theorem damageDraw_mem (r : Rng) : 1 ≤ r.damageDraw ∧ r.damageDraw ≤ 100 := draw_mem r 1 100 (by decide)

theorem corrupt_threshold_zero (g : Segment) (r : Rng) :
    (corrupt 0 g r).hit = false ∧ (corrupt 0 g r).seg = g := by
  rw [corrupt_of_miss 0 g r (damageDraw_mem r).1]
  exact ⟨rfl, rfl⟩

theorem corrupt_threshold_hundred (g : Segment) (r : Rng) : (corrupt 100 g r).hit = true := by
  rw [corrupt_of_hit 100 g r (damageDraw_mem r).2]

/-- Settles O34: the first draw lies in 1 .. 100 whatever the source. -/
theorem thresholdZeroNeverHitsHundredAlwaysHits : Obligations.ThresholdZeroNeverHitsHundredAlwaysHits := by
  refine fun s => ⟨fun hp => ⟨fun ht => ?_, fun ht => ?_⟩, fun a ha hp => ⟨fun ht => ?_, fun ht => ?_⟩⟩
  · obtain ⟨hhit, hseg⟩ := corrupt_threshold_zero s.seg s.rng
    exact ⟨_, exec_corrupts_payload s hp, by rw [ht]; exact hhit, by rw [ht]; exact hseg⟩
  · exact ⟨_, exec_corrupts_payload s hp, by rw [ht]; exact corrupt_threshold_hundred s.seg s.rng⟩
  · obtain ⟨hhit, hseg⟩ := corrupt_threshold_zero (s.slot 0 a) s.rng
    refine ⟨_, exec_corruptr_payload s a ha hp, by rw [ht]; exact hhit, ?_,
      fun k hk => (get?_write_one s.rb a _ k).trans (if_neg hk)⟩
    rw [ht, hseg]
    exact (get?_write_one s.rb a _ a).trans (if_pos rfl)
  · exact ⟨_, exec_corruptr_payload s a ha hp, by rw [ht]; exact corrupt_threshold_hundred (s.slot 0 a) s.rng⟩

/-! ### Given answers -/

theorem draw_given (x : Nat) (rest : List Nat) (k lo hi : Nat) (hlo : lo ≤ x) (hhi : x ≤ hi) :
    (Rng.given (x :: rest) k).draw lo hi = (x, .given rest (k + 1)) := by
  rw [Rng.draw, intoRange_of_mem lo hi x hlo hhi]

theorem drawIndices_given (picks rest : List Nat) (k plen : Nat) (hp : ∀ i ∈ picks, i < plen) :
    (Rng.given (picks ++ rest) k).drawIndices plen picks.length = (picks, .given rest (k + picks.length)) := by
  induction picks generalizing k with
  | nil => rfl
  | cons i picks ih =>
    obtain ⟨hi, hps⟩ := List.forall_mem_cons.mp hp
    rw [List.length_cons, Rng.drawIndices, List.cons_append, draw_given i _ k 0 _ (Nat.zero_le _) (by omega)]
    simp only [ih (k + 1) hps, Nat.add_assoc, Nat.add_comm 1]

/-- What a call leaves where the draws are known: `d1` decides the damage, and on a hit the bytes at `picks` are inverted. -/
def Injected.follows (out : Injected) (t : Nat) (g : Segment) (d1 : Nat) (picks : List Nat)
    (hitRng missRng : Rng) : Prop :=
  (d1 ≤ t → out.hit = true ∧ g.invertedAt picks out.seg ∧ out.rng = hitRng) ∧
    (t < d1 → out.hit = false ∧ out.seg = g ∧ out.rng = missRng)

theorem corrupt_follows (t : Nat) (g : Segment) (r : Rng) (hp : g.plen.val ≠ 0) :
    (corrupt t g r).follows t g r.damageDraw (r.afterTwo.drawIndices g.plen.val (selections r.magnitudeDraw)).1
      (r.afterTwo.drawIndices g.plen.val (selections r.magnitudeDraw)).2 r.afterTwo := by
  refine ⟨fun hhit => ?_, fun hmiss => ?_⟩
  · rw [corrupt_of_hit t g r hhit]
    exact ⟨rfl, invertedAt_invertAll g _ (drawIndices_lt _ _ _ hp), rfl⟩
  · rw [corrupt_of_miss t g r hmiss]
    exact ⟨rfl, rfl, rfl⟩

theorem corrupt_follows_given (t : Nat) (g : Segment) (d1 d2 : Nat) (picks rest : List Nat) (k : Nat)
    (h1 : 1 ≤ d1) (h1' : d1 ≤ 100) (h2 : 1 ≤ d2) (h2' : d2 ≤ 100) (hlen : picks.length = selections d2)
    (hg : g.plen.val ≠ 0) (hp : ∀ i ∈ picks, i < g.plen.val) :
    (corrupt t g (.given (d1 :: d2 :: (picks ++ rest)) k)).follows t g d1 picks (.given rest (k + 2 + selections d2))
      (.given (picks ++ rest) (k + 2)) := by
  have hfirst := draw_given d1 (d2 :: (picks ++ rest)) k 1 100 h1 h1'
  have hsecond := draw_given d2 (picks ++ rest) (k + 1) 1 100 h2 h2'
  have hindices := drawIndices_given picks rest (k + 2) g.plen.val hp
  have hfollows := corrupt_follows t g (.given (d1 :: d2 :: (picks ++ rest)) k) hg
  simpa only [Rng.damageDraw, Rng.magnitudeDraw, Rng.afterTwo, hfirst, hsecond, ← hlen, hindices] using hfollows

/-! ### The reference generator -/

theorem drawIndices_lfsr (v : Half) (plen n : Nat) (hp : plen ≠ 0) :
    (Rng.lfsr v).drawIndices plen n =
      ((List.range n).map fun i => (Nat.iterate lfsrStep (16 + 16 * i) v).toNat % plen,
        .lfsr (Nat.iterate lfsrStep (16 * n) v)) := by
  have hrange : plen - 1 - 0 + 1 = plen := by omega
  induction n generalizing v with
  | zero => rfl
  | succ n ih =>
    simp only [Rng.drawIndices, draw_lfsr, hrange, ih, ← Function.iterate_add_apply, List.range_succ_eq_map,
      List.map_cons, List.map_map, Function.comp_def, Nat.zero_add]
    rfl

theorem damageDraw_lfsr (v : Half) : (Rng.lfsr v).damageDraw = 1 + (Nat.iterate lfsrStep 16 v).toNat % 100 := by
  rw [Rng.damageDraw, draw_lfsr]

theorem magnitudeDraw_lfsr (v : Half) : (Rng.lfsr v).magnitudeDraw = 1 + (Nat.iterate lfsrStep 32 v).toNat % 100 := by
  rw [Rng.magnitudeDraw, draw_lfsr, draw_lfsr, ← Function.iterate_add_apply]

theorem afterTwo_lfsr (v : Half) : (Rng.lfsr v).afterTwo = .lfsr (Nat.iterate lfsrStep 32 v) := by
  rw [Rng.afterTwo, draw_lfsr, draw_lfsr, ← Function.iterate_add_apply]

/-- The index draws of a call follow its two draws: 32 steps are taken before the first of them. -/
theorem drawIndices_afterTwo_lfsr (v : Half) (plen n : Nat) (hp : plen ≠ 0) :
    (Rng.lfsr v).afterTwo.drawIndices plen n =
      (referencePicks v plen n, .lfsr (Nat.iterate lfsrStep (32 + 16 * n) v)) := by
  have hpick : ∀ i, 16 + 16 * i + 32 = 48 + 16 * i := fun i => by omega
  simp only [afterTwo_lfsr, drawIndices_lfsr _ plen n hp, ← Function.iterate_add_apply, hpick,
    Nat.add_comm (16 * n) 32, referencePicks]

theorem corrupt_follows_lfsr (t : Nat) (g : Segment) (v : Half) (d1 d2 : Nat) (hg : g.plen.val ≠ 0)
    (h1 : d1 = 1 + (Nat.iterate lfsrStep 16 v).toNat % 100) (h2 : d2 = 1 + (Nat.iterate lfsrStep 32 v).toNat % 100) :
    (corrupt t g (.lfsr v)).follows t g d1 (referencePicks v g.plen.val (selections d2))
      (.lfsr (Nat.iterate lfsrStep (32 + 16 * selections d2) v)) (.lfsr (Nat.iterate lfsrStep 32 v)) := by
  have hfollows := corrupt_follows t g (.lfsr v) hg
  rwa [drawIndices_afterTwo_lfsr v _ _ hg, damageDraw_lfsr, magnitudeDraw_lfsr, afterTwo_lfsr, ← h1, ← h2] at hfollows

theorem Injected.follows.rng_first {out : Injected} {t : Nat} {g : Segment} {d1 : Nat} {picks : List Nat}
    {hitRng missRng : Rng} (h : out.follows t g d1 picks hitRng missRng) :
    (d1 ≤ t → out.hit = true ∧ out.rng = hitRng ∧ g.invertedAt picks out.seg) ∧
      (t < d1 → out.hit = false ∧ out.rng = missRng ∧ out.seg = g) := by
  obtain ⟨hhit, hmiss⟩ := h
  exact ⟨fun hd => ⟨(hhit hd).1, (hhit hd).2.2, (hhit hd).2.1⟩, fun hd => ⟨(hmiss hd).1, (hmiss hd).2.2, (hmiss hd).2.1⟩⟩

/-- Settles O33: CORRUPTS and CORRUPTR complete with the call's result on their segment. -/
theorem injectorFollowsTheDraws : Obligations.InjectorFollowsTheDraws := by
  refine ⟨fun s d1 d2 picks rest k hr h1 h1' h2 h2' hlen => ⟨fun hp hpicks => ?_, fun a ha hp hpicks => ?_⟩,
    fun s v d1 d2 hr h1 h2 => ⟨fun hp => ?_, fun a ha hp => ?_⟩⟩
  · have hfollows := corrupt_follows_given s.thresh.val s.seg d1 d2 picks rest k h1 h1' h2 h2' hlen hp hpicks
    rw [← hr] at hfollows
    exact ⟨_, exec_corrupts_payload s hp, hfollows⟩
  · have hfollows := corrupt_follows_given s.thresh.val (s.slot 0 a) d1 d2 picks rest k h1 h1' h2 h2' hlen hp hpicks
    rw [← hr] at hfollows
    exact ⟨_, _, exec_corruptr_payload s a ha hp, (get?_write_one s.rb a _ a).trans (if_pos rfl), hfollows⟩
  · have hfollows := (corrupt_follows_lfsr s.thresh.val s.seg v d1 d2 hp h1 h2).rng_first
    rw [← hr] at hfollows
    exact ⟨_, exec_corrupts_payload s hp, hfollows⟩
  · have hfollows := (corrupt_follows_lfsr s.thresh.val (s.slot 0 a) v d1 d2 hp h1 h2).rng_first
    rw [← hr] at hfollows
    exact ⟨_, _, exec_corruptr_payload s a ha hp, (get?_write_one s.rb a _ a).trans (if_pos rfl), hfollows⟩

/-- Settles O36: the listed states are evaluated, and CORRUPTS from 0xACE1 hits with d1 = 11, takes two selections for
d2 = 32 and picks 57 and 61. -/
theorem referenceSequence : Obligations.ReferenceSequence := by
  refine ⟨by decide, by decide, by decide, by decide, by decide, by decide +kernel, by decide +kernel, by decide +kernel,
    by decide +kernel, by decide +kernel, by decide +kernel, fun s hr ht hp => ?_⟩
  have hd1 : 11 = 1 + (Nat.iterate lfsrStep 16 0xACE1).toNat % 100 := by decide +kernel
  have hd2 : 32 = 1 + (Nat.iterate lfsrStep 32 0xACE1).toNat % 100 := by decide +kernel
  have hpicks : referencePicks 0xACE1 252 (selections 32) = [57, 61] := by decide +kernel
  have hend : Nat.iterate lfsrStep (32 + 16 * selections 32) 0xACE1 = 0x8815 := by decide +kernel
  have hfollows := corrupt_follows_lfsr s.thresh.val s.seg 0xACE1 11 32 (by omega) hd1 hd2
  rw [← hr, hp, hpicks, hend] at hfollows
  obtain ⟨hh, hseg, hrng⟩ := hfollows.1 (by omega)
  exact ⟨_, exec_corrupts_payload s (by omega), hrng, hh, hseg⟩

/-! ### The generator never locks up -/

/-- The source is the reference generator in a state other than zero (R214). -/
def Rng.generating (r : Rng) : Prop := ∃ v, v ≠ 0 ∧ r = .lfsr v

theorem draw_generating (r : Rng) (lo hi : Nat) (h : r.generating) : (r.draw lo hi).2.generating := by
  obtain ⟨v, hv, rfl⟩ := h
  exact ⟨_, lfsrSteps_ne_zero 16 v hv, rfl⟩

theorem drawIndices_generating (r : Rng) (plen n : Nat) (h : r.generating) : (r.drawIndices plen n).2.generating := by
  induction n generalizing r with
  | zero => exact h
  | succ n ih => exact ih _ (draw_generating r _ _ h)

theorem corrupt_generating (t : Nat) (g : Segment) (r : Rng) (h : r.generating) : (corrupt t g r).rng.generating := by
  have hafter : r.afterTwo.generating := draw_generating _ _ _ (draw_generating _ _ _ h)
  rcases Nat.lt_or_ge t r.damageDraw with hmiss | hhit
  · rwa [corrupt_of_miss t g r hmiss]
  · rw [corrupt_of_hit t g r hhit]
    exact drawIndices_generating _ _ _ hafter

theorem exec_generating (i : Instr) (s t : State) (hs : s.rng.generating) (h : exec i s = .next t) :
    t.rng.generating := by
  rcases exec_raises_or_completes i s with ⟨e, -, hx⟩ | ⟨u, hu, hx⟩
  · cases hx.symm.trans h
    exact hs
  · cases hx.symm.trans h
    cases hu
    case corrupts => exact corrupt_generating _ _ _ hs
    case corruptr => exact corrupt_generating _ _ _ hs
    case rbpush => exact hs
    all_goals simpa using hs

theorem WriteEffect.generating {s t : State} (h : WriteEffect s t) (hs : s.rng.generating) : t.rng.generating := by
  cases h
  case lfsr old v _ hv => exact ⟨v, hv, rfl⟩
  all_goals exact hs

theorem perform_generating (s t : State) (act : HostAction) (hs : s.rng.generating) (h : s.perform act = .next t) :
    t.rng.generating := by
  rcases perform_cases s t act h with
    ⟨_, _, v, -, -, rfl⟩ | ⟨_, i, -, -, hx⟩ | ⟨_, -, rfl⟩ | ⟨-, hw⟩ | ⟨-, rfl⟩
  · exact hs
  · exact exec_generating i s t hs hx
  · exact hs
  · exact hw.generating hs
  · obtain ⟨v, -, hv⟩ := hs
    exact ⟨0xACE1, by decide, by rw [State.resetEvent, hv]; rfl⟩

/-- Settles O37: the stores of 0xACE1 by evaluation, and every step keeps the generator out of the zero state. -/
theorem referenceGeneratorNeverLocksUp : Obligations.ReferenceGeneratorNeverLocksUp := by
  refine ⟨by decide, rfl, fun s v hv => ?_, fun s t v hv hne h => ?_⟩
  · exact (perform_write_reg s .lfsr 0 (by decide)).trans (writeReg_lfsr_legal s 0 v hv (by decide))
  · have hs : s.rng.generating := ⟨v, hne, hv⟩
    rcases step_cases s t h with ⟨-, host, rfl⟩ | ⟨act, rest, -, hact⟩
    · exact hs
    · exact perform_generating (s.popped rest) t act hs hact

end Sys2Proof.Machine
end

section
/-! The Detector's guarantee (spec/45_detector.md R232) and the host's accesses (spec/20_memory.md R65 to R67): what a read
returns, what a buffer write stores, and which accesses are refused. -/

namespace Sys2Proof.Machine

/-! ### The Detector -/

/-- DETECT lists the number of every flagged slot. -/
theorem exec_detect_lists (s : State) (n : Half) (hn : n ∈ s.flaggedNumbers) :
    ∃ t, exec .detect s = .next t ∧ ∃ a, a < t.nflag ∧ Memory.get? t.flg a = some n := by
  obtain ⟨a, ha⟩ := List.mem_iff_getElem?.mp hn
  have hlt : a < s.flaggedNumbers.length := (List.getElem?_eq_some_iff.mp ha).1
  exact ⟨_, exec_detect s, a, hlt, (get?_write_zero s.flg s.flaggedNumbers a).trans ((if_pos hlt).trans ha)⟩

theorem mem_flaggedNumbers (s : State) (i : Nat) (hi : i < s.count)
    (hf : checksum (s.slot 0 i).payload ≠ (s.slot 0 i).csum) : (s.slot 0 i).num ∈ s.flaggedNumbers := by
  rw [flaggedNumbers_eq_collection]
  refine List.mem_map_of_mem (List.mem_filter.mpr ⟨(mem_collection_iff s _).mpr ⟨i, hi, rfl⟩, ?_⟩)
  exact bne_iff_ne.mpr hf

theorem flaggedNumbers_eq_nil (s : State)
    (h : ∀ i, i < s.count → (s.slot 0 i).csum = checksum (s.slot 0 i).payload) : s.flaggedNumbers = [] := by
  rw [flaggedNumbers_eq_collection, List.map_eq_nil_iff, List.filter_eq_nil_iff]
  intro g hg
  obtain ⟨i, hi, rfl⟩ := (mem_collection_iff s g).mp hg
  simp [h i hi]

/-- Settles O39: one changed byte changes the checksum (R116), so the slot is flagged; an intact slot is not. -/
theorem detectFlagsOneDamagedByte : Obligations.DetectFlagsOneDamagedByte := by
  refine ⟨fun s i k p b hi hk hne hcsum hpay => ?_, fun s h => ?_⟩
  · refine exec_detect_lists s _ (mem_flaggedNumbers s i hi ?_)
    rw [hcsum, hpay]
    exact oneChangedByteChangesTheChecksum p k b hk hne
  · exact ⟨_, exec_detect s, congrArg List.length (flaggedNumbers_eq_nil s h)⟩

/-! ### Reading registers -/

/-- STATUS is the sum of its bits (R23). -/
theorem flags_value_eq (f : Flags) :
    f.value = BitVec.ofNat 32 (f.z.toNat + 2 * f.more.toNat + 4 * f.gap.toNat + 8 * f.dup.toNat +
      16 * f.hit.toNat + 32 * f.ever.toNat) := by
  obtain ⟨z, more, gap, dup, hit, ever⟩ := f
  revert z more gap dup hit ever
  decide

/-- Each entry of the register table is a register with its value. -/
theorem regValue_of_mem_registerTable (s : State) (index v : Nat) (h : (index, v) ∈ s.registerTable) :
    ∃ r : Reg, r.index = index ∧ s.regValue r = .ok (BitVec.ofNat 32 v) := by
  rw [State.registerTable, List.mem_append] at h
  rcases h with h | h
  · simp only [List.mem_cons, Prod.mk.injEq, List.not_mem_nil, or_false] at h
    rcases h with ⟨rfl, rfl⟩ | ⟨rfl, rfl⟩ | ⟨rfl, rfl⟩ | ⟨rfl, rfl⟩ | ⟨rfl, rfl⟩ | ⟨rfl, rfl⟩ | ⟨rfl, rfl⟩ |
      ⟨rfl, rfl⟩ | ⟨rfl, rfl⟩ | ⟨rfl, rfl⟩ | ⟨rfl, rfl⟩ | ⟨rfl, rfl⟩ | ⟨rfl, rfl⟩ | ⟨rfl, rfl⟩
    · exact ⟨.status, rfl, congrArg Except.ok (flags_value_eq s.flags)⟩
    · refine ⟨.err, rfl, congrArg Except.ok ?_⟩
      cases s.err <;> rfl
    · exact ⟨.ilen, rfl, rfl⟩
    · exact ⟨.cksum, rfl, congrArg Except.ok (BitVec.ofNat_toNat 32 s.cksum).symm⟩
    · exact ⟨.segnum, rfl, congrArg Except.ok (BitVec.ofNat_toNat 32 s.seg.num).symm⟩
    · exact ⟨.segcsum, rfl, congrArg Except.ok (BitVec.ofNat_toNat 32 s.seg.csum).symm⟩
    · exact ⟨.segplen, rfl, rfl⟩
    · exact ⟨.pdata, rfl, congrArg Except.ok (BitVec.ofNat_toNat 32 s.pdata).symm⟩
    · exact ⟨.count, rfl, rfl⟩
    · exact ⟨.olen, rfl, rfl⟩
    · exact ⟨.nflag, rfl, rfl⟩
    · exact ⟨.thresh, rfl, rfl⟩
    · exact ⟨.scnt, rfl, rfl⟩
    · exact ⟨.soff, rfl, rfl⟩
  · cases hr : s.rng with
    | lfsr x =>
      rw [hr] at h
      obtain ⟨rfl, rfl⟩ : index = 0xD ∧ v = x.toNat := by simpa using h
      exact ⟨.lfsr, rfl, by simp only [State.regValue, hr, BitVec.ofNat_toNat]⟩
    | given answers taken =>
      rw [hr] at h
      exact absurd h List.not_mem_nil

theorem element_reg (s : State) (r : Reg) : s.element .reg r.index = s.regValue r := by
  cases r <;> rfl

theorem reg_index_lt (r : Reg) : r.index < 16 := by
  cases r <;> decide

theorem hostRead_reg (s : State) (r : Reg) : s.hostRead .reg r.index = s.regValue r :=
  (if_pos (reg_index_lt r)).trans (element_reg s r)

/-! ### Reading elements -/

theorem perform_read_of_ok (s : State) (space : Space) (index : Nat) (v : Word) (h : s.hostRead space index = .ok v) :
    s.perform (.read space index) = .next (s.reply v) := by
  simp only [State.perform, h]

theorem perform_read_element (s : State) (space : Space) (index : Nat) (v : Word)
    (hi : index < Params.sizeOf s.cfg space) (h : s.element space index = .ok v) :
    s.perform (.read space index) = .next (s.reply v) := perform_read_of_ok s space index v ((if_pos hi).trans h)

/-- An element is read zero-extended, and a written one as what was written (R65). -/
theorem toNat_setWidth_getD {n : Nat} (m : Memory (BitVec n)) (index : Nat) (free b : BitVec n) (hn : n ≤ 32)
    (hb : Memory.get? m index = some b) : (((Memory.get? m index).getD free).setWidth 32).toNat = b.toNat := by
  rw [hb, Option.getD_some, BitVec.toNat_setWidth_of_le hn]

/-- Settles O45: every read inside its space is a reply, of the register or of the element. -/
theorem hostReadsReturnTheElement : Obligations.HostReadsReturnTheElement := by
  refine fun s => ⟨fun index v h => ?_,
    fun index => ⟨fun hi => ?_, fun hi => ?_, fun hi => ?_, fun hi => ?_, fun hi => ?_⟩⟩
  · obtain ⟨r, rfl, hr⟩ := regValue_of_mem_registerTable s index v h
    exact ⟨_, perform_read_of_ok s .reg r.index _ ((hostRead_reg s r).trans hr), rfl⟩
  · exact ⟨_, _, perform_read_element s .ibuf index _ hi rfl, rfl,
      fun b hb => toNat_setWidth_getD s.ibuf index _ b (by decide) hb⟩
  · exact ⟨_, _, perform_read_element s .wbuf index _ hi rfl, rfl,
      fun b hb => toNat_setWidth_getD s.wbuf index _ b (by decide) hb⟩
  · exact ⟨_, _, perform_read_element s .obuf index _ hi rfl, rfl,
      fun b hb => toNat_setWidth_getD s.obuf index _ b (by decide) hb⟩
  · exact ⟨_, _, perform_read_element s .flg index _ hi rfl, rfl,
      fun n hn => toNat_setWidth_getD s.flg index _ n (by decide) hn⟩
  · refine ⟨_, _, perform_read_element s .pres index _ hi rfl, rfl, ?_⟩
    cases presBit s.pres index <;> rfl

/-! ### Writing bytes -/

theorem byte_fits (b : Byte) : (b.setWidth 32 : Word).toNat ≤ 0xFF := by
  rw [BitVec.toNat_setWidth_of_le (by decide)]
  exact Nat.le_of_lt_succ b.isLt

theorem perform_write_ibuf (s : State) (index : Nat) (v : Word) (hi : index < s.cfg.ibufCap) (hv : v.toNat ≤ 0xFF) :
    s.perform (.write .ibuf index v) = .next { s with ibuf := Memory.write s.ibuf index [v.setWidth 8] } :=
  (if_pos hi).trans (if_pos hv)

theorem perform_write_wbuf (s : State) (index : Nat) (v : Word) (hi : index < 256) (hv : v.toNat ≤ 0xFF) :
    s.perform (.write .wbuf index v) = .next { s with wbuf := Memory.write s.wbuf index [v.setWidth 8] } :=
  (if_pos hi).trans (if_pos hv)

/-- A byte at the port is the byte that is stored. -/
theorem setWidth_setWidth_byte (b : Byte) : (b.setWidth 32 : Word).setWidth 8 = b := by
  rw [BitVec.setWidth_setWidth_of_le _ (by decide), BitVec.setWidth_eq]

/-- Settles O46: the write stores one element, which reads as the byte. -/
theorem bufferWritesStoreOneByte : Obligations.BufferWritesStoreOneByte := by
  refine fun s index b => ⟨fun hi => ?_, fun hi => ?_⟩
  · refine ⟨_, perform_write_ibuf s index _ hi (byte_fits b), rfl, ?_,
      fun a ha => (get?_write_one s.ibuf index _ a).trans (if_neg ha)⟩
    rw [get?_write_one, if_pos rfl, setWidth_setWidth_byte]
  · refine ⟨_, perform_write_wbuf s index _ hi (byte_fits b), rfl, ?_,
      fun a ha => (get?_write_one s.wbuf index _ a).trans (if_neg ha)⟩
    rw [get?_write_one, if_pos rfl, setWidth_setWidth_byte]

/-! ### The contract -/

theorem reg_ofIndex_cases (index : Nat) : (∃ r : Reg, r.index = index) ∨ (16 ≤ index ∧ Reg.ofIndex index = none) := by
  by_cases h : index < 16
  · have hreg : ∀ i, i < 16 → ((Reg.ofIndex i).map Reg.index) = some i := by decide
    obtain ⟨r, -, hr⟩ := Option.map_eq_some_iff.mp (hreg index h)
    exact .inl ⟨r, hr⟩
  · refine .inr ⟨Nat.le_of_not_lt h, ?_⟩
    unfold Reg.ofIndex
    split
    case h_17 => rfl
    all_goals omega

/-- A move either answers a next state or is refused, and `inside` tells which (R67). -/
def decidedBy (inside : Bool) (o : Host.Outcome State Fault Refusal) : Prop :=
  (inside = true → ∃ t, o = .next t) ∧ (inside = false → ∃ r, o = .refused r)

theorem decidedBy_next (t : State) : decidedBy true (.next t) := ⟨fun _ => ⟨t, rfl⟩, fun h => nomatch h⟩

theorem decidedBy_refused (r : Refusal) : decidedBy false (.refused r) := ⟨fun h => (nomatch h), fun _ => ⟨r, rfl⟩⟩

theorem perform_read_of_error (s : State) (space : Space) (index : Nat) (r : Refusal)
    (h : s.hostRead space index = .error r) : s.perform (.read space index) = .refused r := by
  simp only [State.perform, h]

/-- A host-visible space can be read at the indices inside it, and there only. -/
theorem decidedBy_read_space (s : State) (space : Space) (index : Nat) (h : ∀ i, ∃ v, s.element space i = .ok v)
    (hout : ¬ index < Params.sizeOf s.cfg space → ∃ r, s.hostRead space index = .error r) :
    decidedBy (decide (index < Params.sizeOf s.cfg space)) (s.perform (.read space index)) := by
  by_cases hi : index < Params.sizeOf s.cfg space
  · obtain ⟨v, hv⟩ := h index
    rw [decide_eq_true hi, perform_read_element s space index v hi hv]
    exact decidedBy_next _
  · obtain ⟨r, hr⟩ := hout hi
    rw [decide_eq_false hi, perform_read_of_error s space index r hr]
    exact decidedBy_refused r

theorem decidedBy_read_internal (s : State) (space : Space) (index : Nat) (r : Refusal)
    (h : s.hostRead space index = if index < Params.sizeOf s.cfg space then .error r else .error r) :
    decidedBy false (s.perform (.read space index)) := by
  rw [perform_read_of_error s space index r (h.trans (ite_self _))]
  exact decidedBy_refused r

/-- Every register but CMD can be read, LFSR where it is visible (R22, R42). -/
theorem decidedBy_read_register (s : State) (r : Reg) :
    decidedBy (s.inContract (.read .reg r.index)) (s.perform (.read .reg r.index)) := by
  cases r
  case cmd => exact decidedBy_refused .readOfCmd
  case lfsr =>
    have hread := hostRead_reg s .lfsr
    cases hr : s.rng with
    | lfsr x =>
      rw [perform_read_of_ok s .reg Reg.lfsr.index (x.setWidth 32) (by rw [hread]; simp only [State.regValue, hr])]
      simp only [State.inContract, State.lfsrVisible, hr]
      exact decidedBy_next _
    | given answers taken =>
      rw [perform_read_of_error s .reg Reg.lfsr.index .lfsrNotVisible (by rw [hread]; simp only [State.regValue, hr])]
      simp only [State.inContract, State.lfsrVisible, hr]
      exact decidedBy_refused _
  all_goals exact decidedBy_next _

theorem decidedBy_read_reg (s : State) (index : Nat) :
    decidedBy (s.inContract (.read .reg index)) (s.perform (.read .reg index)) := by
  rcases reg_ofIndex_cases index with ⟨r, rfl⟩ | ⟨hi, -⟩
  · exact decidedBy_read_register s r
  · have hout : s.inContract (.read .reg index) = false := by
      rw [State.inContract, decide_eq_false (by omega), Bool.false_and]
    rw [hout, perform_read_of_error s .reg index _ (if_neg (Nat.not_lt.mpr hi))]
    exact decidedBy_refused _

/-- A command always answers a next state (R97, R272). -/
theorem command_next (s : State) (w : Word) : ∃ t, s.command w = .next t := by
  unfold State.command
  split
  · next i _ =>
    obtain ⟨t, ht, -⟩ := exec_err i s
    exact ⟨t, ht⟩
  · exact ⟨_, rfl⟩

/-- A register other than CMD can be written where R45 gives it a limit. -/
theorem decidedBy_writeReg (s : State) (r : Reg) (v : Word) :
    decidedBy (s.writeLimit? r).isSome (s.writeReg r v) := by
  cases r
  case lfsr =>
    cases hr : s.rng with
    | lfsr x =>
      simp only [State.writeReg, State.writeLimit?, State.lfsrVisible, hr, if_true]
      split <;> exact decidedBy_next _
    | given answers taken =>
      simp only [State.writeReg, State.writeLimit?, State.lfsrVisible, hr]
      exact decidedBy_refused _
  case ilen | segnum | segcsum | segplen | thresh =>
    simp only [State.writeReg]
    split <;> exact decidedBy_next _
  all_goals exact decidedBy_refused _

theorem inContract_write_reg (s : State) (r : Reg) (v : Word) (hr : r ≠ .cmd) :
    s.inContract (.write .reg r.index v) = (s.writeLimit? r).isSome := by
  cases r
  case cmd => exact absurd rfl hr
  case lfsr => cases h : s.lfsrVisible <;> simp [State.inContract, State.writeLimit?, Reg.index, h]
  all_goals rfl

theorem decidedBy_write_reg (s : State) (index : Nat) (v : Word) :
    decidedBy (s.inContract (.write .reg index v)) (s.perform (.write .reg index v)) := by
  rcases reg_ofIndex_cases index with ⟨r, rfl⟩ | ⟨hi, hnone⟩
  · by_cases hr : r = .cmd
    · subst hr
      obtain ⟨t, ht⟩ := command_next s v
      have hperform : s.perform (.write .reg Reg.cmd.index v) = .next t := ht
      rw [hperform]
      exact decidedBy_next t
    · rw [inContract_write_reg s r v hr, perform_write_reg s r v hr]
      exact decidedBy_writeReg s r v
  · have hout : s.inContract (.write .reg index v) = false := by
      have hne : index ≠ 0xD := by omega
      have hmem : index ∉ [0x0, 0x3, 0x5, 0x6, 0x7, 0xC] := by simp; omega
      rw [State.inContract, decide_eq_false hmem, beq_false_of_ne hne, Bool.false_and, Bool.false_or]
    have hperform : s.perform (.write .reg index v) = .refused (.indexOutOfSpace .reg index) := by
      simp only [State.perform, State.hostWrite, hnone]
    rw [hout, hperform]
    exact decidedBy_refused _

/-- A byte buffer takes a byte at an index inside it. -/
theorem decidedBy_write_byte (index size : Nat) (v : Word) (t : State) (r q : Refusal) :
    decidedBy (decide (index < size ∧ v.toNat ≤ 0xFF))
      (if index < size then if v.toNat ≤ 0xFF then .next t else .refused r else .refused q) := by
  by_cases hi : index < size
  · by_cases hv : v.toNat ≤ 0xFF
    · rw [if_pos hi, if_pos hv, decide_eq_true ⟨hi, hv⟩]
      exact decidedBy_next t
    · rw [if_pos hi, if_neg hv, decide_eq_false fun h => hv h.2]
      exact decidedBy_refused r
  · rw [if_neg hi, decide_eq_false fun h => hi h.1]
    exact decidedBy_refused q

/-- Settles O47: each space's reads and writes are decided by its row of the contract. -/
theorem exactlyTheAccessesOutsideTheContractAreRefused : Obligations.ExactlyTheAccessesOutsideTheContractAreRefused := by
  intro s act
  show decidedBy (s.inContract act) (s.perform act)
  cases act with
  | reset => exact decidedBy_next _
  | read space index =>
    cases space
    case reg => exact decidedBy_read_reg s index
    case ibuf => exact decidedBy_read_space s .ibuf index (fun i => ⟨_, rfl⟩) fun h => ⟨_, if_neg h⟩
    case wbuf => exact decidedBy_read_space s .wbuf index (fun i => ⟨_, rfl⟩) fun h => ⟨_, if_neg h⟩
    case obuf => exact decidedBy_read_space s .obuf index (fun i => ⟨_, rfl⟩) fun h => ⟨_, if_neg h⟩
    case flg => exact decidedBy_read_space s .flg index (fun i => ⟨_, rfl⟩) fun h => ⟨_, if_neg h⟩
    case pres => exact decidedBy_read_space s .pres index (fun i => ⟨_, rfl⟩) fun h => ⟨_, if_neg h⟩
    case segPay => exact decidedBy_read_internal s .segPay index _ rfl
    case rb => exact decidedBy_read_internal s .rb index _ rfl
    case ord => exact decidedBy_read_internal s .ord index _ rfl
  | write space index v =>
    cases space
    case reg => exact decidedBy_write_reg s index v
    case ibuf => exact decidedBy_write_byte index s.cfg.ibufCap v _ _ _
    case wbuf => exact decidedBy_write_byte index 256 v _ _ _
    all_goals exact decidedBy_refused _

end Sys2Proof.Machine
end

section
/-! The idempotent operations (spec/20_memory.md R76): a second completion recomputes what the first one left, because it reads
written storage only and writes the same run again. -/

namespace Sys2Proof.Machine

/-! ### Writing the same run twice -/

theorem filter_cellsFrom_of_false {α : Type} (p : Nat × α → Bool) (base : Nat) (vs : List α)
    (h : ∀ c ∈ cellsFrom base vs, p c = false) : (cellsFrom base vs).filter p = [] :=
  List.filter_eq_nil_iff.mpr fun c hc => by simp [h c hc]

theorem write_write_same {α : Type} (m : Memory α) (base : Nat) (vs : List α) :
    Memory.write (Memory.write m base vs) base vs = Memory.write m base vs := by
  have hbelow : (Memory.write m base vs).filter (fun c => decide (c.1 < base)) =
      m.filter fun c => decide (c.1 < base) := by
    have hrun := filter_cellsFrom_of_false (fun c => decide (c.1 < base)) base vs fun c hc =>
      decide_eq_false (Nat.not_lt.mpr (mem_cellsFrom base vs c hc).1)
    have habove : (m.filter fun c => decide (base + vs.length ≤ c.1)).filter (fun c => decide (c.1 < base)) = [] :=
      List.filter_eq_nil_iff.mpr fun c hc => by
        have := of_decide_eq_true (List.mem_filter.mp hc).2
        simp
        omega
    rw [Memory.write, List.filter_append, List.filter_append, hrun, habove, List.filter_filter]
    simp
  have habove : (Memory.write m base vs).filter (fun c => decide (base + vs.length ≤ c.1)) =
      m.filter fun c => decide (base + vs.length ≤ c.1) := by
    have hrun := filter_cellsFrom_of_false (fun c => decide (base + vs.length ≤ c.1)) base vs fun c hc =>
      decide_eq_false (Nat.not_le.mpr (mem_cellsFrom base vs c hc).2)
    have hbelow : (m.filter fun c => decide (c.1 < base)).filter (fun c => decide (base + vs.length ≤ c.1)) = [] :=
      List.filter_eq_nil_iff.mpr fun c hc => by
        have := of_decide_eq_true (List.mem_filter.mp hc).2
        simp
        omega
    rw [Memory.write, List.filter_append, List.filter_append, hrun, hbelow, List.filter_filter]
    simp
  rw [Memory.write, hbelow, habove]
  rfl

theorem setByte_setByte_same (g : Segment) (i : Nat) (b : Byte) : (g.setByte i b).setByte i b = g.setByte i b := by
  unfold Segment.setByte
  split <;> simp

/-! ### Reading what is written -/

/-- Written bytes of IBUF read alike in two states with one IBUF. -/
theorem ibufBytes_congr (s t : State) (reading base n : Nat) (hibuf : t.ibuf = s.ibuf)
    (h : ∀ a, a < base + n → (Memory.get? s.ibuf a).isSome = true) :
    t.ibufBytes reading base n = s.ibufBytes reading base n := by
  refine List.map_congr_left fun i hi => ?_
  obtain ⟨b, hb⟩ := Option.isSome_iff_exists.mp (h (base + i) (Nat.add_lt_add_left (List.mem_range.mp hi) base))
  simp only [State.ibufByte, hibuf, hb, Option.getD_some]

theorem wbufByte_congr (s t : State) (reading i : Nat) (hwbuf : t.wbuf = s.wbuf)
    (h : (Memory.get? s.wbuf i).isSome = true) : t.wbufByte reading i = s.wbufByte reading i := by
  obtain ⟨b, hb⟩ := Option.isSome_iff_exists.mp h
  simp only [State.wbufByte, hwbuf, hb, Option.getD_some]

/-- Under the invariant the collection is what RB and COUNT say, whatever unwritten storage reads as. -/
theorem collection_congr {s : State} (hs : s.Inv) (t : State) (hrb : t.rb = s.rb) (hcount : t.count = s.count) :
    t.collection = s.collection := by
  rw [State.collection, State.collection, hcount]
  refine List.map_congr_left fun i hi => ?_
  obtain ⟨g, hg⟩ := Option.isSome_iff_exists.mp (hs.slotsWritten i (List.mem_range.mp hi))
  rw [slot_of_get? s 0 i g hg, slot_of_get? t 0 i g (hrb ▸ hg)]

theorem packedPayloads_congr {s t : State} (hs : s.Inv) (ht : t.Inv) (hrb : t.rb = s.rb) (hcount : t.count = s.count) :
    t.packedPayloads = s.packedPayloads ∧ t.storedLength = s.storedLength := by
  have hc := collection_congr hs t hrb hcount
  rw [packedPayloads_eq_packedBySearch hs, packedPayloads_eq_packedBySearch ht, storedLength_eq_sum,
    storedLength_eq_sum, hc]
  exact ⟨rfl, rfl⟩

/-! ### The second issue -/

/-- From the state an idempotent operation completes in, it completes in the same state again. -/
theorem Completes.repeats {s u : State} {i : Instr} (h : Completes s i u) (hi : idempotent i = true) (hs : s.Inv)
    (hibuf : ∀ a, a < s.ilen → (Memory.get? s.ibuf a).isSome = true)
    (hwbuf : ∀ a, a < 256 → (Memory.get? s.wbuf a).isSome = true) :
    ∃ v, Completes u.complete i v ∧ State.sameBlock u.complete v.complete := by
  have hu := (h.inv hs).complete
  cases h with
  | csumi =>
    have hread (c : Half) :
        State.ibufBytes (State.complete { s with cksum := c }) 0 0 s.ilen = s.ibufBytes 0 0 s.ilen :=
      ibufBytes_congr s _ 0 0 s.ilen rfl (by simpa using hibuf)
    refine ⟨_, .csumi, ?_⟩
    simp only [State.sameBlock, complete_ilen, hread]
    rfl
  | csums => exact ⟨_, .csums, rfl⟩
  | encode =>
    refine ⟨_, .encode, ?_⟩
    simp only [State.sameBlock, complete_wbuf, complete_seg, write_write_same]
    rfl
  | decode =>
    have hread (g : Segment) (f : Flags) :
        segmentOfRecord (State.wbufByte (State.complete { s with seg := g, flags := f }) 0) =
          segmentOfRecord (s.wbufByte 0) :=
      segmentOfRecord_congr _ _ fun k hk => wbufByte_congr s _ 0 k rfl (hwbuf k hk)
    refine ⟨_, .decode, ?_⟩
    simp only [State.sameBlock, hread]
    generalize segmentOfRecord (s.wbufByte 0) = g
    rfl
  | pget a ha => exact ⟨_, .pget a ha, rfl⟩
  | pset a b ha =>
    refine ⟨_, .pset a b (by simpa using ha), ?_⟩
    simp only [State.sameBlock, complete_seg, setByte_setByte_same]
    rfl
  | seginit h => exact ⟨_, .seginit h, rfl⟩
  | segnext h => cases hi
  | rbclr => exact ⟨_, .rbclr, rfl⟩
  | rbpush h => cases hi
  | reasm =>
    obtain ⟨hpacked, hstored⟩ := packedPayloads_congr hs hu rfl rfl
    refine ⟨_, .reasm, ?_⟩
    simp only [State.sameBlock, complete_obuf, hpacked, hstored, write_write_same]
    rfl
  | corrupts h => cases hi
  | corruptr a ha h => cases hi
  | detect =>
    have hflagged (m : Memory Half) (n : Nat) :
        State.flaggedNumbers (State.complete { s with flg := m, nflag := n }) = s.flaggedNumbers :=
      congrArg (fun c => (c.filter flagged).map Segment.num)
        (collection_congr hs (State.complete { s with flg := m, nflag := n }) rfl rfl)
    refine ⟨_, .detect, ?_⟩
    simp only [State.sameBlock, hflagged, complete_flg, write_write_same]
    rfl

/-- Settles O49: an error is raised again by the same checks, and a completion is repeated. -/
theorem idempotentOperationsRepeat : Obligations.IdempotentOperationsRepeat := by
  intro i s hi hs hibuf hwbuf
  rcases exec_raises_or_completes i s with ⟨e, he, hx⟩ | ⟨u, hu, hx⟩
  · exact ⟨_, _, hx, exec_raises i _ e ((raisedError_ignores_report i s _ e rfl).trans he), rfl⟩
  · obtain ⟨v, hv, hsame⟩ := hu.repeats hi hs hibuf hwbuf
    exact ⟨_, _, hx, hv.exec_eq, hsame⟩

end Sys2Proof.Machine
end

section
/-! The step and the roles' moves (spec/20_memory.md R80; spec/46_protocol.md R240 to R252): a step is the oldest pending access,
or the move of the role, which has one equation per state of the role. -/

namespace Sys2Proof.Machine

/-! ### What a step is -/

theorem step_of_pending (s : State) (act : HostAction) (rest : List HostAction) (h : s.host.pending = act :: rest) :
    step s = (s.popped rest).perform act := by
  simp only [step, State.advance, h]
  rfl

theorem step_of_idle (s : State) (h : s.host.pending = []) : step s = s.hostTurn := by
  simp only [step, State.advance, h]

theorem step_external (s : State) (h : s.host.pending = []) (hr : s.host.role = .external) : step s = .next s := by
  simp only [step_of_idle s h, State.hostTurn, hr]

theorem step_server (s : State) (sv : Server) (h : s.host.pending = []) (hr : s.host.role = .server sv) :
    step s = serverTurn s sv := by
  simp only [step_of_idle s h, State.hostTurn, hr]

theorem step_client (s : State) (c : Client) (h : s.host.pending = []) (hr : s.host.role = .client c) :
    step s = clientTurn s c := by
  simp only [step_of_idle s h, State.hostTurn, hr]

theorem viaTransport_of_working {failing : Bool} (h : failing = false) (move : Host.Outcome State Fault Refusal) :
    viaTransport failing move = move := by
  rw [h, viaTransport_false]

/-- Settles O6: the pending write to CMD is performed, and `withFetchWord` makes one pending. -/
theorem stepRunsTheDecodedOperation : Obligations.StepRunsTheDecodedOperation := by
  have hstep : ∀ (s : State) (w : Word) (i : Instr) (rest : List HostAction),
      s.host.pending = .write .reg 0 w :: rest → decode w = .ok i → step s = exec i (s.popped rest) := by
    intro s w i rest hp hd
    rw [step_of_pending s _ rest hp, perform_write_cmd, command_of_ok _ w i hd]
  refine ⟨hstep, fun s w i hd => ?_⟩
  have hlegal : decode (BitVec.ofNat 32 w) = .ok i := by
    rw [decodeTableWord, Option.ite_none_right_eq_some] at hd
    obtain ⟨-, hd⟩ := hd
    cases hdec : decode (BitVec.ofNat 32 w) with
    | ok j => rw [hdec] at hd; exact congrArg Except.ok (Option.some.inj hd)
    | error e => rw [hdec] at hd; cases hd
  exact hstep _ _ i s.host.pending rfl hlegal

/-- Settles O50: each value of the table is the field's at power-up. -/
theorem resetHasTheStatedValues : Obligations.ResetHasTheStatedValues :=
  ⟨powerUp_flags_value _, rfl, rfl, rfl, rfl, rfl, rfl, powerUp_seg_pay _, rfl, rfl, rfl, rfl, rfl, rfl, rfl, rfl,
    presBit_nil, rfl, fun _ => ⟨rfl, rfl, rfl, rfl, rfl, rfl⟩⟩

/-! ### The client's moves (R242) -/

section
variable (s : State) (c : Client)

theorem clientTurn_idle (hc : c.state = .idle) :
    clientTurn s c = .next (s.issue (.client { c with state := .starting })
      (cmd .rbclr :: (c.probability.map setprob).getD [])) := by
  simp only [clientTurn, hc]
  cases c.probability <;> rfl

theorem clientTurn_starting (hc : c.state = .starting) (hn : isLine (requestText c.name) = true) :
    clientTurn s c = viaTransport c.failing (.next (s.issue
      (.client { c with state := .requestSent, requested := c.requested ++ [requestLine c.name] }) [])) := by
  simp only [clientTurn, hc, if_pos hn]

/-- A client that waits for a datagram needs the transport, and without one it stays. -/
theorem clientTurn_waiting (hc : c.state = .requestSent ∨ c.state = .receiving) :
    ∃ move, clientTurn s c = viaTransport c.failing move ∧ (c.arrived = [] → move = .next s) := by
  rcases hc with hc | hc
  · simp only [clientTurn, hc]
    exact ⟨_, rfl, fun h => by simp only [h]⟩
  · simp only [clientTurn, hc]
    exact ⟨_, rfl, fun h => by simp only [h]⟩

theorem clientTurn_decoding (hc : c.state = .decoding) :
    clientTurn s c =
      if (replied s.host.replies 0).getLsbD 0 = false then
        .next (s.issue (.client { c with state := .receiving }) [cmd .rbpush])
      else if (replied s.host.replies 1).toNat = 0 then
        .next (s.issue (.client { c with state := .done .notFound }) [])
      else .next (s.issue (.client { c with state := .detecting })
        (injectorCalls c (replied s.host.replies 1).toNat ++ [cmd .detect, rd .nflag])) := by
  simp only [clientTurn, hc]

theorem clientTurn_detecting (hc : c.state = .detecting) :
    clientTurn s c = .next (s.issue (.client { c with state := .reassembling })
      (rdbUpTo .flg (replied s.host.replies 0).toNat ++ [cmd .reasm, rd .olen])) := by
  simp only [clientTurn, hc]

theorem clientTurn_reassembling (hc : c.state = .reassembling) :
    clientTurn s c = .next (s.issue (.client { c with state := .handingOver s.host.replies.reverse.dropLast })
      (rdbUpTo .obuf (s.host.replies.reverse.getLastD 0).toNat)) := by
  simp only [clientTurn, hc]

theorem clientTurn_handingOver (numbers : List Word) (hc : c.state = .handingOver numbers) :
    clientTurn s c = .next (s.issue
      (.client { c with state := .done (.delivered numbers (repliedBytes s.host.replies)) }) []) := by
  simp only [clientTurn, hc]

theorem clientTurn_done (r : Report) (hc : c.state = .done r) : clientTurn s c = .next s := by
  simp only [clientTurn, hc]

end

/-! ### The server's moves (R241) -/

section
variable (s : State) (sv : Server)

theorem serverTurn_idle_waiting (hs : sv.state = .idle) (hr : sv.requests = []) :
    serverTurn s sv = viaTransport sv.failing (.next s) := by
  simp only [serverTurn, hs, hr]

theorem serverTurn_idle_request (line : List Byte) (rest : List (List Byte)) (name : List Byte) (hs : sv.state = .idle)
    (hr : sv.requests = line :: rest) (hn : parseRequest line = some name) :
    serverTurn s sv = viaTransport sv.failing
      (.next (s.issue (.server { sv with state := .requestReceived name, requests := rest }) [])) := by
  simp only [serverTurn, hs, hr, hn]

theorem serverTurn_idle_malformed (line : List Byte) (rest : List (List Byte)) (hs : sv.state = .idle)
    (hr : sv.requests = line :: rest) (hn : parseRequest line = none) :
    serverTurn s sv = viaTransport sv.failing (.refused .malformedRequest) := by
  simp only [serverTurn, hs, hr, hn]

theorem serverTurn_notFound (name : List Byte) (hs : sv.state = .requestReceived name)
    (hl : sv.store.lookup name = none) :
    serverTurn s sv = .next (s.issue (.server { sv with state := .sentinelSent }) (sentinel ++ send)) := by
  simp only [serverTurn, hs, hl]

theorem serverTurn_found (name resource : List Byte) (hs : sv.state = .requestReceived name)
    (hl : sv.store.lookup name = some resource) :
    serverTurn s sv = .next (s.issue (.server { sv with state := .streaming })
      (loadi (responseBody name resource) ++ [cmd .seginit, cmd .segnext] ++ send ++ [rd .status])) := by
  simp only [serverTurn, hs, hl]

theorem serverTurn_streaming (hs : sv.state = .streaming) :
    serverTurn s sv = viaTransport sv.failing
      (if (replied s.host.replies 256).getLsbD 1 then
        .next (s.issue (.server { sv with sent := sv.sent ++ [repliedRecord s.host.replies] })
          (cmd .segnext :: send ++ [rd .status]))
      else .next (s.issue (.server { sv with
        state := .sentinelSent, sent := sv.sent ++ [repliedRecord s.host.replies] }) (sentinel ++ send))) := by
  simp only [serverTurn, hs]

/-- The moves in which the server uses the transport. -/
theorem serverTurn_uses_transport (hs : sv.state = .idle ∨ sv.state = .streaming ∨ sv.state = .sentinelSent) :
    ∃ move, serverTurn s sv = viaTransport sv.failing move := by
  rcases hs with hs | hs | hs
  · simp only [serverTurn, hs]
    exact ⟨_, rfl⟩
  · exact ⟨_, serverTurn_streaming s sv hs⟩
  · simp only [serverTurn, hs]
    exact ⟨_, rfl⟩

end

/-! ### Waiting, and a failing transport -/

/-- Settles O7: with no access pending a step is the role's move, and a role that waits stays. -/
theorem waitingChangesNothing : Obligations.WaitingChangesNothing := by
  refine fun s hp => ⟨step_external s hp, fun c hr hc harr hfail => ?_, fun c r hr hc => ?_,
    fun sv hr hs hreq hfail => ?_⟩
  · obtain ⟨move, hmove, hstay⟩ := clientTurn_waiting s c hc
    rw [step_client s c hp hr, hmove, hfail, viaTransport_false, hstay harr]
  · rw [step_client s c hp hr, clientTurn_done s c r hc]
  · rw [step_server s sv hp hr, serverTurn_idle_waiting s sv hs hreq, hfail, viaTransport_false]

/-- Settles O60: each of these moves goes through the transport. -/
theorem transportFailureEndsTheSession : Obligations.TransportFailureEndsTheSession := by
  refine fun s hp => ⟨fun sv hr hfail hs => ?_, fun c hr hfail hc => ?_⟩
  · obtain ⟨move, hmove⟩ := serverTurn_uses_transport s sv hs
    rw [step_server s sv hp hr, hmove, hfail, viaTransport_true]
  · rw [step_client s c hp hr]
    rcases hc with ⟨hc, hn⟩ | hc
    · rw [clientTurn_starting s c hc hn, hfail, viaTransport_true]
    · obtain ⟨move, hmove, -⟩ := clientTurn_waiting s c hc
      rw [hmove, hfail, viaTransport_true]

/-! ### What a batch of reads returned -/

/-- Bytes that were read out zero-extended are the bytes. -/
theorem repliedBytes_of_reads (bytes : List Byte) :
    repliedBytes (bytes.map fun b => b.setWidth 32).reverse = bytes := by
  rw [repliedBytes, List.reverse_reverse, List.map_map]
  exact (List.map_congr_left fun b _ => setWidth_setWidth_byte b).trans bytes.map_id

/-- A SEND and a read of STATUS return the record and then STATUS. -/
theorem replied_status (r : Record) (status : Word) :
    replied (status :: (r.toList.map fun b => b.setWidth 32).reverse) 256 = status := by
  rw [replied, List.reverse_cons, List.reverse_reverse, List.getD_append_right _ _ _ _ (by simp)]
  simp

theorem repliedRecord_of_reads (r : Record) (status : Word) :
    repliedRecord (status :: (r.toList.map fun b => b.setWidth 32).reverse) = r := by
  have hbytes : repliedBytes (status :: (r.toList.map fun b => b.setWidth 32).reverse) =
      r.toList ++ [status.setWidth 8] := by
    rw [repliedBytes, List.reverse_cons, List.map_append, ← repliedBytes, repliedBytes_of_reads]
    rfl
  apply Vector.ext
  intro i hi
  rw [repliedRecord, Vector.getElem_ofFn, hbytes, List.getD_append _ _ _ _ (by simpa using hi)]
  simp [hi]

/-! ### The server's answers -/

theorem parseRequest_requestLine (name : List Byte) (hn : isLine (requestText name) = true) :
    parseRequest (requestLine name) = some name := (parseRequest_eq_some _ _).mpr ⟨hn, rfl⟩

theorem parseRequest_eq_none (line : List Byte)
    (h : ∀ name, line = requestLine name → isLine (requestText name) = false) : parseRequest line = none := by
  rw [Option.eq_none_iff_forall_ne_some]
  intro name hname
  obtain ⟨hline, heq⟩ := (parseRequest_eq_some line name).mp hname
  exact absurd hline (by rw [h name heq]; decide)

/-- Settles O56: the server's moves in Idle, by what the datagram parses to, and in RequestReceived, by the store. -/
theorem serverAnswersARequest : Obligations.ServerAnswersARequest := by
  refine fun s sv hp hr => ⟨fun line rest hs hfail hreq => ⟨?_, fun hbad => ?_⟩, fun name hs => ?_⟩
  · rintro name rfl hn
    have hmove := serverTurn_idle_request s sv _ rest name hs hreq (parseRequest_requestLine name hn)
    exact ⟨_, (step_server s sv hp hr).trans (hmove.trans (viaTransport_of_working hfail _)), rfl, rfl, rfl⟩
  · rw [step_server s sv hp hr, serverTurn_idle_malformed s sv line rest hs hreq (parseRequest_eq_none line hbad),
      hfail, viaTransport_false]
  · rw [step_server s sv hp hr]
    cases hl : sv.store.lookup name with
    | none =>
      exact ⟨_, serverTurn_notFound s sv name hs hl, rfl, fun _ => ⟨rfl, rfl⟩, fun _ h => nomatch h⟩
    | some resource =>
      refine ⟨_, serverTurn_found s sv name resource hs hl, rfl, fun h => (nomatch h), fun resource' h => ?_⟩
      cases h
      exact ⟨rfl, rfl⟩

/-- Settles O57: the batch returned the record and then STATUS, whose bit MORE decides. -/
theorem serverStreamsUntilNothingIsLeft : Obligations.ServerStreamsUntilNothingIsLeft := by
  intro s sv r status hp hr hs hfail hreplies
  rw [step_server s sv hp hr, serverTurn_streaming s sv hs, hfail, viaTransport_false, hreplies, replied_status,
    repliedRecord_of_reads]
  cases hmore : status.getLsbD 1 with
  | true => exact ⟨_, if_pos rfl, rfl, rfl, fun _ => ⟨rfl, rfl⟩, fun h => nomatch h⟩
  | false => exact ⟨_, if_neg (by decide), rfl, rfl, fun h => (nomatch h), fun _ => ⟨rfl, rfl⟩⟩

/-! ### The client's start and end -/

/-- Settles O58: one equation of the client for each of its five moves. -/
theorem clientStartsAndDelivers : Obligations.ClientStartsAndDelivers := by
  intro s c hp hr
  rw [step_client s c hp hr]
  refine ⟨fun hc => ?_, fun hc hfail hn => ?_, fun n hc hreplies => ?_, fun n numbers hc hreplies => ?_,
    fun numbers body hc hreplies => ?_⟩
  · refine ⟨_, clientTurn_idle s c hc, rfl, rfl, fun h => ?_, fun p h => ?_⟩
    · rw [h]
      rfl
    · rw [h]
      rfl
  · exact ⟨_, (clientTurn_starting s c hc hn).trans (viaTransport_of_working hfail _), rfl, rfl, rfl⟩
  · refine ⟨_, clientTurn_detecting s c hc, rfl, rfl, ?_⟩
    rw [hreplies]
    rfl
  · refine ⟨_, clientTurn_reassembling s c hc, rfl, ?_⟩
    rw [hreplies, List.reverse_cons, List.reverse_reverse, List.dropLast_concat, List.getLastD_concat]
    exact ⟨rfl, rfl⟩
  · refine ⟨_, clientTurn_handingOver s c numbers hc, rfl, rfl, ?_⟩
    rw [hreplies, repliedBytes_of_reads]
    rfl

end Sys2Proof.Machine
end

section
/-! Batches of accesses and transfers (spec/30_encoding.md R101; spec/46_protocol.md R242, R245, R246; spec/20_memory.md R85):
what SENTINEL and RECV leave, and where the records at the client come from. -/

namespace Sys2Proof.Machine

/-! ### Batches -/

theorem performAll_cons {s t : State} {act : HostAction} (h : s.perform act = .next t) (rest : List HostAction) :
    performAll (act :: rest) s = performAll rest t := by
  simp only [performAll, h]

theorem performAll_append {s t : State} {acts : List HostAction} (h : performAll acts s = .next t)
    (rest : List HostAction) : performAll (acts ++ rest) s = performAll rest t := by
  induction acts generalizing s with
  | nil =>
    cases h
    rfl
  | cons act acts ih =>
    simp only [List.cons_append, performAll] at h ⊢
    split at h
    · exact ih h
    · cases h
    · cases h

/-- The command line of an operation runs it (R22, R90). -/
theorem perform_cmd (s : State) (i : Instr) (hi : i.wellFormed = true) : s.perform (cmd i) = exec i s :=
  command_of_ok s (encode i) i (decodeOfEncodeIsTheOperation i hi)

/-- A read of a register returns its value. -/
theorem perform_rd (s : State) (r : Reg) (v : Word) (h : s.regValue r = .ok v) : s.perform (rd r) = .next (s.reply v) :=
  perform_read_of_ok s .reg r.index v ((hostRead_reg s r).trans h)

/-! ### SENTINEL -/

/-- A legal write of ILEN restarts the Segmenter (R25). -/
theorem perform_wr_ilen (s : State) (v : Word) (hv : v.toNat ≤ s.cfg.ibufCap) :
    s.perform (wr .ilen v) =
      .next { s with ilen := v.toNat, scnt := 0, soff := 0, flags := { s.flags with more := false } } := if_pos hv

/-- LOADI of one zero byte presents it in IBUF (R101). -/
theorem performAll_loadi_zero (s : State) (hcap : 1 ≤ s.cfg.ibufCap) :
    ∃ t, performAll (loadi [0x00]) s = .next t ∧ t.ilen = 1 ∧ t.ibufHolds 0 [0x00] := by
  have hbyte := perform_write_ibuf s 0 ((0x00 : Byte).setWidth 32) hcap (byte_fits 0x00)
  rw [setWidth_setWidth_byte] at hbyte
  have hread := (get?_write_one s.ibuf 0 (0x00 : Byte) 0).trans (if_pos rfl)
  have hilen := perform_wr_ilen { s with ibuf := Memory.write s.ibuf 0 [0x00] } 1 hcap
  refine ⟨_, (performAll_cons hbyte _).trans (performAll_cons hilen []), rfl, fun i hi => ?_⟩
  obtain rfl : i = 0 := by simpa using hi
  exact hread

/-- SENTINEL presents one zero byte, and SEGINIT and SEGNEXT leave the one segment of that buffer in SEG. -/
theorem performAll_sentinel (s : State) (hcap : 1 ≤ s.cfg.ibufCap) :
    ∃ t, performAll sentinel s = .next t ∧ t.seg = segmentOfChunk 0 (checksum [0x00]) [0x00] ∧ t.err = .ok := by
  obtain ⟨s1, h1, hlen, hholds⟩ := performAll_loadi_zero s hcap
  obtain ⟨s2, h2, hemit⟩ := exec_seginit_emitting s1 [0x00] (by decide) hlen hholds
  obtain ⟨t, ht, hok, hseg, -⟩ := emitting_segnext hemit (by decide)
  refine ⟨t, ?_, ?_, hok⟩
  · rw [sentinel, performAll_append h1, performAll_cons ((perform_cmd s1 .seginit rfl).trans h2),
      performAll_cons ((perform_cmd s2 .segnext rfl).trans ht)]
    rfl
  · rw [segmentsOf_getElem?] at hseg
    exact (Option.some.inj hseg).symm

/-- The record of the Sentinel Segment (R245): number 0, checksum 0xFFFF and 252 zero bytes. -/
theorem sentinel_recordBytes (i : Nat) (hi : i < 256) :
    (recordBytes (segmentOfChunk 0 0xFFFF [0x00]))[i]? = some (if i = 2 ∨ i = 3 then 0xFF else 0) := by
  have hrecord : recordBytes (segmentOfChunk 0 0xFFFF [0x00]) = [0, 0, 0xFF, 0xFF] ++ List.replicate 252 0 := by
    rw [recordBytes, segmentOfChunk_payload 0 0xFFFF [0x00] (by decide)]
    rfl
  rw [hrecord]
  match i with
  | 0 => rfl
  | 1 => rfl
  | 2 => rfl
  | 3 => rfl
  | k + 4 =>
    have hcut : k + 4 - [0, 0, 0xFF, (0xFF : Byte)].length = k := Nat.add_sub_cancel k 4
    rw [if_neg (by omega), List.getElem?_append_right (Nat.le_add_left 4 k), hcut, List.getElem?_replicate,
      if_pos (by omega)]

/-- Settles O54: the segment of the one zero byte, and its record. -/
theorem sentinelSequenceBuildsTheSentinel : Obligations.SentinelSequenceBuildsTheSentinel := by
  intro s hs
  have hcap : 1 ≤ s.cfg.ibufCap := (of_decide_eq_true hs.params).2.2.1
  have hcsum : checksum [0x00] = 0xFFFF := by decide
  obtain ⟨t, ht, hseg, herr⟩ := performAll_sentinel s hcap
  rw [hcsum] at hseg
  have hpay : t.seg.payload = [0x00] := hseg ▸ segmentOfChunk_payload 0 _ [0x00] (by decide)
  refine ⟨t, _, ht, hseg ▸ rfl, hseg ▸ rfl, hpay, hseg ▸ rfl, herr,
    (perform_cmd t .encode rfl).trans (exec_encode t), fun i => ?_⟩
  rw [complete_wbuf, get?_write_recordBytes, if_pos i.isLt, hseg, sentinel_recordBytes i.val i.isLt]

/-! ### RECV -/

/-- A run of byte writes leaves the bytes in WBUF at their indices, and nothing else changed. -/
theorem performAll_wrbFrom_wbuf (bytes : List Byte) (base : Nat) (s : State) (h : base + bytes.length ≤ 256) :
    ∃ m, performAll (wrbFrom .wbuf base bytes) s = .next { s with wbuf := m } ∧
      ∀ a, Memory.get? m a = if base ≤ a ∧ a < base + bytes.length then bytes[a - base]? else Memory.get? s.wbuf a := by
  induction bytes generalizing base s with
  | nil => exact ⟨s.wbuf, rfl, fun a => by rw [if_neg (by simp)]⟩
  | cons b bytes ih =>
    rw [List.length_cons] at h
    have hbyte := perform_write_wbuf s base (b.setWidth 32) (by omega) (byte_fits b)
    rw [setWidth_setWidth_byte] at hbyte
    obtain ⟨m, hm, hget⟩ := ih (base + 1) { s with wbuf := Memory.write s.wbuf base [b] } (by omega)
    refine ⟨m, (performAll_cons hbyte _).trans hm, fun a => ?_⟩
    rw [hget a, get?_write_one, List.length_cons]
    by_cases ha : a = base
    · simp [ha]
    · by_cases hin : base ≤ a ∧ a < base + (bytes.length + 1)
      · have hsub : a - base = a - (base + 1) + 1 := by omega
        rw [if_pos (by omega), if_pos hin, hsub, List.getElem?_cons_succ]
      · rw [if_neg (by omega), if_neg hin, if_neg ha]

/-- LOADW presents the record in WBUF (R101). -/
theorem performAll_loadw (s : State) (r : Record) :
    ∃ m, performAll (loadw r) s = .next { s with wbuf := m } ∧ State.wbufHolds { s with wbuf := m } r := by
  obtain ⟨m, hm, hget⟩ := performAll_wrbFrom_wbuf r.toList 0 s (by simp)
  refine ⟨m, hm, fun i => ?_⟩
  rw [hget i.val, if_pos (by simp)]
  simp

theorem exec_decode_z (s : State) :
    ∃ t, exec .decode s = .next t ∧ t.flags.z = decide (s.wbufByte 0 4 = 0) ∧ t.count = s.count ∧ t.host = s.host :=
  ⟨_, exec_decode s, firstByteZero_segmentOfRecord _, complete_count _, complete_host _⟩

/-- RECV decodes the record: Z tells its first payload byte (R133). -/
theorem performAll_recv (s : State) (r : Record) :
    ∃ t, performAll (recv r) s = .next t ∧ t.flags.z = decide (r[4] = 0) ∧ t.count = s.count ∧ t.host = s.host := by
  obtain ⟨m, hm, hholds⟩ := performAll_loadw s r
  obtain ⟨t, ht, hz, hcount, hhost⟩ := exec_decode_z { s with wbuf := m }
  refine ⟨t, ?_, ?_, hcount, hhost⟩
  · rw [recv, performAll_append hm, performAll_cons ((perform_cmd _ .decode rfl).trans ht)]
    rfl
  · rw [hz, wbufByte_of_holds _ 0 r hholds 4 (by decide)]

/-- Bit 0 of STATUS is Z (R23). -/
theorem flags_value_getLsbD_zero (f : Flags) : f.value.getLsbD 0 = f.z := by
  obtain ⟨z, more, gap, dup, hit, ever⟩ := f
  revert z more gap dup hit ever
  decide

/-- RECV and the reads of STATUS and COUNT: the two replies are Z's register and COUNT. -/
theorem performAll_recv_reads (s : State) (r : Record) (hreplies : s.host.replies = []) :
    ∃ t status, performAll (recv r ++ [rd .status, rd .count]) s = .next t ∧ t.count = s.count ∧
      t.host = { s.host with replies := [BitVec.ofNat 32 s.count, status] } ∧
      status.getLsbD 0 = decide (r[4] = 0) := by
  obtain ⟨t, ht, hz, hcount, hhost⟩ := performAll_recv s r
  refine ⟨(t.reply t.flags.value).reply (BitVec.ofNat 32 t.count), t.flags.value, ?_, hcount, ?_,
    (flags_value_getLsbD_zero t.flags).trans hz⟩
  · rw [performAll_append ht, performAll_cons (perform_rd t .status _ rfl), performAll_cons (perform_rd _ .count _ rfl)]
    rfl
  · simp only [reply_host, hhost, hreplies, hcount]

/-- Settles O55: the client's move in its decoding state, on the replies that the batch returned. -/
theorem clientDecidesByTheFirstPayloadByte : Obligations.ClientDecidesByTheFirstPayloadByte := by
  intro s c r hs hp hreplies hrole hc
  have hfit : (BitVec.ofNat 32 s.count).toNat = s.count := by
    have hslots := hs.slotCount
    have hmax : s.cfg.nslot ≤ 65536 := (of_decide_eq_true hs.params).2.1
    rw [BitVec.toNat_ofNat]
    omega
  obtain ⟨t, status, ht, hcount, hhost, hz⟩ := performAll_recv_reads s r hreplies
  have hturn := step_client t c (by rw [hhost]; exact hp) (by rw [hhost]; exact hrole)
  have hstatus : replied t.host.replies 0 = status := by rw [hhost]; rfl
  have hcnt : (replied t.host.replies 1).toNat = s.count := by rw [hhost]; exact hfit
  rw [clientTurn_decoding t c hc, hstatus, hcnt, hz] at hturn
  by_cases hbyte : r[4] = 0
  · rw [if_neg (by simp [hbyte])] at hturn
    by_cases hempty : s.count = 0
    · rw [if_pos hempty] at hturn
      exact ⟨t, _, ht, hturn, hcount, hcount, fun h => absurd hbyte h, fun _ _ => ⟨rfl, rfl⟩,
        fun _ h => absurd hempty h⟩
    · rw [if_neg hempty] at hturn
      exact ⟨t, _, ht, hturn, hcount, hcount, fun h => absurd hbyte h, fun _ h => absurd h hempty,
        fun _ _ => ⟨rfl, rfl⟩⟩
  · rw [if_pos (decide_eq_false hbyte)] at hturn
    exact ⟨t, _, ht, hturn, hcount, hcount, fun _ => ⟨rfl, rfl⟩, fun h => absurd h hbyte, fun h => absurd h hbyte⟩

/-! ### Where the records at the client come from -/

/-- What a step may do to the host's role: keep it, add to a server's sent records, or take from a client's arrived
ones. -/
inductive RoleFollows : Role → Role → Prop where
  | same (r : Role) : RoleFollows r r
  | server (sv sv' : Server) (h : sv.sent ⊆ sv'.sent) : RoleFollows (.server sv) (.server sv')
  | client (c c' : Client) (h : c'.arrived ⊆ c.arrived) : RoleFollows (.client c) (.client c')

/-- An access of the host leaves its role. -/
theorem perform_role (s t : State) (act : HostAction) (h : s.perform act = .next t) : t.host.role = s.host.role := by
  rcases perform_cases s t act h with
    ⟨_, _, v, -, -, rfl⟩ | ⟨_, i, -, -, hx⟩ | ⟨_, -, rfl⟩ | ⟨-, hw⟩ | ⟨-, rfl⟩
  · rfl
  · rcases exec_cases i s with ⟨e, -, he⟩ | ⟨u, -, hu, -, hhost, -⟩
    · cases he.symm.trans hx
      rfl
    · cases hu.symm.trans hx
      exact congrArg HostSide.role hhost
  · rfl
  · cases hw <;> rfl
  · rfl

theorem serverTurn_role (s t : State) (sv : Server) (hr : s.host.role = .server sv) (h : serverTurn s sv = .next t) :
    RoleFollows s.host.role t.host.role := by
  have hstay : ∀ sv', sv'.sent = sv.sent → RoleFollows s.host.role (.server sv') := fun sv' he =>
    hr ▸ .server sv sv' (he ▸ List.Subset.refl _)
  have hsend : ∀ sv' r, sv'.sent = sv.sent ++ [r] → RoleFollows s.host.role (.server sv') := fun sv' r he =>
    hr ▸ .server sv sv' (he ▸ List.subset_append_left _ _)
  unfold serverTurn at h
  split at h
  · replace h := viaTransport_next h
    split at h
    · cases h
      exact .same _
    · split at h <;> cases h
      exact hstay _ rfl
  · split at h <;> cases h <;> exact hstay _ rfl
  · replace h := viaTransport_next h
    split at h <;> cases h <;> exact hsend _ _ rfl
  · cases viaTransport_next h
    exact hsend _ _ rfl

theorem clientTurn_role (s t : State) (c : Client) (hr : s.host.role = .client c) (h : clientTurn s c = .next t) :
    RoleFollows s.host.role t.host.role := by
  have hstay : ∀ c', c'.arrived = c.arrived → RoleFollows s.host.role (.client c') := fun c' he =>
    hr ▸ .client c c' (he ▸ List.Subset.refl _)
  unfold clientTurn at h
  split at h
  · cases h
    exact hstay _ rfl
  · split at h
    · cases viaTransport_next h
      exact hstay _ rfl
    · cases h
  · replace h := viaTransport_next h
    split at h <;> cases h
    · exact .same _
    · exact hstay _ rfl
  · replace h := viaTransport_next h
    split at h
    · cases h
      exact .same _
    · next r rest harr =>
      cases h
      rw [hr]
      exact .client c _ (harr ▸ List.subset_cons_self r rest)
  · simp only at h
    split at h
    · cases h
      exact hstay _ rfl
    · split at h <;> cases h <;> exact hstay _ rfl
  · cases h
    exact hstay _ rfl
  · cases h
    exact hstay _ rfl
  · cases h
    exact hstay _ rfl
  · cases h
    exact .same _

theorem step_role (s t : State) (h : step s = .next t) : RoleFollows s.host.role t.host.role := by
  cases hp : s.host.pending with
  | nil =>
    cases hr : s.host.role with
    | external =>
      cases (step_external s hp hr).symm.trans h
      exact hr ▸ .same _
    | server sv => exact hr ▸ serverTurn_role s t sv hr ((step_server s sv hp hr).symm.trans h)
    | client c => exact hr ▸ clientTurn_role s t c hr ((step_client s c hp hr).symm.trans h)
  | cons act rest =>
    have hrole := perform_role (s.popped rest) t act ((step_of_pending s act rest hp).symm.trans h)
    rw [hrole]
    exact .same _

/-- A step of a server keeps the records it has sent. -/
theorem sentRecords_subset_of_step (s t : State) (h : step s = .next t) : s.sentRecords ⊆ t.sentRecords := by
  have hrole := step_role s t h
  unfold State.sentRecords
  generalize s.host.role = a at hrole ⊢
  generalize t.host.role = b at hrole ⊢
  cases hrole with
  | same r => exact List.Subset.refl _
  | server sv sv' hsub => exact hsub
  | client c c' _ => exact List.Subset.refl _

/-- The records that wait at a client's host (R242). -/
def State.arrivedRecords (s : State) : List Record :=
  match s.host.role with
  | .client c => c.arrived
  | .external => []
  | .server _ => []

theorem arrivedRecords_of_client {s : State} {c : Client} (h : s.host.role = .client c) :
    s.arrivedRecords = c.arrived := by
  simp only [State.arrivedRecords, h]

theorem mem_arrivedRecords_iff (s : State) (r : Record) :
    r ∈ s.arrivedRecords ↔ ∃ c, s.host.role = .client c ∧ r ∈ c.arrived := by
  cases h : s.host.role <;> simp [State.arrivedRecords, h]

/-- A step of a client brings no record. -/
theorem arrivedRecords_subset_of_step (s t : State) (h : step s = .next t) : t.arrivedRecords ⊆ s.arrivedRecords := by
  have hrole := step_role s t h
  unfold State.arrivedRecords
  generalize s.host.role = a at hrole ⊢
  generalize t.host.role = b at hrole ⊢
  cases hrole with
  | same r => exact List.Subset.refl _
  | server sv sv' _ => exact List.Subset.refl _
  | client c c' hsub => exact hsub

theorem failTransport_arrivedRecords (s : State) : s.failTransport.arrivedRecords = s.arrivedRecords := by
  unfold State.failTransport
  split <;> simp [State.arrivedRecords, *]

/-- A delivery adds the one record. -/
theorem mem_arriveRecord (s : State) (r q : Record) (h : q ∈ (s.arriveRecord r).arrivedRecords) :
    q ∈ s.arrivedRecords ∨ q = r := by
  cases hr : s.host.role with
  | client c => simpa [State.arriveRecord, State.arrivedRecords, hr] using h
  | external => exact .inl (by simpa [State.arriveRecord, hr] using h)
  | server sv => exact .inl (by simpa [State.arriveRecord, hr] using h)

/-- Every move keeps the waiting records among those that were sent. -/
theorem moves_keep_arrived_sent (t t' : Transfer) (h : Transfer.Moves t t')
    (hold : t.client.arrivedRecords ⊆ t.server.sentRecords) : t'.client.arrivedRecords ⊆ t'.server.sentRecords := by
  cases h with
  | serverStep s' hs => exact List.Subset.trans hold (sentRecords_subset_of_step _ _ hs)
  | clientStep s' hs => exact List.Subset.trans (arrivedRecords_subset_of_step _ _ hs) hold
  | deliverRecord r hr =>
    intro q hq
    rcases mem_arriveRecord t.client r q hq with hq | rfl
    · exact hold hq
    · exact hr
  | deliverRequest line _ => exact (arriveRequest_sentRecords t.server line).symm ▸ hold
  | failAtClient => exact (failTransport_arrivedRecords t.client).symm ▸ hold
  | failAtServer => exact (failTransport_sentRecords t.server).symm ▸ hold

/-- Settles O59: the records in the statement are the client's arrived records. -/
theorem recordsAtTheClientCameFromTheServer : Obligations.RecordsAtTheClientCameFromTheServer := by
  intro t t' hmove hold c r hc hr
  refine moves_keep_arrived_sent t t' hmove (fun q hq => ?_) ((arrivedRecords_of_client hc).symm ▸ hr)
  obtain ⟨d, hd, hq⟩ := (mem_arrivedRecords_iff t.client q).mp hq
  exact hold d q hd hq

end Sys2Proof.Machine
end
